-- ==== Sys2Proof/Word.lean ====
section
/-! DEFINITION. The two bit widths every address, unit and typed character of the block has
(spec/00_scope.md rule R6, spec/20_memory.md rule R30). -/

namespace Sys2Proof

/-- 8 bits: a memory location, a typed character, a selector. -/
abbrev Byte := BitVec 8

/-- 16 bits: an address, a memory unit, a folded operand, a duty. -/
abbrev Word := BitVec 16

end Sys2Proof
end

