-- ==== Sys2Proof/Config.lean ====
section
/-! DEFINITION. The implementation parameters of spec/00_scope.md rule R6: the literals the document
gives as named constants, the OPEN parameters as a record, and the free values (constants without a
body) for what the spec leaves unspecified. -/

namespace Sys2Proof

/-- BYTE_ORDER (spec/20_memory.md rule R33): which byte of a unit lies at the lower address. -/
inductive ByteOrder where
  | big
  | little
deriving DecidableEq, Repr

/-- POKE_ADDR_BITS (spec/43_environment.md rule R147): 8 or 16. -/
inductive PokeWidth where
  | eight
  | sixteen
deriving DecidableEq, Repr

/-- An inclusive pair of addresses (spec/00_scope.md rule R6: RANGE[i].start and RANGE[i].end;
`stop` is the spec's `end`). -/
structure Range where
  start : Word
  stop  : Word
deriving DecidableEq, Repr

/-- The OPEN parameters of rule R6, and two that rule R144 leaves to the platform.
No command writes any of them (spec/10_state.md rule R15). -/
structure Config where
  range0       : Range
  range1       : Range
  /-- SENTINEL: 0x55AA unless the deployment changes it (decision D8). -/
  sentinel     : Word
  byteOrder    : ByteOrder
  /-- PREV_DUTY_RESET (rules R25, R26). -/
  prevDutyReset : Word
  pokeAddrBits : PokeWidth
  pokeSafeLo   : Word
  pokeSafeHi   : Word
  pokeWl0      : Word
  pokeWl1      : Word
  /-- The addresses the platform does not map (spec/43_environment.md rule R144). -/
  unmapped     : List Range
  /-- The addresses whose read has a side effect on a device (rule R144; open point U21). -/
  sideEffectReads : List Range
deriving DecidableEq, Repr

/-- SCALE_NUM (rule R6, R92). -/
def Config.scaleNum : Nat := 6944
/-- SCALE_DEN (rule R6, R92). -/
def Config.scaleDen : Nat := 10000
/-- DUTY_OFFSET (rule R6, R92). -/
def Config.dutyOffset : Nat := 125
/-- HI_THRESH (rule R6, R93). -/
def Config.hiThresh : Nat := 249
/-- HI_DUTY (rule R6, R93). -/
def Config.hiDuty : Nat := 320
/-- LO_THRESH (rule R6, R93). -/
def Config.loThresh : Nat := 125
/-- LO_DUTY (rule R6, R93). -/
def Config.loDuty : Nat := 90
/-- DEADBAND (rule R6, R95). -/
def Config.deadband : Nat := 3
/-- PWM_PERIOD (rule R6, R113). -/
def Config.pwmPeriod : Word := 2500#16
/-- COMPARE_ADJ (rule R6, R114). -/
def Config.compareAdj : Word := 1#16
/-- MAX_CHARS (rule R6, R53). -/
def Config.maxChars : Nat := 4

/-- The configuration of decision D37, which the test vectors of spec/95_test_vectors.md use.
DESIGN CHOICE (log 1): it is no property of the hardware; only `State.reset` and the tests name it. -/
def Config.illustrative : Config where
  range0 := ⟨0x0080#16, 0x0087#16⟩
  range1 := ⟨0x0100#16, 0x0104#16⟩
  sentinel := 0x55AA#16
  byteOrder := .big
  prevDutyReset := 0#16
  pokeAddrBits := .sixteen
  pokeSafeLo := 0x0080#16
  pokeSafeHi := 0x00FF#16
  pokeWl0 := 0x0000#16
  pokeWl1 := 0x0001#16
  unmapped := []
  sideEffectReads := []

/-- FREE VALUE (log 7): the content of the location at an address nothing has written; memory is
unspecified after reset (spec/10_state.md rule R25). -/
opaque Config.initialByte : Nat → Byte

/-- FREE VALUE (log 12): what PWM.CNT holds after the n-th counter-reset pulse; "what value the
counter takes" is not in the source (spec/41_angle_to_duty.md rule R96). -/
opaque Config.counterAfterReset : Nat → Nat

/-- FREE VALUE (log 12): whether a set cycle-complete indicator is still set after the n-th counter-reset
pulse; "whether the reset affects `PWM.CYCLE_FLAG`" is not in the source (rule R96). -/
opaque Config.flagSurvivesReset : Nat → Bool

/-- FREE VALUE (log 5): what the host reads as fail_addr[i] while fail[i] = 0, where it is unspecified
(spec/40_memory_walker.md rule R79); the arguments are the model's draw counter, the number of port
events so far, and i. -/
opaque Config.unspecifiedFailAddr : Nat → Nat → Fin 2 → Word

end Sys2Proof
end

