-- ==== Sys2Proof/Syntax.lean ====
section
/-! DEFINITION. The commands at the serial level (spec/30_encoding.md rules R51 to R53): one
constructor per row of spec/opcode_table.json. An operand line is kept as it was typed, because
POKE echoes the characters (spec/43_environment.md rule R150) and the number of bytes a command takes
depends on how each line ended (rule R56). -/

namespace Sys2Proof

/-- The two bytes that end an operand line early (rule R53). -/
inductive Terminator where
  | lf
  | cr
deriving DecidableEq, Repr

/-- The code of a terminator (rule R53: 0x0A or 0x0D). -/
def Terminator.code : Terminator → Byte
  | .lf => 0x0A#8
  | .cr => 0x0D#8

/-- The terminator a byte is, if it is one. -/
def Terminator.ofByte? (b : Byte) : Option Terminator :=
  if b = 0x0A#8 then some .lf else if b = 0x0D#8 then some .cr else none

/-- One operand line (rule R53): the stored characters in arrival order, and the terminator that was
consumed; a line that filled the buffer consumed none. -/
structure Line where
  chars : List Byte
  ended : Option Terminator
deriving DecidableEq, Repr

/-- The commands (rule R52; formats SEL, SEL_L, SEL_LL of rule R51). -/
inductive Instr where
  | diag
  | peek (address : Line)
  | poke (address data : Line)
  | angle (angle : Line)
  | exit
deriving DecidableEq, Repr

end Sys2Proof
end

