-- ==== Sys2Proof/WellFormed.lean ====
section
/-! DEFINITION. Which operand lines and commands the serial encoding can carry
(spec/30_encoding.md rule R53). -/

namespace Sys2Proof

/-- No stored character is a terminator: a terminator "is consumed but not stored" (rule R53). -/
def Line.charsStorable (l : Line) : Bool :=
  l.chars.all fun c => (Terminator.ofByte? c).isNone

/-- `k` stored characters with `0 <= k <= 3` and one terminator, or exactly 4 and none (rule R53). -/
def Line.lengthFits (l : Line) : Bool :=
  match l.ended with
  | some _ => decide (l.chars.length < Config.maxChars)
  | none   => decide (l.chars.length = Config.maxChars)

/-- A line the Line Reader can deliver. -/
def Line.wf (l : Line) : Bool := l.charsStorable && l.lengthFits

/-- A command whose operand lines the Line Reader can deliver. -/
def Instr.wf : Instr → Bool
  | .diag      => true
  | .peek a    => a.wf
  | .poke a d  => a.wf && d.wf
  | .angle a   => a.wf
  | .exit      => true

end Sys2Proof
end

