-- ==== Sys2Proof/Decode.lean ====
section
/-! DEFINITION. Decoding the serial byte stream (spec/30_encoding.md rules R51 to R57), the encoder
beside it, and the opcode-table view of a word. -/

namespace Sys2Proof

/-- Why a byte sequence is no command. -/
inductive DecodeError where
  /-- There is no selector byte yet: the interpreter waits (spec/43_environment.md rule R131). -/
  | noSelector
  /-- The selector is none of 0x31 to 0x35 (rule R57). -/
  | invalidSelector (selector : Byte)
  /-- The selector is known and an operand line has not ended yet (rules R53, R56). -/
  | lineUnfinished
deriving DecidableEq, Repr

/-- Selector codes (rule R52 and spec/opcode_table.json). -/
def selDiag : Byte := 0x31#8
@[inherit_doc selDiag] def selPeek : Byte := 0x32#8
@[inherit_doc selDiag] def selPoke : Byte := 0x33#8
@[inherit_doc selDiag] def selAngle : Byte := 0x34#8
@[inherit_doc selDiag] def selExit : Byte := 0x35#8

/-- The Line Reader with room for `n` more characters (rule R53): it stops at a terminator, which it
consumes and does not store, or when the buffer is full; `none` when the bytes run out first. -/
def takeLine : Nat → List Byte → Option (Line × List Byte)
  | 0, bs => some (⟨[], none⟩, bs)
  | _ + 1, [] => none
  | n + 1, b :: bs =>
    match Terminator.ofByte? b with
    | some t => some (⟨[], some t⟩, bs)
    | none => (takeLine n bs).map fun r => (⟨b :: r.1.chars, r.1.ended⟩, r.2)

/-- One operand line of at most MAX_CHARS characters. -/
def readLine (bs : List Byte) : Option (Line × List Byte) := takeLine Config.maxChars bs

/-- A `SEL_L` command (rule R51): the bytes after the selector hold one line. -/
def decodeOneLine (mk : Line → Instr) (bs : List Byte) : Except DecodeError (Instr × List Byte) :=
  match readLine bs with
  | some (l, rest) => .ok (mk l, rest)
  | none => .error .lineUnfinished

/-- A `SEL_LL` command (rule R51): the bytes after the selector hold two lines. -/
def decodeTwoLines (mk : Line → Line → Instr) (bs : List Byte) :
    Except DecodeError (Instr × List Byte) :=
  match readLine bs with
  | some (l, rest) => decodeOneLine (mk l) rest
  | none => .error .lineUnfinished

/-- The decoder of rule R56: read one selector, look its format up in rule R52, read its lines.
Total on any bytes; what is not a command is rejected by name. -/
def decode : List Byte → Except DecodeError (Instr × List Byte)
  | [] => .error .noSelector
  | b :: bs =>
    if b = selDiag then .ok (.diag, bs)
    else if b = selPeek then decodeOneLine .peek bs
    else if b = selPoke then decodeTwoLines .poke bs
    else if b = selAngle then decodeOneLine .angle bs
    else if b = selExit then .ok (.exit, bs)
    else .error (.invalidSelector b)

/-- The bytes of an operand line on the transport (rule R53). -/
def encodeLine (l : Line) : List Byte :=
  l.chars ++ (l.ended.map Terminator.code).toList

/-- The bytes of a command on the transport (rules R51, R52). -/
def encode : Instr → List Byte
  | .diag     => [selDiag]
  | .peek a   => selPeek :: encodeLine a
  | .poke a d => selPoke :: (encodeLine a ++ encodeLine d)
  | .angle a  => selAngle :: encodeLine a
  | .exit     => [selExit]

/-- Whether a byte is one of the five selectors (rule R52). -/
def isSelector (b : Byte) : Bool :=
  b = selDiag || b = selPeek || b = selPoke || b = selAngle || b = selExit

/-- The longest command in bytes (rule R56). -/
def longestCommand : Nat := 9

/-- The first `longestCommand` bytes of the number `w` cut to `nbits` bits, byte 0 first. -/
def tableBytes (nbits w : Nat) : List Byte :=
  (List.range longestCommand).map fun k => BitVec.ofNat 8 (w % 2 ^ nbits / 2 ^ (8 * k))

/-- What the decoder reads from an opcode-table word: byte 0 is the first byte on the transport, and
every byte above the word is 0x00, a stored character whose digit is 0 (rule R54). -/
def decodeTableWord (nbits w : Nat) : Option Instr :=
  match decode (tableBytes nbits w) with
  | .ok (i, _) => some i
  | .error _ => none

/-- The bytes of `tableBytes` that the command takes: what an operator would type. -/
def tableCommandBytes (nbits w : Nat) : List Byte :=
  match decode (tableBytes nbits w) with
  | .ok (_, rest) => (tableBytes nbits w).take (longestCommand - rest.length)
  | .error _ => (tableBytes nbits w).take 1

end Sys2Proof
end

