-- ==== Sys2Proof/Machine/State.lean ====
section
/-! DEFINITION. Everything the spec gives the machine, as plain data (spec/10_state.md;
spec/43_environment.md for the environment), the reasons a step can stop, and the state after reset
(rules R25, R180, R181). -/

namespace Sys2Proof.Machine

/-- The sequencer's control state (spec/10_state.md rule R12). -/
inductive Phase where
  | idle
  | dBounds
  | dCheck
  | dWrite
  | dRead
  | dCmp
  | dVerdict
  | aConvert
  | aPeriod
  | aCompare
  | aMode
  | aWait
  | aClear
  | aEcho
deriving DecidableEq, Repr

/-- PWM.MODE (spec/42_pwm_sync.md rule R115): the one mode the document names, and whatever the
platform left before the first PWM_SYNC (log 6). -/
inductive PwmMode where
  | platformLeft
  | edgeAligned
deriving DecidableEq, Repr

/-- The reports of the block (spec/30_encoding.md rule R61) and the environment's output events in the
same stream: MENU (rule R139), PROMPT (rules R143, R145), PEEK_VALUE, POKE_DONE, OUT_OF_RANGE and the
local echo of a character (rule R150). -/
inductive Report where
  | bounds (start stop : Word)
  | failAddr (addr : Word)
  | rangeOk
  | rangeFail (start stop : Word)
  | angleEcho (p : Word)
  | invalidSelector (sel : Word)
  | menu
  | prompt
  | peekValue (v : Word)
  | pokeDone (value addr : Word)
  | outOfRange
  | localEcho (c : Byte)
deriving DecidableEq, Repr

/-- One transaction of the memory port (spec/20_memory.md rule R30) with the value it carried. -/
inductive MemTxn where
  | write2 (addr : Word) (v : Word)
  | read2 (addr : Word) (v : Word)
  | write1 (addr : Word) (v : Byte)
  | read1 (addr : Word) (v : Byte)
deriving DecidableEq, Repr

/-- What the block does on the PWM port (spec/42_pwm_sync.md rule R110); `poll` is one read of the
cycle-complete indicator and the value it found. -/
inductive PwmAction where
  | writePeriod (v : Word)
  | writeCompare (v : Word)
  | writeMode (m : PwmMode)
  | counterReset
  | poll (flag : Bool)
  | clearFlag
deriving DecidableEq, Repr

/-- One event on a port of the block or of the environment, in the order they happen (log 25). -/
inductive PortEvent where
  | out (r : Report)
  | mem (t : MemTxn)
  | pwm (a : PwmAction)
  /-- The `done` output of the command port (spec/30_encoding.md rule R58). -/
  | done
deriving DecidableEq, Repr

/-- The sequencer, its datapath registers (spec/10_state.md rules R11 to R13) and the command port
(spec/30_encoding.md rule R58). -/
structure Block where
  phase     : Phase
  ri        : Fin 2
  addr      : Word
  rd        : Word
  failed    : Bool
  fail0     : Bool
  fail1     : Bool
  failAddr0 : Word
  failAddr1 : Word
  p         : Word
  deg       : BitVec 11
  prod      : BitVec 24
  raw       : BitVec 11
  clamped   : BitVec 9
  adopt     : Bool
  duty      : Word
  prevDuty  : Word
  /-- A command is offered on the port and not accepted yet. -/
  cmdValid  : Bool
  cmdSel    : Byte
  cmdArg    : Word
  /-- The `done` output, held until the environment, which waits for it, takes it back (log 34). -/
  done      : Bool
deriving DecidableEq, Repr

/-- The PWM port registers (spec/10_state.md rule R17). -/
structure Pwm where
  period    : Word
  compare   : Word
  mode      : PwmMode
  /-- PWM.CNT: its width is not in the source; the block never reads it. -/
  cnt       : Nat
  cycleFlag : Bool
deriving DecidableEq, Repr

/-- A stuck-at fault (spec/20_memory.md rule R45): on every read, the bits of `mask` at location
`loc` show those of `value`. -/
structure StuckAt where
  loc   : Word
  mask  : Byte
  value : Byte
deriving DecidableEq, Repr

/-- The memory agent (spec/20_memory.md rule R45): the bytes written, in canonical form (addresses
strictly rising), its stuck-at faults, and a script of answers to the coming reads: `some v` answers
`v` whatever is stored, `none` and the end of the script answer what the locations hold (log 8). -/
structure Memory where
  cells   : List Host.Cell
  stuck   : List StuckAt
  answers : List (Option Word)
deriving DecidableEq, Repr

/-- The Command Interpreter's states (spec/43_environment.md rule R138). -/
inductive Interp where
  | showMenu
  | awaitSelector
  | dispatch
  | exit
deriving DecidableEq, Repr

/-- Where the single thread stands inside `Dispatch` (log 27). -/
inductive Stage where
  /-- The Line Reader is reading operand bytes. -/
  | operands
  /-- The command has been presented to the block; waiting for `done` (rule R141). -/
  | block
  /-- The handler has done its work and its report is not accepted yet (rule R168 (b)). -/
  | answer (r : Report)
deriving DecidableEq, Repr

/-- The environment: interpreter, line reader and transport (spec/43_environment.md). -/
structure Env where
  interp   : Interp
  stage    : Stage
  /-- The selector received (rule R138). -/
  sel      : Byte
  /-- The command buffer: the operand bytes received for the current command, terminators included. -/
  received : List Byte
  /-- The prompt of the current operand line has been sent. -/
  prompted : Bool
  /-- The decoded address of PEEK or POKE. -/
  opAddr   : Word
  /-- The decoded data of POKE. -/
  opData   : Byte
  /-- Bytes typed and not received yet, oldest first (log 20). -/
  rx       : List Byte
deriving DecidableEq, Repr

/-- What peripheral and host do before one transaction (log 9). -/
structure Activity where
  /-- A PWM cycle completes: the peripheral sets the indicator (spec/42_pwm_sync.md rule R118 (a)). -/
  cycleDone : Bool
  /-- What PWM.CNT then shows. -/
  cnt       : Nat
  /-- How many more output events the host accepts. -/
  accepts   : Nat
  /-- Bytes the operator types. -/
  typed     : List Byte
deriving DecidableEq, Repr

/-- One entry of the world script: an ordinary turn of the outside world, or the block's reset
(spec/70_reset_and_hazards.md rules R180, R182). -/
inductive Turn where
  | run (a : Activity)
  | reset
deriving DecidableEq, Repr

/-- Everything the spec gives the machine. -/
structure State where
  /-- The configuration constants, which no step writes (spec/10_state.md rule R15; log 1). -/
  cfg   : Config
  blk   : Block
  pwm   : Pwm
  mem   : Memory
  env   : Env
  /-- Every port event since reset, oldest first (spec/10_state.md rule R19). -/
  trace : List PortEvent
  /-- How many output events the host still accepts; `none`: it always accepts (log 10). -/
  room  : Option Nat
  /-- What the outside world does next (log 9). -/
  world : List Turn
  /-- The model's counter for free values (log 12). -/
  draws : Nat
deriving DecidableEq, Repr

/-- Why a run stops with nothing claimed after it. Safe: the model stops where a deployment may go on. -/
inductive Fault where
  /-- PEEK of an address the platform does not map: "a malformed address can produce a spurious bus
  fault" (spec/43_environment.md rule R144, decision D27). Raised by `execPeek`. Safe. -/
  | busFault (addr : Word)
  /-- PEEK of an address whose read has a side effect on a device the spec does not describe (rule R144,
  open point U21: fault). Raised by `execPeek`. Safe. -/
  | deviceReadEffect (addr : Word)
deriving DecidableEq, Repr

/-- What the spec gives no meaning. Safe: nothing is claimed of what is refused. -/
inductive Refusal where
  /-- An instruction the model gives no meaning yet; raised only by an arm of `exec`. Safe. -/
  | notModelled (mnemonic : String)
  /-- DIAG with a range configuration that is not well-formed (spec/20_memory.md rule R36: refused).
  Raised by `runBlock`. Safe. -/
  | illFormedRanges
  /-- A step after the interpreter has reached `Exit` (open point U23: refuse). Raised by `step`. Safe. -/
  | sessionOver
deriving DecidableEq, Repr

/-- The block after reset with PREV_DUTY_RESET = `prev` (rule R25). Everything rule R25 leaves
unspecified holds zero (log 4). -/
def Block.reset (prev : Word) : Block where
  phase := .idle
  ri := 0
  addr := 0#16
  rd := 0#16
  failed := false
  fail0 := false
  fail1 := false
  failAddr0 := 0#16
  failAddr1 := 0#16
  p := 0#16
  deg := 0#11
  prod := 0#24
  raw := 0#11
  clamped := 0#9
  adopt := false
  duty := 0#16
  prevDuty := prev
  cmdValid := false
  cmdSel := 0#8
  cmdArg := 0#16
  done := false

/-- The PWM port after power-on: unspecified by rule R25, so named (log 6). -/
def Pwm.reset : Pwm where
  period := 0#16
  compare := 0#16
  mode := .platformLeft
  cnt := 0
  cycleFlag := false

/-- A memory nothing has written, fault-free (rule R25; log 7, log 8). -/
def Memory.reset : Memory where
  cells := []
  stuck := []
  answers := []

/-- The environment at its start: "Initial state ShowMenu" (rule R138), with `rx` on the transport. -/
def Env.reset (rx : List Byte) : Env where
  interp := .showMenu
  stage := .operands
  sel := 0#8
  received := []
  prompted := false
  opAddr := 0#16
  opData := 0#8
  rx := rx

/-- The machine right after reset with the configuration `cfg`, for every configuration. -/
def State.resetWith (cfg : Config) : State where
  cfg := cfg
  blk := Block.reset cfg.prevDutyReset
  pwm := Pwm.reset
  mem := Memory.reset
  env := Env.reset []
  trace := []
  room := none
  world := []
  draws := 0

/-- The machine right after reset. The configuration is the illustrative one of D37 (log 1); what the
spec says of reset holds of `State.resetWith cfg` for every `cfg`. -/
def State.reset : State := State.resetWith Config.illustrative

/-- `s` with another block part. -/
def State.setBlk (s : State) (b : Block) : State := { s with blk := b }
/-- `s` with another PWM port part. -/
def State.setPwm (s : State) (p : Pwm) : State := { s with pwm := p }
/-- `s` with another memory agent. -/
def State.setMem (s : State) (m : Memory) : State := { s with mem := m }
/-- `s` with another environment part. -/
def State.setEnv (s : State) (e : Env) : State := { s with env := e }
/-- `s` with another port history. -/
def State.setTrace (s : State) (t : List PortEvent) : State := { s with trace := t }
/-- `s` with another acceptance credit. -/
def State.setRoom (s : State) (r : Option Nat) : State := { s with room := r }
/-- `s` with another world script. -/
def State.setWorld (s : State) (w : List Turn) : State := { s with world := w }
/-- `s` with another draw counter. -/
def State.setDraws (s : State) (n : Nat) : State := { s with draws := n }

end Sys2Proof.Machine
end

