-- ==== Sys2Proof/Machine/Ops.lean ====
section
/-! DEFINITION. The named operations over memory, the PWM port, the report port and the outside world.
The block raises no exception: there is no cause, no saved register, no handler and no return
(spec/60_exceptions.md rules R160, R164, R167), so there is no exception entry here; what takes its
place, the failed verification, is `dCmp` in Walker.lean. -/

namespace Sys2Proof

/-- `RANGE[i]` (spec/00_scope.md rule R6). -/
def Config.range (c : Config) (i : Fin 2) : Range := if i = 0 then c.range0 else c.range1

end Sys2Proof

namespace Sys2Proof.Machine

/-! ### Memory (spec/20_memory.md) -/

/-- The byte written at an address, if any. -/
def lookupCell : List Host.Cell → Nat → Option Byte
  | [], _ => none
  | (a, b) :: cs, x => if a = x then some b else lookupCell cs x

/-- The cells after a byte is written, addresses still strictly rising. -/
def writeCell : List Host.Cell → Nat → Byte → List Host.Cell
  | [], x, v => [(x, v)]
  | (a, b) :: cs, x, v =>
    if x < a then (x, v) :: (a, b) :: cs
    else if x = a then (x, v) :: cs
    else (a, b) :: writeCell cs x v

/-- The addresses of `cs` rise strictly from `lo` on and stay below 2^16 (spec/10_state.md rule R18). -/
def risingFrom : Nat → List Host.Cell → Bool
  | _, [] => true
  | lo, (a, _) :: cs => decide (lo ≤ a) && decide (a < 65536) && risingFrom (a + 1) cs

/-- The canonical form. An unlisted address has no value of its own (it reads as the free value
`Config.initialByte`), so no entry can equal it. -/
def Memory.wf (m : Memory) : Bool := risingFrom 0 m.cells

/-- The byte a location holds: the one most recently written, or its initial content if nothing was
written (rule R45; log 7). -/
def Memory.storedByte (m : Memory) (x : Nat) : Byte :=
  (lookupCell m.cells x).getD (Config.initialByte x)

/-- One stuck-at fault: `(stored & ~m) | (s & m)` (rule R45). -/
def StuckAt.apply (f : StuckAt) (b : Byte) : Byte := (b &&& ~~~f.mask) ||| (f.value &&& f.mask)

/-- The stuck-at faults of location `x`, in the order listed. -/
def applyStuck : List StuckAt → Nat → Byte → Byte
  | [], _, b => b
  | f :: fs, x, b => applyStuck fs x (if f.loc.toNat = x then f.apply b else b)

/-- `b(x)`, the byte the cells of location `x` answer (rules R32, R45). -/
def Memory.byteAnswered (m : Memory) (x : Nat) : Byte := applyStuck m.stuck x (m.storedByte x)

/-- The 16-bit value of the byte at the lower and at the higher address (rule R32). -/
def joinUnit (o : ByteOrder) (lower upper : Byte) : Word :=
  match o with
  | .big => lower ++ upper
  | .little => upper ++ lower

/-- The byte of a unit that is stored at the lower address (rule R31). -/
def lowerByte (o : ByteOrder) (v : Word) : Byte :=
  match o with
  | .big => v.extractLsb' 8 8
  | .little => v.extractLsb' 0 8

/-- The byte of a unit that is stored at the higher address (rule R31). -/
def upperByte (o : ByteOrder) (v : Word) : Byte :=
  match o with
  | .big => v.extractLsb' 0 8
  | .little => v.extractLsb' 8 8

/-- The memory after one byte is stored. -/
def Memory.storeByte (m : Memory) (x : Nat) (v : Byte) : Memory :=
  { m with cells := writeCell m.cells x v }

/-- The memory after a unit is stored at `a` and `(a + 1) mod 2^16` (rule R31). -/
def Memory.storeUnit (m : Memory) (o : ByteOrder) (a v : Word) : Memory :=
  (m.storeByte a.toNat (lowerByte o v)).storeByte (a + 1#16).toNat (upperByte o v)

/-- The unit the cells at `a` and `(a + 1) mod 2^16` answer (rule R32). -/
def Memory.unitAnswered (m : Memory) (o : ByteOrder) (a : Word) : Word :=
  joinUnit o (m.byteAnswered a.toNat) (m.byteAnswered (a + 1#16).toNat)

/-- What the agent answers to a 2-byte read at `a` (rules R32, R45). -/
def Memory.answer2 (m : Memory) (o : ByteOrder) (a : Word) : Word :=
  match m.answers with
  | some v :: _ => v
  | _ => m.unitAnswered o a

/-- What the agent answers to a 1-byte read at `a`; a scripted answer gives its low byte. -/
def Memory.answer1 (m : Memory) (a : Word) : Byte :=
  match m.answers with
  | some v :: _ => v.extractLsb' 0 8
  | _ => m.byteAnswered a.toNat

/-- The agent after it has answered one read. -/
def Memory.afterRead (m : Memory) : Memory := { m with answers := m.answers.tail }

/-- Append one event to the port history. -/
def record (e : PortEvent) (s : State) : State := s.setTrace (s.trace ++ [e])

/-- `MemWrite(a, 2, v)` (rule R31). -/
def memWrite2 (a v : Word) (s : State) : State :=
  record (.mem (.write2 a v)) (s.setMem (s.mem.storeUnit s.cfg.byteOrder a v))

/-- The value `MemRead(a, 2)` returns (rule R32). -/
def memValue2 (a : Word) (s : State) : Word := s.mem.answer2 s.cfg.byteOrder a

/-- The machine after `MemRead(a, 2)`. -/
def memRead2 (a : Word) (s : State) : State :=
  record (.mem (.read2 a (memValue2 a s))) (s.setMem s.mem.afterRead)

/-- `MemWrite(a, 1, v)` (rule R31; POKE). -/
def memWrite1 (a : Word) (v : Byte) (s : State) : State :=
  record (.mem (.write1 a v)) (s.setMem (s.mem.storeByte a.toNat v))

/-- The value `MemRead(a, 1)` returns (rule R32; PEEK). -/
def memValue1 (a : Word) (s : State) : Byte := s.mem.answer1 a

/-- The machine after `MemRead(a, 1)`. -/
def memRead1 (a : Word) (s : State) : State :=
  record (.mem (.read1 a (memValue1 a s))) (s.setMem s.mem.afterRead)

/-! ### The PWM port (spec/42_pwm_sync.md rule R110) -/

/-- Write `PWM.PERIOD` (rule R113). -/
def pwmWritePeriod (v : Word) (s : State) : State :=
  record (.pwm (.writePeriod v)) (s.setPwm { s.pwm with period := v })

/-- Write `PWM.COMPARE` (rule R114). -/
def pwmWriteCompare (v : Word) (s : State) : State :=
  record (.pwm (.writeCompare v)) (s.setPwm { s.pwm with compare := v })

/-- Write `PWM.MODE` (rule R115). -/
def pwmWriteMode (m : PwmMode) (s : State) : State :=
  record (.pwm (.writeMode m)) (s.setPwm { s.pwm with mode := m })

/-- `pulse PWM.COUNTER_RESET` (spec/41_angle_to_duty.md rule R96): an event; the counter takes a free
value, and whether a set indicator is still set after this pulse is a free value too (log 12). -/
def pwmCounterReset (s : State) : State :=
  record (.pwm .counterReset)
    ((s.setPwm { s.pwm with
        cnt := Config.counterAfterReset s.draws
        cycleFlag := s.pwm.cycleFlag && Config.flagSurvivesReset s.draws }).setDraws (s.draws + 1))

/-- One read of the indicator (rule R116). -/
def pwmPoll (s : State) : State := record (.pwm (.poll s.pwm.cycleFlag)) s

/-- Clear the indicator (rule R117). -/
def pwmClearFlag (s : State) : State :=
  record (.pwm .clearFlag) (s.setPwm { s.pwm with cycleFlag := false })

/-! ### The report port (spec/30_encoding.md rule R61) -/

/-- Emit one output event; `none` while the host does not accept it (spec/60_exceptions.md rule
R168 (b); log 10). -/
def send (r : Report) (s : State) : Option State :=
  match s.room with
  | none => some (record (.out r) s)
  | some 0 => none
  | some (n + 1) => some (record (.out r) (s.setRoom (some n)))

/-- The report stream (spec/10_state.md rule R19): the output events of the history, in order. -/
def PortEvent.report? : PortEvent → Option Report
  | .out r => some r
  | _ => none

@[inherit_doc PortEvent.report?]
def State.reports (s : State) : List Report := s.trace.filterMap PortEvent.report?

/-- A memory transaction of the history. -/
def PortEvent.txn? : PortEvent → Option MemTxn
  | .mem t => some t
  | _ => none

/-- The memory transactions since reset, in order. -/
def State.txns (s : State) : List MemTxn := s.trace.filterMap PortEvent.txn?

/-- A PWM port action of the history. -/
def PortEvent.pwmAction? : PortEvent → Option PwmAction
  | .pwm a => some a
  | _ => none

/-- The PWM port actions since reset, in order (spec/70_reset_and_hazards.md rule R199). -/
def State.pwmActions (s : State) : List PwmAction := s.trace.filterMap PortEvent.pwmAction?

/-- `busy` (spec/30_encoding.md rule R58): `phase != IDLE`. -/
def State.busy (s : State) : Bool := decide (s.blk.phase ≠ .idle)

/-! ### Datapath registers (spec/10_state.md rule R13) -/

/-- `fail[i]`. -/
def Block.fail (b : Block) (i : Fin 2) : Bool := if i = 0 then b.fail0 else b.fail1

/-- `fail_addr[i]`. -/
def Block.failAddr (b : Block) (i : Fin 2) : Word := if i = 0 then b.failAddr0 else b.failAddr1

/-- `fail[i] <- v`. -/
def Block.setFail (b : Block) (i : Fin 2) (v : Bool) : Block :=
  if i = 0 then { b with fail0 := v } else { b with fail1 := v }

/-- `fail_addr[i] <- v`. -/
def Block.setFailAddr (b : Block) (i : Fin 2) (v : Word) : Block :=
  if i = 0 then { b with failAddr0 := v } else { b with failAddr1 := v }

/-- The result of DIAG for range `i` as the host reads it (spec/40_memory_walker.md rule R79): the
mark, and the address, which is unspecified, so a free value, while the mark is 0 (log 5). -/
def State.diagResult (s : State) (i : Fin 2) : Bool × Word :=
  (s.blk.fail i,
    if s.blk.fail i then s.blk.failAddr i
    else Config.unspecifiedFailAddr s.draws s.trace.length i)

/-- `phase <- p`. -/
def State.enter (s : State) (p : Phase) : State := s.setBlk { s.blk with phase := p }

/-- `phase <- IDLE; done` (spec/30_encoding.md rule R58): `done` is asserted once, and the model holds it
as a level until it is taken back (DESIGN CHOICE, log 34). -/
def State.finish (s : State) : State :=
  record .done (s.setBlk { s.blk with phase := .idle, done := true })

/-! ### The outside world (log 9) -/

/-- One ordinary turn of peripheral and host. The peripheral may set the indicator and never clears it
(spec/42_pwm_sync.md rule R118); the host may accept more output and type bytes. -/
def Activity.apply (a : Activity) (s : State) : State :=
  { s with
    pwm := { s.pwm with cycleFlag := a.cycleDone || s.pwm.cycleFlag, cnt := a.cnt }
    room := s.room.map (· + a.accepts)
    env := { s.env with rx := s.env.rx ++ a.typed } }

/-- The turn the outside world takes before one transaction. A reset is not taken here: it waits for
the next step (`warmReset`). -/
def worldTurn (s : State) : State :=
  match s.world with
  | .run a :: w => a.apply (s.setWorld w)
  | _ => s

/-- The next thing the outside world does is reset the block. -/
def resetNext (s : State) : Bool :=
  match s.world with
  | .reset :: _ => true
  | _ => false

/-- Reset at any time (spec/70_reset_and_hazards.md rules R180, R182): the registers as after reset,
memory, PWM port (the indicator too) and what the host holds untouched, the history empty. -/
def warmReset (s : State) : State :=
  { State.resetWith s.cfg with
    pwm := s.pwm
    mem := s.mem
    env := Env.reset s.env.rx
    room := s.room
    world := s.world.tail
    draws := s.draws }

end Sys2Proof.Machine
end

