-- ==== Sys2Proof/Machine/Operands.lean ====
section
/-! DEFINITION. The operand forms: digits, folding (spec/30_encoding.md rules R54, R55; spec/43_environment.md
rule R147), the hex codec (rule R62), the command buffer as the Line Reader sees it (rule R53), and the
addresses PEEK and POKE check. -/

namespace Sys2Proof.Machine

/-- `digit_to_value(c)` (rule R54): a hex digit's value, anything else 0, silently. -/
def digitToValue (c : Byte) : BitVec 4 :=
  if 0x30#8 ≤ c ∧ c ≤ 0x39#8 then (c - 0x30#8).setWidth 4
  else if 0x41#8 ≤ c ∧ c ≤ 0x46#8 then (c - 0x37#8).setWidth 4
  else if 0x61#8 ≤ c ∧ c ≤ 0x66#8 then (c - 0x57#8).setWidth 4
  else 0#4

/-- One step of the fold, `F <- ((F << 4) | digit) mod 2^16` (rule R55). -/
def foldDigit (f : Word) (c : Byte) : Word := (f <<< 4) ||| (digitToValue c).setWidth 16

/-- The fold of the stored characters of a line, first character most significant (rule R55). -/
def foldLine (l : Line) : Word := l.chars.foldl foldDigit 0#16

/-- One step of the 8-bit accumulator (rule R147 with W = 8). -/
def foldDigit8 (f : Byte) (c : Byte) : Byte := (f <<< 4) ||| (digitToValue c).setWidth 8

/-- POKE's address: `fold_W` zero-extended to 16 bits (rules R145, R147). -/
def foldPokeAddress (w : PokeWidth) (l : Line) : Word :=
  match w with
  | .sixteen => foldLine l
  | .eight => (l.chars.foldl foldDigit8 0#8).setWidth 16

/-- POKE's data: `fold mod 256` (rule R145). -/
def foldPokeData (l : Line) : Byte := (foldLine l).setWidth 8

/-- The character of a nibble (rule R62): `'0'` to `'9'`, `'A'` to `'F'`. -/
def hexDigit (n : BitVec 4) : Byte :=
  if n ≤ 9#4 then 0x30#8 + n.setWidth 8 else 0x37#8 + n.setWidth 8

/-- `value_to_hex_digits(v)` (rule R62): four characters, most significant nibble first. -/
def valueToHexDigits (v : Word) : List Byte :=
  [hexDigit (v.extractLsb' 12 4), hexDigit (v.extractLsb' 8 4),
   hexDigit (v.extractLsb' 4 4), hexDigit (v.extractLsb' 0 4)]

/-- The word "OK", the only literal text rule R62 fixes. -/
def okText : List Byte := [0x4F#8, 0x4B#8]

/-- The literal text of a report that the spec fixes: "OK" for RANGE_OK (rule R62). Every other text is
not in the source, and no byte of it is assumed (spec/91_not_in_source.md N5). -/
def Report.literals : Report → List (List Byte)
  | .rangeOk => [okText]
  | .bounds _ _ => []
  | .failAddr _ => []
  | .rangeFail _ _ => []
  | .angleEcho _ => []
  | .invalidSelector _ => []
  | .menu => []
  | .prompt => []
  | .peekValue _ => []
  | .pokeDone _ _ => []
  | .outOfRange => []
  | .localEcho _ => []

/-- The 16-bit values a report carries, which the environment renders with `valueToHexDigits`
(rules R61, R62). -/
def Report.values : Report → List Word
  | .bounds s e => [s, e]
  | .failAddr a => [a]
  | .rangeOk => []
  | .rangeFail s e => [s, e]
  | .angleEcho p => [p]
  | .invalidSelector b => [b]
  | .menu => []
  | .prompt => []
  | .peekValue v => [v]
  | .pokeDone v a => [v, a]
  | .outOfRange => []
  | .localEcho _ => []

/-- The pieces of a report's rendered line that rule R62 fixes: the literal text and each value as four
hex digits. The order of the pieces within the line, separators and labels are not in the source. -/
def Report.rendered (r : Report) : List (List Byte) :=
  r.literals ++ r.values.map valueToHexDigits

/-- The line being read after one more operand byte `b`, when `buf` was stored before it (rule R53): a
terminator or the MAX_CHARS-th character ends the line, and the buffer is cleared for the next. -/
def bufferStep (buf : List Byte) (b : Byte) : List Byte :=
  if (Terminator.ofByte? b).isSome ∨ buf.length + 1 = Config.maxChars then [] else buf ++ [b]

/-- The Line Reader's buffer: the stored characters of the line being read. -/
def lineBuffer (received : List Byte) : List Byte := received.foldl bufferStep []

end Sys2Proof.Machine

namespace Sys2Proof

/-- The address lies in a closed interval. -/
def Range.has (r : Range) (a : Word) : Bool := decide (r.start ≤ a ∧ a ≤ r.stop)

/-- The platform does not map the address (spec/43_environment.md rule R144). -/
def Config.isUnmapped (c : Config) (a : Word) : Bool := c.unmapped.any fun r => r.has a

/-- A read of the address has a side effect on a device (rule R144). -/
def Config.readHasSideEffect (c : Config) (a : Word) : Bool :=
  c.sideEffectReads.any fun r => r.has a

/-- POKE's bounds check (rules R145, R146): the closed safe interval or one of two whitelisted
addresses. -/
def Config.pokeAllowed (c : Config) (a : Word) : Bool :=
  decide (c.pokeSafeLo ≤ a ∧ a ≤ c.pokeSafeHi) || decide (a = c.pokeWl0) || decide (a = c.pokeWl1)

end Sys2Proof
end

