-- ==== Sys2Proof/Machine/Flags.lean ====
section
/-! DEFINITION. The three one-bit conditions of the block (spec/10_state.md rule R14) and the
comparisons that set them. -/

namespace Sys2Proof.Machine

/-- `failed` (rule R14 (a); spec/40_memory_walker.md rule R77): any of the 16 bits differs. -/
def verifyFails (rd sentinel : Word) : Bool := decide (rd ≠ sentinel)

/-- `|a - b|` on the natural numbers (spec/00_scope.md section 6; decision D15). -/
def absDiff (a b : Nat) : Nat := if b ≤ a then a - b else b - a

/-- `adopt` (rule R14 (b); spec/41_angle_to_duty.md rule R95). -/
def adopts (clamped prevDuty : Nat) : Bool := decide (Config.deadband < absDiff clamped prevDuty)

/-- The cycle-complete indicator as one poll sees it (rule R14 (c); spec/42_pwm_sync.md rule R116). -/
def cycleComplete (s : State) : Bool := s.pwm.cycleFlag

end Sys2Proof.Machine
end

