-- ==== Sys2Proof/Machine/Walker.lean ====
section
/-! DEFINITION. The memory-range walker (spec/40_memory_walker.md): what one phase of DIAG does (rules
R73 to R78), and the extent and well-formedness of the ranges (spec/20_memory.md rules R35, R36). -/

namespace Sys2Proof

/-- The last pointer value a fault-free walk visits, `start + 2 * ((end - start) div 2)` (rule R35). -/
def Range.last (r : Range) : Nat := r.start.toNat + 2 * ((r.stop.toNat - r.start.toNat) / 2)

/-- The number of units a fault-free walk visits, `(end - start) div 2 + 1` (rule R35). -/
def Range.units (r : Range) : Nat := (r.stop.toNat - r.start.toNat) / 2 + 1

/-- The byte locations a fault-free walk writes and reads, `start` to `last + 1` (rule R35). -/
def Range.touches (r : Range) (x : Nat) : Bool := decide (r.start.toNat ≤ x ∧ x ≤ r.last + 1)

/-- Rule R36 (a) and (b) for one range. -/
def Range.ok (r : Range) : Bool :=
  decide (r.start.toNat ≤ r.stop.toNat) && decide (r.stop.toNat ≤ 0xFFFD)

/-- Rule R36 (a) to (c): a configuration DIAG has a meaning for. Condition (d) is a premise about the
deployment. -/
def Config.rangesOk (c : Config) : Bool :=
  c.range0.ok && c.range1.ok &&
    (decide (c.range0.last + 1 < c.range1.start.toNat) ||
      decide (c.range1.last + 1 < c.range0.start.toNat))

/-- The byte locations DIAG may write (rules R35, R80). -/
def Config.walked (c : Config) (x : Nat) : Bool := c.range0.touches x || c.range1.touches x

end Sys2Proof

namespace Sys2Proof.Machine

/-- What one sequencer step gives: it went on, or it stands where it is (a wait, or nothing to do). -/
inductive Micro where
  | go (s : State)
  | stop (s : State)
deriving DecidableEq, Repr

/-- Emit a report and, once it is accepted, go on with `next`; until then stand where it is
(spec/60_exceptions.md rule R168 (b)). -/
def reportThen (r : Report) (next : State → State) (s : State) : Micro :=
  match send r s with
  | some s1 => .go (next s1)
  | none => .stop s

/-- The range being walked. -/
def State.walkRange (s : State) : Range := s.cfg.range s.blk.ri

/-- `D_BOUNDS` (rule R73). -/
def dBounds (s : State) : Micro :=
  reportThen (.bounds s.walkRange.start s.walkRange.stop)
    (fun s1 => s1.setBlk
      { s1.blk with failed := false, addr := s.walkRange.start, phase := .dCheck }) s

/-- `D_CHECK` (rule R74). -/
def dCheck (s : State) : Micro :=
  .go (s.enter (if s.blk.addr ≤ s.walkRange.stop then .dWrite else .dVerdict))

/-- `D_WRITE` (rule R75). -/
def dWrite (s : State) : Micro :=
  .go ((memWrite2 s.blk.addr s.cfg.sentinel s).enter .dRead)

/-- `D_READ` (rule R76). -/
def dRead (s : State) : Micro :=
  let s1 := memRead2 s.blk.addr s
  .go (s1.setBlk { s1.blk with rd := memValue2 s.blk.addr s, phase := .dCmp })

/-- `D_CMP` (rule R77): advance, or report the address of the unit (rule R82) and end this walk. -/
def dCmp (s : State) : Micro :=
  if verifyFails s.blk.rd s.cfg.sentinel then
    reportThen (.failAddr s.blk.addr)
      (fun s1 => s1.setBlk
        { s1.blk.setFailAddr s1.blk.ri s.blk.addr with failed := true, phase := .dVerdict }) s
  else
    .go (s.setBlk { s.blk with addr := s.blk.addr + 2#16, phase := .dCheck })

/-- The report of `D_VERDICT` (rule R78). -/
def State.verdict (s : State) : Report :=
  if s.blk.failed then .rangeFail s.walkRange.start s.walkRange.stop else .rangeOk

/-- `D_VERDICT` (rule R78): the range is marked first, then its verdict is reported. -/
def dVerdict (s : State) : Micro :=
  let s1 := s.setBlk (s.blk.setFail s.blk.ri s.blk.failed)
  reportThen s1.verdict
    (fun s2 =>
      if s2.blk.ri = 0 then s2.setBlk { s2.blk with ri := 1, phase := .dBounds }
      else s2.finish) s1

end Sys2Proof.Machine
end

