-- ==== Sys2Proof/Machine/Converter.lean ====
section
/-! DEFINITION. The angle-to-duty converter (spec/41_angle_to_duty.md). The arithmetic is on natural
numbers, exact (rule R100); the registers narrow at the end, and rule R100 says no width truncates. -/

namespace Sys2Proof.Machine

/-- BCD2DEC (rule R90): `h*100 + t*10 + u`; nibble 3 is not used. -/
def bcd2dec (p : Word) : Nat :=
  let u := p.toNat % 16
  let t := p.toNat / 16 % 16
  let h := p.toNat / 256 % 16
  h * 100 + t * 10 + u

/-- `prod` of SCALE (rule R92), exact. -/
def scaleProduct (deg : Nat) : Nat := deg * Config.scaleNum

/-- SCALE (rule R92): multiply, divide truncating, add the offset. -/
def scale (deg : Nat) : Nat := scaleProduct deg / Config.scaleDen + Config.dutyOffset

/-- CLAMP (rule R93). -/
def clamp (raw : Nat) : Nat :=
  if Config.hiThresh ≤ raw then Config.hiDuty
  else if raw ≤ Config.loThresh then Config.loDuty
  else raw

/-- The clamped duty of a packed operand: rules R90, R92, R93 composed (rule R94). -/
def clampedOf (p : Word) : Nat := clamp (scale (bcd2dec p))

/-- BCD2DEC into the register `deg`. -/
def bcd2decReg (s : State) : State :=
  s.setBlk { s.blk with deg := BitVec.ofNat 11 (bcd2dec s.blk.p) }

/-- SCALE into the registers `prod` and `raw`. -/
def scaleReg (s : State) : State :=
  s.setBlk { s.blk with
    prod := BitVec.ofNat 24 (scaleProduct s.blk.deg.toNat)
    raw := BitVec.ofNat 11 (scale s.blk.deg.toNat) }

/-- CLAMP into the register `clamped`. -/
def clampReg (s : State) : State :=
  s.setBlk { s.blk with clamped := BitVec.ofNat 9 (clamp s.blk.raw.toNat) }

/-- HYST (rule R95): adopt and pulse the counter reset, or hold; `duty` is `prev_duty` after that. -/
def hyst (s : State) : State :=
  if adopts s.blk.clamped.toNat s.blk.prevDuty.toNat then
    let s1 := s.setBlk { s.blk with adopt := true, prevDuty := s.blk.clamped.setWidth 16 }
    let s2 := pwmCounterReset s1
    s2.setBlk { s2.blk with duty := s2.blk.prevDuty }
  else
    s.setBlk { s.blk with adopt := false, duty := s.blk.prevDuty }

/-- `A_CONVERT` (rule R97): BCD2DEC, SCALE, CLAMP, HYST. -/
def aConvert (s : State) : Micro :=
  .go ((hyst (clampReg (scaleReg (bcd2decReg s)))).enter .aPeriod)

end Sys2Proof.Machine
end

