-- ==== Sys2Proof/Machine/PwmSync.lean ====
section
/-! DEFINITION. The PWM-cycle-complete synchronizer (spec/42_pwm_sync.md) and the confirmation echo of
ANGLE (spec/41_angle_to_duty.md rule R98). -/

namespace Sys2Proof.Machine

/-- `A_PERIOD` (rule R113): the period itself, 2500. -/
def aPeriod (s : State) : Micro := .go ((pwmWritePeriod Config.pwmPeriod s).enter .aCompare)

/-- The compare value (rule R114): `(duty + 1) mod 2^16`. -/
def compareValue (duty : Word) : Word := duty + Config.compareAdj

/-- `A_COMPARE` (rule R114). -/
def aCompare (s : State) : Micro := .go ((pwmWriteCompare (compareValue s.blk.duty) s).enter .aMode)

/-- `A_MODE` (rule R115). -/
def aMode (s : State) : Micro := .go ((pwmWriteMode .edgeAligned s).enter .aWait)

/-- `A_WAIT` (rule R116): one poll of the indicator; no timeout, no other exit. -/
def aWait (s : State) : Micro :=
  if cycleComplete s then .go ((pwmPoll s).enter .aClear) else .stop (pwmPoll s)

/-- `A_CLEAR` (rule R117). -/
def aClear (s : State) : Micro := .go ((pwmClearFlag s).enter .aEcho)

/-- `A_ECHO` (spec/41_angle_to_duty.md rule R98): all 16 bits of `P`. -/
def aEcho (s : State) : Micro := reportThen (.angleEcho s.blk.p) (fun s1 => s1.finish) s

end Sys2Proof.Machine
end

