-- ==== Sys2Proof/Machine/Sequencer.lean ====
section
/-! DEFINITION. The command port (spec/30_encoding.md rules R58, R59) and the sequencer that runs the
phases (spec/10_state.md rule R12) until the command is done or has to wait. -/

namespace Sys2Proof.Machine

/-- The command offered on the port is taken. A `done` that the environment has not taken back falls with
it: rule R58 says only that it is asserted once (DESIGN CHOICE, log 34). -/
def State.takeOffer (s : State) : State := s.setBlk { s.blk with cmdValid := false, done := false }

/-- A command offered in `IDLE` (rules R58, R59): DIAG and ANGLE start; a selector the environment
executes itself does nothing, `done` at once; any other is reported, `done` at once. -/
def acceptCommand (s : State) : Micro :=
  if s.blk.cmdSel = selDiag then
    .go (s.takeOffer.setBlk { s.takeOffer.blk with ri := 0, phase := .dBounds })
  else if s.blk.cmdSel = selAngle then
    .go (s.takeOffer.setBlk { s.takeOffer.blk with p := s.blk.cmdArg, phase := .aConvert })
  else if isSelector s.blk.cmdSel then .go s.takeOffer.finish
  else reportThen (.invalidSelector (s.blk.cmdSel.setWidth 16)) (fun s1 => s1.takeOffer.finish) s

/-- What the phase the sequencer stands in does (rule R12's table). -/
def phaseStep (s : State) : Micro :=
  match s.blk.phase with
  | .idle => if s.blk.cmdValid then acceptCommand s else .stop s
  | .dBounds => dBounds s
  | .dCheck => dCheck s
  | .dWrite => dWrite s
  | .dRead => dRead s
  | .dCmp => dCmp s
  | .dVerdict => dVerdict s
  | .aConvert => aConvert s
  | .aPeriod => aPeriod s
  | .aCompare => aCompare s
  | .aMode => aMode s
  | .aWait => aWait s
  | .aClear => aClear s
  | .aEcho => aEcho s

/-- The block is idle and nothing is offered: it waits for a command (spec/60_exceptions.md rule
R168 (d)). -/
def State.quiet (s : State) : Bool := decide (s.blk.phase = .idle) && !s.blk.cmdValid

/-- One step of the sequencer: the outside world takes its turn, then the phase acts. A pending reset
stops the sequencer between two transactions (log 23). -/
def seqStep (s : State) : Micro :=
  if s.quiet || resetNext s then .stop s else phaseStep (worldTurn s)

/-- Run the sequencer at most `n` steps, until it stands. -/
def seqRun : Nat → State → State
  | 0, s => s
  | n + 1, s =>
    match seqStep s with
    | .go s1 => seqRun n s1
    | .stop s1 => s1

/-- More steps than any command has: at most four for each of at most 2^15 units a range, and a few
(spec/40_memory_walker.md rule R83). A run cut here would go on at the next step (log 13). -/
def seqFuel : Nat := 300000

/-- The phases of DIAG. -/
def Phase.walking : Phase → Bool
  | .dBounds | .dCheck | .dWrite | .dRead | .dCmp | .dVerdict => true
  | _ => false

/-- The block is walking, or will walk next. -/
def State.walkDue (s : State) : Bool :=
  s.blk.phase.walking || (s.blk.cmdValid && decide (s.blk.cmdSel = selDiag))

/-- The environment, which waits for `done`, returns to the menu (spec/43_environment.md rule R141). That
`done` falls in this moment is the model's choice: no rule says when it is withdrawn (DESIGN CHOICE,
log 34). -/
def collectDone (s : State) : State :=
  if s.blk.done then
    (s.setBlk { s.blk with done := false }).setEnv
      { s.env with interp := .showMenu, stage := .operands }
  else s

/-- Run the block until its command is done or has to wait. A walk over ranges that are not
well-formed is refused (spec/20_memory.md rule R36). -/
def runBlock (s : State) : Host.Outcome State Fault Refusal :=
  if s.walkDue && !s.cfg.rangesOk then .refused .illFormedRanges
  else .next (collectDone (seqRun seqFuel s))

/-- Present a command to the block and wait for it (spec/43_environment.md rule R141). The transient
registers, which have no defined value at the start of a command (spec/10_state.md rule R10; open point
U7), keep what the last command left in them (DESIGN CHOICE, log 33). -/
def present (sel : Byte) (arg : Word) (s : State) : State :=
  (s.setBlk { s.blk with cmdValid := true, cmdSel := sel, cmdArg := arg }).setEnv
    { s.env with interp := .dispatch, stage := .block }

end Sys2Proof.Machine
end

