-- ==== Sys2Proof/Machine/Angle.lean ====
section
/-! DEFINITION. The meaning of ANGLE (spec/41_angle_to_duty.md rule R99). -/

namespace Sys2Proof.Machine

/-- ANGLE: the line is folded to `P` and `(0x34, P)` is presented to the block
(spec/43_environment.md rule R141); convert, PWM_SYNC, echo. -/
def execAngle (l : Line) (s : State) : Host.Outcome State Fault Refusal :=
  runBlock (present selAngle (foldLine l) s)

end Sys2Proof.Machine
end

