-- ==== Sys2Proof/Machine/Diag.lean ====
section
/-! DEFINITION. The meaning of DIAG (spec/40_memory_walker.md rule R72). -/

namespace Sys2Proof.Machine

/-- DIAG: `(0x31, -)` is presented to the block (spec/43_environment.md rule R141), which ignores
`cmd_arg` (rule R72), so the port keeps what it carried (log 26); the phases of rules R73 to R78 run. -/
def execDiag (s : State) : Host.Outcome State Fault Refusal :=
  runBlock (present selDiag s.blk.cmdArg s)

end Sys2Proof.Machine
end

