-- ==== Sys2Proof/Machine/Environment.lean ====
section
/-! DEFINITION. The handlers the environment executes itself: PEEK, POKE, EXIT
(spec/43_environment.md rules R143 to R148), and how a handler's report leaves the machine. -/

namespace Sys2Proof.Machine

/-- Send the answer of the handler; once it is accepted the interpreter shows the menu again
(rule R141), until then the thread stands here (spec/60_exceptions.md rule R168 (b)). -/
def deliver (s : State) : State :=
  match s.env.stage with
  | .answer r =>
    match send r s with
    | some s1 => s1.setEnv { s1.env with interp := .showMenu, stage := .operands }
    | none => s
  | _ => s

/-- A handler ends with the report `r`. -/
def answer (r : Report) (s : State) : State :=
  deliver (s.setEnv { s.env with interp := .dispatch, stage := .answer r })

/-- PEEK (rules R143, R144): read one byte, report it zero-extended (decision D33). -/
def execPeek (l : Line) (s : State) : Host.Outcome State Fault Refusal :=
  let a := foldLine l
  if s.cfg.isUnmapped a then .fault (.busFault a)
  else if s.cfg.readHasSideEffect a then .fault (.deviceReadEffect a)
  else
    let s1 := s.setEnv { s.env with opAddr := a }
    .next (answer (.peekValue ((memValue1 a s1).setWidth 16)) (memRead1 a s1))

/-- POKE (rules R145 to R147): bounds check, then write and `POKE_DONE`, or `OUT_OF_RANGE` and no
write. -/
def execPoke (la ld : Line) (s : State) : Host.Outcome State Fault Refusal :=
  let a := foldPokeAddress s.cfg.pokeAddrBits la
  let d := foldPokeData ld
  let s1 := s.setEnv { s.env with opAddr := a, opData := d }
  if s.cfg.pokeAllowed a then .next (answer (.pokeDone (d.setWidth 16) a) (memWrite1 a d s1))
  else .next (answer .outOfRange s1)

/-- EXIT (rule R148): the interpreter reaches its terminal state. -/
def execExit (s : State) : Host.Outcome State Fault Refusal :=
  .next (s.setEnv { s.env with interp := .exit })

end Sys2Proof.Machine
end

