-- ==== Sys2Proof/Machine/Dispatch.lean ====
section
/-! DEFINITION. One arm per command (spec/43_environment.md rule R141). -/

namespace Sys2Proof.Machine

def exec (i : Instr) (s : State) : Host.Outcome State Fault Refusal :=
  match i with
  | .diag => Sys2Proof.Machine.execDiag s
  | .peek a => Sys2Proof.Machine.execPeek a s
  | .poke a d => Sys2Proof.Machine.execPoke a d s
  | .angle a => Sys2Proof.Machine.execAngle a s
  | .exit => Sys2Proof.Machine.execExit s

end Sys2Proof.Machine
end

