-- ==== Sys2Proof/Machine/Session.lean ====
section
/-! DEFINITION. The command interpreter (spec/43_environment.md rules R138 to R142): the menu, the
selector, reading the operand lines with prompt and local echo, and handing the decoded command to
`exec`. -/

namespace Sys2Proof.Machine

/-- What reading the bytes of a command gives. -/
inductive Fetch where
  /-- The command is complete. -/
  | ready (i : Instr) (s : State)
  /-- The selector is invalid. -/
  | invalid (s : State)
  /-- The thread waits for a byte, or for the host to accept a prompt or an echo. -/
  | waits (s : State)
deriving DecidableEq, Repr

/-- The handlers of PEEK and POKE send a prompt before each line (rules R143, R145; log 19). -/
def promptsFor (sel : Byte) : Bool := decide (sel = selPeek) || decide (sel = selPoke)

/-- Only POKE echoes what is typed (rule R150). -/
def echoesFor (sel : Byte) : Bool := decide (sel = selPoke)

/-- Send the prompt of the current line if it is due; `none` while it is not accepted. -/
def sendPrompt (s : State) : Option State :=
  if promptsFor s.env.sel && !s.env.prompted then
    (send .prompt s).map fun s1 => s1.setEnv { s1.env with prompted := true }
  else some s

/-- Send the local echo of a stored character; a terminator is not echoed (rule R150; log 19). -/
def sendEcho (b : Byte) (s : State) : Option State :=
  if echoesFor s.env.sel && (Terminator.ofByte? b).isNone then send (.localEcho b) s else some s

/-- Receive one operand byte, `rest` staying on the transport; when it ends its line the next line's
prompt is due. While the host does not accept the local echo of a POKE character, the character has not
been received and stays on the transport: the spec does not say where it stands meanwhile
(DESIGN CHOICE, log 28). -/
def receiveByte (b : Byte) (rest : List Byte) (s : State) : Option State :=
  (sendEcho b s).map fun s1 =>
    s1.setEnv { s1.env with
      rx := rest
      received := s1.env.received ++ [b]
      prompted := s1.env.prompted && !(lineBuffer (s1.env.received ++ [b])).isEmpty }

/-- Read operand bytes one at a time until the selector and the bytes received are a command
(spec/30_encoding.md rules R53, R56). -/
def fetchFrom : List Byte → State → Fetch
  | [], s =>
    match decode (s.env.sel :: s.env.received) with
    | .ok (i, _) => .ready i s
    | .error (.invalidSelector _) => .invalid s
    | .error _ => .waits ((sendPrompt s).getD s)
  | b :: rest, s =>
    match decode (s.env.sel :: s.env.received) with
    | .ok (i, _) => .ready i s
    | .error (.invalidSelector _) => .invalid s
    | .error _ =>
      match sendPrompt s with
      | none => .waits s
      | some s1 =>
        match receiveByte b rest s1 with
        | none => .waits s1
        | some s2 => fetchFrom rest s2

/-- Read the command's bytes from the transport. -/
def fetchCommand (s : State) : Fetch := fetchFrom s.env.rx s

/-- `ShowMenu` (rules R138, R139): the banner is sent unconditionally, then the selector is awaited. -/
def showMenu (s : State) : State :=
  match send .menu s with
  | some s1 => s1.setEnv { s1.env with interp := .awaitSelector }
  | none => s

/-- `sel <- receive(); go to Dispatch` (rule R138), with the command buffer cleared. -/
def takeSelector (b : Byte) (rest : List Byte) (s : State) : State :=
  s.setEnv { s.env with
    interp := .dispatch
    stage := .operands
    sel := b
    received := []
    prompted := false
    rx := rest }

/-- `Dispatch` while operands are read (rule R141); an invalid selector is reported and nothing else
happens (rule R142). -/
def dispatch (s : State) : Host.Outcome State Fault Refusal :=
  match fetchCommand s with
  | .ready i s1 => exec i s1
  | .invalid s1 => .next (answer (.invalidSelector (s1.env.sel.setWidth 16)) s1)
  | .waits s1 => .next s1

/-- `AwaitSelector` (rule R140): exactly one byte; without one the thread waits (rule R131). -/
def awaitSelector (s : State) : Host.Outcome State Fault Refusal :=
  match s.env.rx with
  | [] => .next s
  | b :: rest => dispatch (takeSelector b rest s)

/-- One step of the session's single thread. The outside world takes one turn before it; while the
block runs, `seqStep` gives the outside world its turns instead (log 9). -/
def sessionStep (s : State) : Host.Outcome State Fault Refusal :=
  match s.env.interp with
  | .showMenu => .next (showMenu (worldTurn s))
  | .awaitSelector => awaitSelector (worldTurn s)
  | .dispatch =>
    match s.env.stage with
    | .operands => dispatch (worldTurn s)
    | .block => runBlock s
    | .answer _ => .next (deliver (worldTurn s))
  | .exit => .refused .sessionOver

/-- Put a command's bytes where the next step reads its command: first on the transport, with the
interpreter awaiting a selector, the block idle, no reset due first, and the host accepting the prompts
and echoes that reading the operands sends. -/
def typeNext (bs : List Byte) (s : State) : State :=
  { s with
    env := { s.env with interp := .awaitSelector, stage := .operands, rx := bs ++ s.env.rx }
    blk := { s.blk with phase := .idle, cmdValid := false, done := false }
    world := s.world.dropWhile fun t => decide (t = .reset)
    room := none }

end Sys2Proof.Machine
end

