-- ==== Sys2Proof/Machine/Step.lean ====
section
/-! DEFINITION. One step of the machine: a pending reset, or one step of the session. -/

namespace Sys2Proof.Machine

/-- One step. A step that finds the bytes of a whole command runs it to its end, or to the first place
where spec/60_exceptions.md rule R168 lets it wait (log 13, log 14). -/
def step (s : State) : Host.Outcome State Fault Refusal :=
  if resetNext s then .next (warmReset s) else sessionStep s

/-- `s` with the bytes of an opcode-table word typed as the next command (log 24): what an operator
does.
What `typeNext` sets is what this takes: the very next step runs that command. -/
def State.withFetchWord (s : State) (nbits w : Nat) : State :=
  typeNext (tableCommandBytes nbits w) s

end Sys2Proof.Machine
end

