-- ==== Sys2Proof/Safety.lean ====
section
/-! DEFINITION. The terms claims are stated in: the named premises of the spec (FaultFree, PwmLive,
HostLive and no reset), the sets of spec/10_state.md rule R26 and spec/41_angle_to_duty.md rule R94, the pseudocode
of DIAG as it stands in spec/40_memory_walker.md rule R72, and the invariants of the machine. -/

namespace Sys2Proof.Machine

/-! ### Premises -/

/-- The block waits in `IDLE` with nothing offered (spec/60_exceptions.md rule R168 (d)); every command
of a session starts so (`SessionInv`). -/
abbrev State.atRest (s : State) : Prop :=
  s.blk.phase = .idle ∧ s.blk.cmdValid = false ∧ s.blk.done = false

/-- HostLive in its plainest form (rule R168): the host accepts every output event. -/
abbrev State.hostAccepts (s : State) : Prop := s.room = none

/-- The block is not reset meanwhile. -/
abbrev State.noReset (s : State) : Prop := Turn.reset ∉ s.world

/-- The turn completes a PWM cycle. -/
def Turn.cycles : Turn → Bool
  | .run a => a.cycleDone
  | .reset => false

/-- No PWM cycle completes meanwhile: the indicator is not set (rule R168 (a); open point U12). -/
abbrev State.noCycle (s : State) : Prop := ∀ t ∈ s.world, t.cycles = false

/-- `PwmLive` (spec/42_pwm_sync.md rule R118 (c)): if the block stays in `A_WAIT`, the peripheral
eventually sets the indicator. The world script is finite and silent after its end, so this says that the
indicator is set already or a cycle completes in some turn that is still to come. -/
abbrev State.PwmLive (s : State) : Prop :=
  s.pwm.cycleFlag = true ∨ ∃ t ∈ s.world, t.cycles = true

/-- What an ANGLE that starts in `s` finds when it first polls the indicator. It takes six steps to that
poll, the outside world taking a turn before each, and an adopting command pulses the counter reset in the
second: a cycle completed in turns 3 to 6 is seen, and what was set before them is seen unless the pulse
of an adopting command has cleared it (a free value: log 12). -/
def State.indicatorAtPoll (s : State) (adopt : Bool) : Bool :=
  ((s.world.take 6).drop 2).any Turn.cycles ||
    (((s.world.take 2).any Turn.cycles || s.pwm.cycleFlag) &&
      (!adopt || Config.flagSurvivesReset s.draws))

/-- `FaultFree(M)` (spec/20_memory.md rule R45): every read returns what was written. -/
abbrev Memory.FaultFree (m : Memory) : Prop := m.stuck = [] ∧ ∀ a ∈ m.answers, a = none

/-- The attainable set `{90} ∪ [126, 248] ∪ {320}` (spec/41_angle_to_duty.md rule R94). -/
abbrev Attainable (d : Nat) : Prop := d = 90 ∨ (126 ≤ d ∧ d ≤ 248) ∨ d = 320

/-- The constraint on PREV_DUTY_RESET (spec/10_state.md rule R26): attainable, or outside
`[87, 93] ∪ [123, 251] ∪ [317, 323]`. -/
abbrev PrevDutyResetOk (r : Word) : Prop :=
  Attainable r.toNat ∨
    ¬ ((87 ≤ r.toNat ∧ r.toNat ≤ 93) ∨ (123 ≤ r.toNat ∧ r.toNat ≤ 251) ∨
       (317 ≤ r.toNat ∧ r.toNat ≤ 323))

/-! ### DIAG as rule R72 writes it -/

/-- `report FAIL_ADDR(addr); fail_addr[ri] <- addr; failed <- 1`. -/
def pseudoFail (i : Fin 2) (s : State) : State :=
  let s1 := record (.out (.failAddr s.blk.addr)) s
  s1.setBlk { s1.blk.setFailAddr i s.blk.addr with failed := true }

/-- The `while` loop of rule R72 for range `i`, at most `n` rounds. -/
def pseudoWalk : Nat → Fin 2 → State → State
  | 0, _, s => s
  | n + 1, i, s =>
    if s.blk.addr ≤ (s.cfg.range i).stop then
      let s1 := memWrite2 s.blk.addr s.cfg.sentinel s
      let s2 := (memRead2 s.blk.addr s1)
      let s3 := s2.setBlk { s2.blk with rd := memValue2 s.blk.addr s1 }
      if s3.blk.rd ≠ s3.cfg.sentinel then pseudoFail i s3
      else pseudoWalk n i (s3.setBlk { s3.blk with addr := s3.blk.addr + 2#16 })
    else s

/-- The body of rule R72's `for` loop: bounds, walk, verdict. -/
def pseudoRange (i : Fin 2) (s : State) : State :=
  let r := s.cfg.range i
  let s1 := record (.out (.bounds r.start r.stop)) s
  let s2 := s1.setBlk { s1.blk with ri := i, failed := false, addr := r.start }
  let s3 := pseudoWalk r.units i s2
  let s4 := s3.setBlk (s3.blk.setFail i s3.blk.failed)
  record (.out (if s4.blk.failed then .rangeFail r.start r.stop else .rangeOk)) s4

/-- `DIAG()` of rule R72, without its `done`. -/
def pseudoDiag (s : State) : State := pseudoRange 1 (pseudoRange 0 s)

/-- The reports of one range (spec/40_memory_walker.md rule R81): `o` is the failing address, if any. -/
def rangeReports (r : Range) : Option Word → List Report
  | none => [.bounds r.start r.stop, .rangeOk]
  | some a => [.bounds r.start r.stop, .failAddr a, .rangeFail r.start r.stop]

/-- The memory transactions of a walk from `a` that reads back `vs`: write, then read, of the same
unit, at rising addresses (spec/20_memory.md rule R41 (a), (b)). -/
def walkTxns (sentinel : Word) : Word → List Word → List MemTxn
  | _, [] => []
  | a, v :: vs => .write2 a sentinel :: .read2 a v :: walkTxns sentinel (a + 2#16) vs

/-- The sentinel's byte at location `x` of a unit walk that starts at `start` (rules R31, R80). -/
def sentinelByte (c : Config) (start x : Nat) : Byte :=
  if (x - start) % 2 = 0 then lowerByte c.byteOrder c.sentinel else upperByte c.byteOrder c.sentinel

/-! ### Reading a command -/

/-- The operand bytes of a command. -/
def operandBytes (i : Instr) : List Byte := (encode i).drop 1

/-- The output events the line reader sends while it reads a POKE line: the prompt, and each stored
character (spec/43_environment.md rules R145, R150). -/
def echoedLine (l : Line) : List PortEvent :=
  .out .prompt :: l.chars.map fun c => .out (.localEcho c)

/-- The output events sent while the operands of a command are read. -/
def transcript : Instr → List PortEvent
  | .diag => []
  | .peek _ => [.out .prompt]
  | .poke a d => echoedLine a ++ echoedLine d
  | .angle _ => []
  | .exit => []

/-- The machine when the command `i` has been read and `rest` stays on the transport. -/
def afterReading (i : Instr) (rest : List Byte) (s : State) : State :=
  { s with
    env := { s.env with
      interp := .dispatch
      stage := .operands
      sel := (encode i).headD 0#8
      received := operandBytes i
      prompted := false
      rx := rest }
    trace := s.trace ++ transcript i }

/-- The prompt that is due before the next operand byte (spec/43_environment.md rules R143, R145). -/
def State.promptDue (s : State) : List PortEvent :=
  if (s.env.sel = 0x32#8 ∨ s.env.sel = 0x33#8) ∧ s.env.prompted = false then [.out .prompt] else []

/-- The events sent while the operand bytes `bs` of a POKE arrive after `received`: every stored
character is echoed as it is received (rule R150; a terminator is not: log 19), and when the address line
has ended the prompt of the data line is sent (rule R145). -/
def pokeEvents (received : List Byte) : List Byte → List PortEvent
  | [] => []
  | b :: bs =>
    (if b = 0x0A#8 ∨ b = 0x0D#8 then [] else [.out (.localEcho b)]) ++
      (if lineBuffer (received ++ [b]) = [] ∧
          decode (selPoke :: (received ++ [b])) = .error .lineUnfinished then [.out .prompt] else []) ++
      pokeEvents (received ++ [b]) bs

/-- The machine when the operand bytes `bs` have arrived after what was received before, and `rest` stays
on the transport; `prompted` says whether the prompt of the line that is read next has been sent. -/
def State.afterBytes (bs rest : List Byte) (prompted : Bool) (s : State) : State :=
  { s with
    env := { s.env with received := s.env.received ++ bs, prompted := prompted, rx := rest }
    trace := s.trace ++ s.promptDue ++
      (if s.env.sel = 0x33#8 then pokeEvents s.env.received bs else []) }

/-! ### Invariants -/

/-- The single thread (spec/30_encoding.md rule R58; spec/43_environment.md rule R138): while the
environment waits for the block, the block has exactly one command, offered or running; otherwise it
is at rest. -/
def SessionInv (s : State) : Prop :=
  if s.env.interp = .dispatch ∧ s.env.stage = .block then
    s.blk.done = false ∧
      ((s.blk.phase = .idle ∧ s.blk.cmdValid = true ∧
          (s.blk.cmdSel = selDiag ∨ s.blk.cmdSel = selAngle)) ∨
        (s.blk.phase ≠ .idle ∧ s.blk.cmdValid = false))
  else s.atRest

/-- The phases of one unit's round (spec/40_memory_walker.md rules R74 to R77). -/
def Phase.inLoop : Phase → Bool
  | .dCheck | .dWrite | .dRead | .dCmp => true
  | _ => false

/-- The phases after the loop test has passed (rules R75 to R77). -/
def Phase.inBody : Phase → Bool
  | .dWrite | .dRead | .dCmp => true
  | _ => false

/-- The walk pointer: while a walk runs on well-formed ranges it is at an even distance from the range's
start (spec/20_memory.md rule R34), never past `end + 2`, and inside the range while a unit is written,
read and compared (rules R35, R74). -/
def WalkInv (s : State) : Prop :=
  s.blk.phase.inLoop = true → s.cfg.rangesOk = true →
    s.walkRange.start.toNat ≤ s.blk.addr.toNat ∧
    (s.blk.addr.toNat - s.walkRange.start.toNat) % 2 = 0 ∧
    s.blk.addr.toNat ≤ s.walkRange.stop.toNat + 2 ∧
    (s.blk.phase.inBody = true → s.blk.addr.toNat ≤ s.walkRange.stop.toNat)

/-- The phases of ANGLE after the conversion. -/
def Phase.syncing : Phase → Bool
  | .aPeriod | .aCompare | .aMode | .aWait | .aClear | .aEcho => true
  | _ => false

/-- The phases of ANGLE. -/
def Phase.converting : Phase → Bool
  | .aConvert => true
  | p => p.syncing

/-- An ANGLE is running, or is offered and will run next. -/
def State.angleDue (s : State) : Bool :=
  s.blk.phase.converting || (s.blk.cmdValid && decide (s.blk.cmdSel = selAngle))

/-- How many of PERIOD, COMPARE and MODE, in this order, a running ANGLE has written
(spec/42_pwm_sync.md rule R111). -/
def Phase.written : Phase → Nat
  | .aCompare => 1
  | .aMode => 2
  | .aWait | .aClear | .aEcho => 3
  | _ => 0

/-- What spec/42_pwm_sync.md rules R113 to R115 have written stands while the ANGLE that wrote it runs,
and its duty is `prev_duty` (spec/41_angle_to_duty.md rule R95). -/
def PortInv (s : State) : Prop :=
  (s.blk.phase.syncing = true → s.blk.duty = s.blk.prevDuty) ∧
    (1 ≤ s.blk.phase.written → s.pwm.period = 2500#16) ∧
    (2 ≤ s.blk.phase.written → s.pwm.compare = s.blk.prevDuty + 1#16) ∧
    (3 ≤ s.blk.phase.written → s.pwm.mode = .edgeAligned)

/-- A port event that keeps the promise of spec/42_pwm_sync.md rule R114: a compare value is the
successor of an attainable duty. -/
def comparePromise : PortEvent → Prop
  | .pwm (.writeCompare v) => Attainable (v.toNat - 1)
  | _ => True

/-- The event writes the compare register. -/
def PortEvent.writesCompare : PortEvent → Bool
  | .pwm (.writeCompare _) => true
  | _ => false

/-- Rules R26 and R97: `prev_duty` is attainable or still its reset value, the duty handed to PWM_SYNC
is attainable, and so was every duty ever programmed. -/
def DutyInv (s : State) : Prop :=
  PrevDutyResetOk s.cfg.prevDutyReset ∧
    (Attainable s.blk.prevDuty.toNat ∨ s.blk.prevDuty = s.cfg.prevDutyReset) ∧
    (s.blk.phase.syncing = true → Attainable s.blk.duty.toNat ∧ s.blk.duty = s.blk.prevDuty) ∧
    ∀ e ∈ s.trace, comparePromise e

end Sys2Proof.Machine
end

