-- ==== Sys2Proof/Certificates/Slice0/Obligations.lean ====
section
/-! DEFINITION. The statements for the provers. Each docstring names the rule of spec/ it formalises;
`∀ s : State` quantifies over every configuration (it is part of the state, log 1), every memory
agent, every world script and every history. -/

open Sys2Proof Sys2Proof.Machine

/-! ### Encoding (spec/30_encoding.md) -/

/-- Rules R51 to R53: what is typed for a well-formed command is read back as that command, every
character and terminator kept, and nothing after it is consumed. -/
def Obligations.DecodeEncodeRoundTrip : Prop :=
  ∀ (i : Instr) (rest : List Byte), i.wf = true → decode (encode i ++ rest) = .ok (i, rest)

/-- Rules R51 to R53, the other direction: a decoded command is well-formed, and its encoding is
exactly the bytes that were consumed. -/
def Obligations.DecodedBytesAreTheEncoding : Prop :=
  ∀ (bs : List Byte) (i : Instr) (rest : List Byte), decode bs = .ok (i, rest) →
    i.wf = true ∧ encode i ++ rest = bs

/-- Rule R56: how many bytes a command of each format consumes. -/
def Obligations.CommandLengthsByFormat : Prop :=
  ∀ (bs : List Byte) (i : Instr) (rest : List Byte), decode bs = .ok (i, rest) →
    match i with
    | .diag | .exit => bs.length = rest.length + 1
    | .peek _ | .angle _ => rest.length + 2 ≤ bs.length ∧ bs.length ≤ rest.length + 5
    | .poke _ _ => rest.length + 3 ≤ bs.length ∧ bs.length ≤ rest.length + 9

/-- Rules R52, R57: exactly the bytes 0x31 to 0x35 select a command; the other 251 are rejected by
name, whatever follows. -/
def Obligations.OtherSelectorsRejectedByName : Prop :=
  (∀ (b : Byte) (rest : List Byte), (b.toNat < 0x31 ∨ 0x35 < b.toNat) ↔
      decode (b :: rest) = .error (.invalidSelector b)) ∧
  ((List.range 256).filter fun n => !isSelector (BitVec.ofNat 8 n)).length = 251

/-- A few commands written out byte by byte from rules R51 to R53 (a sanity statement). -/
def Obligations.TypedCommandsDecode : Prop :=
  decode [0x31#8] = .ok (.diag, []) ∧
  decode [0x32#8, 0x30#8, 0x30#8, 0x38#8, 0x34#8] =
    .ok (.peek ⟨[0x30#8, 0x30#8, 0x38#8, 0x34#8], none⟩, []) ∧
  decode [0x33#8, 0x30#8, 0x30#8, 0x30#8, 0x31#8, 0x37#8, 0x46#8, 0x0D#8] =
    .ok (.poke ⟨[0x30#8, 0x30#8, 0x30#8, 0x31#8], none⟩ ⟨[0x37#8, 0x46#8], some .cr⟩, []) ∧
  decode [0x34#8, 0x30#8, 0x39#8, 0x30#8, 0x0D#8] =
    .ok (.angle ⟨[0x30#8, 0x39#8, 0x30#8], some .cr⟩, []) ∧
  decode [0x34#8, 0x0A#8, 0x35#8] = .ok (.angle ⟨[], some .lf⟩, [0x35#8]) ∧
  decode [0x35#8] = .ok (.exit, [])

/-- Rule R54, code by code. -/
def Obligations.DigitValuesByCode : Prop :=
  ∀ c : Byte, (digitToValue c).toNat =
    if 0x30 ≤ c.toNat ∧ c.toNat ≤ 0x39 then c.toNat - 0x30
    else if 0x41 ≤ c.toNat ∧ c.toNat ≤ 0x46 then c.toNat - 0x41 + 10
    else if 0x61 ≤ c.toNat ∧ c.toNat ≤ 0x66 then c.toNat - 0x61 + 10
    else 0

/-- Rule R55: with at most 4 characters the fold discards no bit, `F` is the sum of
`digit_to_value(c[i]) * 16^(k-1-i)`; an empty line folds to 0. -/
def Obligations.FoldIsPositional : Prop :=
  ∀ l : Line, l.chars.length ≤ 4 →
    (foldLine l).toNat =
      ∑ i ∈ Finset.range l.chars.length,
        (digitToValue (l.chars.getD i 0#8)).toNat * 16 ^ (l.chars.length - 1 - i)

/-- Rule R63 with rule R62: the four characters a value is rendered as are upper-case hex digits, they
are a full operand line, and folding them gives the value back. -/
def Obligations.HexRoundTrip : Prop :=
  ∀ v : Word,
    (valueToHexDigits v).length = 4 ∧
    (∀ c ∈ valueToHexDigits v,
      (0x30 ≤ c.toNat ∧ c.toNat ≤ 0x39) ∨ (0x41 ≤ c.toNat ∧ c.toNat ≤ 0x46)) ∧
    (∀ rest, readLine (valueToHexDigits v ++ rest) = some (⟨valueToHexDigits v, none⟩, rest)) ∧
    foldLine ⟨valueToHexDigits v, none⟩ = v

/-- Rule R62: each nibble of a value is rendered as its upper-case hex digit, most significant nibble
first; a report's values are all rendered so, and RANGE_OK alone has a literal text, "OK". The list
follows the report's own fields; the order within a rendered line is not in the source. -/
def Obligations.ReportsRenderAsTheRuleSays : Prop :=
  (∀ v : Word, valueToHexDigits v = [12, 8, 4, 0].map fun k =>
    let n := v.toNat / 2 ^ k % 16
    if n ≤ 9 then BitVec.ofNat 8 (0x30 + n) else BitVec.ofNat 8 (0x41 + (n - 10))) ∧
  Report.rendered .rangeOk = [[0x4F#8, 0x4B#8]] ∧
  ∀ r : Report, r ≠ .rangeOk → r.rendered = r.values.map valueToHexDigits

/-- Rule R147: with the 8-bit accumulator only the last two stored characters survive, zero-extended;
with the 16-bit one the address is the fold. -/
def Obligations.PokeAddressWidth : Prop :=
  ∀ l : Line, foldPokeAddress .sixteen l = foldLine l ∧
    (foldPokeAddress .eight l).toNat = (foldLine l).toNat % 256 ∧
    foldPokeAddress .eight l = foldPokeAddress .eight ⟨l.chars.drop (l.chars.length - 2), l.ended⟩

/-! ### The converter (spec/41_angle_to_duty.md) -/

/-- Rules R90, R92, R93, R95, R96: what `A_CONVERT` leaves in every register, from the rules' own
formulas, for every 16-bit operand and every `prev_duty` (and CLAMP alone, for every `raw`); no register
width truncates (rule R100); the counter is reset exactly when the comparator adopts; nothing is read,
written or reported. -/
def Obligations.ConvertFollowsTheRules : Prop :=
  (∀ raw : Nat, clamp raw = if 249 ≤ raw then 320 else if raw ≤ 125 then 90 else raw) ∧
  ∀ s : State, ∃ t : State, aConvert s = .go t ∧
    (let p := s.blk.p.toNat
     let deg := p / 256 % 16 * 100 + p / 16 % 16 * 10 + p % 16
     let prod := deg * 6944
     let raw := prod / 10000 + 125
     let clamped := if 249 ≤ raw then 320 else if raw ≤ 125 then 90 else raw
     let prev := s.blk.prevDuty.toNat
     let diff := if prev ≤ clamped then clamped - prev else prev - clamped
     t.blk.deg.toNat = deg ∧ t.blk.prod.toNat = prod ∧ t.blk.raw.toNat = raw ∧
     t.blk.clamped.toNat = clamped ∧ t.blk.adopt = decide (3 < diff) ∧
     t.blk.prevDuty.toNat = (if 3 < diff then clamped else prev) ∧
     t.blk.duty = t.blk.prevDuty ∧ t.blk.phase = .aPeriod ∧
     t.trace = s.trace ++ (if 3 < diff then [.pwm .counterReset] else [])) ∧
    t.mem = s.mem ∧ t.env = s.env ∧ t.cfg = s.cfg ∧ t.blk.p = s.blk.p ∧
    t.pwm.period = s.pwm.period ∧ t.pwm.compare = s.pwm.compare ∧ t.pwm.mode = s.pwm.mode

/-- Rule R94: the composed map from `deg` to `clamped`, and that every value from 126 to 248 is taken. -/
def Obligations.ClampedDutyByDegrees : Prop :=
  (∀ p : Word,
    (bcd2dec p ≤ 1 → scale (bcd2dec p) = 125 ∧ clampedOf p = 90) ∧
    (2 ≤ bcd2dec p → bcd2dec p ≤ 178 →
      126 ≤ scale (bcd2dec p) ∧ scale (bcd2dec p) ≤ 248 ∧ clampedOf p = scale (bcd2dec p)) ∧
    (179 ≤ bcd2dec p →
      249 ≤ scale (bcd2dec p) ∧ scale (bcd2dec p) ≤ 1281 ∧ clampedOf p = 320) ∧
    bcd2dec p ≤ 1665) ∧
  ∀ d : Nat, Attainable d ↔ ∃ p : Word, clampedOf p = d

/-- Rule R97: the conversion is the composition (`clampedOf` composes BCD2DEC, SCALE and CLAMP), total,
touches no memory and reports nothing, depends on `P[11:0]` only for the clamped duty, and hands on an
attainable duty whenever `prev_duty` is attainable or a reset value that rule R26 allows. -/
def Obligations.ConvertKeepsAttainable : Prop :=
  (∀ p q : Word, p.extractLsb' 0 12 = q.extractLsb' 0 12 → clampedOf p = clampedOf q) ∧
  ∀ s : State, ∃ t : State, aConvert s = .go t ∧
    t.blk.adopt = adopts (clampedOf s.blk.p) s.blk.prevDuty.toNat ∧
    t.blk.prevDuty = (if t.blk.adopt then BitVec.ofNat 16 (clampedOf s.blk.p) else s.blk.prevDuty) ∧
    t.blk.duty = t.blk.prevDuty ∧
    t.mem = s.mem ∧ t.txns = s.txns ∧ t.reports = s.reports ∧
    (PrevDutyResetOk s.blk.prevDuty →
      Attainable t.blk.prevDuty.toNat ∧ Attainable t.blk.duty.toNat)

/-! ### PWM_SYNC (spec/42_pwm_sync.md) -/

/-- Rules R113, R114, R115, R117: the value each phase writes and the phase it goes to, everything else
unchanged. -/
def Obligations.PwmPhasesWriteTheirRegister : Prop :=
  ∀ s : State,
    aPeriod s = .go { s with
      pwm := { s.pwm with period := 2500#16 }, blk := { s.blk with phase := .aCompare }
      trace := s.trace ++ [.pwm (.writePeriod 2500#16)] } ∧
    aCompare s = .go { s with
      pwm := { s.pwm with compare := s.blk.duty + 1#16 }, blk := { s.blk with phase := .aMode }
      trace := s.trace ++ [.pwm (.writeCompare (s.blk.duty + 1#16))] } ∧
    aMode s = .go { s with
      pwm := { s.pwm with mode := .edgeAligned }, blk := { s.blk with phase := .aWait }
      trace := s.trace ++ [.pwm (.writeMode .edgeAligned)] } ∧
    aClear s = .go { s with
      pwm := { s.pwm with cycleFlag := false }, blk := { s.blk with phase := .aEcho }
      trace := s.trace ++ [.pwm .clearFlag] }

/-- Rule R116 and vector V-P2: the wait ends exactly when the indicator is set; until then the sequencer
stands in `A_WAIT` and only the poll is seen. That each poll is recorded, and that a wait is a stop which
appends `poll false` to the history, is the model's choice (log 14). -/
def Obligations.WaitIsOnTheIndicator : Prop :=
  ∀ s : State,
    (s.pwm.cycleFlag = true → aWait s = .go { s with
      blk := { s.blk with phase := .aClear }, trace := s.trace ++ [.pwm (.poll true)] }) ∧
    (s.pwm.cycleFlag = false → aWait s = .stop { s with trace := s.trace ++ [.pwm (.poll false)] })

/-- Rules R99, R98, R111: ANGLE that finds the indicator set at its first poll (a cycle has completed
meanwhile, or the stale indicator of rule R190) runs to its end: convert, three register writes, one poll,
clear, echo, done, and the menu is next. Whether a stale indicator survives the pulse of an adopting
command is a free value (log 12); where it does not, `AngleStandsWhileNoCycleCompletes` says what
happens. Two more are the model's choice: the recorded poll (log 14), and `done = 0` after the command,
a clause of `t.atRest` (log 34). -/
def Obligations.AngleCompletes : Prop :=
  ∀ (l : Line) (s : State), s.atRest → s.hostAccepts → s.noReset →
    s.indicatorAtPoll (adopts (clampedOf (foldLine l)) s.blk.prevDuty.toNat) = true →
    let adopt := adopts (clampedOf (foldLine l)) s.blk.prevDuty.toNat
    let prev := if adopt then BitVec.ofNat 16 (clampedOf (foldLine l)) else s.blk.prevDuty
    ∃ t : State, exec (.angle l) s = .next t ∧
      t.blk.p = foldLine l ∧ t.blk.prevDuty = prev ∧ t.blk.duty = prev ∧ t.blk.adopt = adopt ∧
      t.pwm.period = 2500#16 ∧ t.pwm.compare = prev + 1#16 ∧ t.pwm.mode = .edgeAligned ∧
      t.trace = s.trace ++ (if adopt then [.pwm .counterReset] else []) ++
        [.pwm (.writePeriod 2500#16), .pwm (.writeCompare (prev + 1#16)),
          .pwm (.writeMode .edgeAligned), .pwm (.poll true), .pwm .clearFlag,
          .out (.angleEcho (foldLine l)), .done] ∧
      t.mem = s.mem ∧ t.cfg = s.cfg ∧ t.atRest ∧ t.hostAccepts ∧
      t.env.interp = .showMenu ∧ t.env.stage = .operands

/-- Rules R116, R168 (a), U12: ANGLE that finds the indicator clear at its first poll has programmed the
port and stands in `A_WAIT` with no echo; the environment goes on waiting (the recorded poll is the
model's: log 14). With `AngleCompletes` this is every ANGLE from rest that no reset cuts short, for every
free value of log 12. The last clause: without a cycle completed meanwhile a clear indicator is found
clear. -/
def Obligations.AngleStandsWhileNoCycleCompletes : Prop :=
  (∀ (l : Line) (s : State), s.atRest → s.noReset →
    s.indicatorAtPoll (adopts (clampedOf (foldLine l)) s.blk.prevDuty.toNat) = false →
    let adopt := adopts (clampedOf (foldLine l)) s.blk.prevDuty.toNat
    let prev := if adopt then BitVec.ofNat 16 (clampedOf (foldLine l)) else s.blk.prevDuty
    ∃ t : State, exec (.angle l) s = .next t ∧
      t.blk.phase = .aWait ∧ t.blk.prevDuty = prev ∧ t.blk.duty = prev ∧ t.blk.p = foldLine l ∧
      t.pwm.period = 2500#16 ∧ t.pwm.compare = prev + 1#16 ∧ t.pwm.mode = .edgeAligned ∧
      t.pwm.cycleFlag = false ∧
      t.trace = s.trace ++ (if adopt then [.pwm .counterReset] else []) ++
        [.pwm (.writePeriod 2500#16), .pwm (.writeCompare (prev + 1#16)),
          .pwm (.writeMode .edgeAligned), .pwm (.poll false)] ∧
      t.mem = s.mem ∧ t.env.interp = .dispatch ∧ t.env.stage = .block) ∧
  ∀ (s : State) (adopt : Bool), s.noCycle → s.pwm.cycleFlag = false → s.indicatorAtPoll adopt = false

/-- Rules R116, R118 (c), R120: an ANGLE that stands in `A_WAIT` goes on polling, one poll a step, and
completes in the step whose turn completes a cycle; `quiet` are the turns before it. `SessionInv` is the
invariant of `StepKeepsTheSingleThread`; that a wait is a next state with a recorded poll is the model's
choice (log 14), and so is that `done` has been taken back when the menu is next (log 34). -/
def Obligations.WaitEndsWithTheCycle : Prop :=
  ∀ (s : State) (quiet : List Activity) (a : Activity) (rest : List Turn),
    s.blk.phase = .aWait → SessionInv s → s.hostAccepts → s.pwm.cycleFlag = false →
    (∀ q ∈ quiet, q.cycleDone = false) → a.cycleDone = true → Turn.reset ∉ rest →
    s.world = quiet.map Turn.run ++ Turn.run a :: rest →
    ∃ t : State, Host.Core.run Sys2Proof.core (quiet.length + 1) s = .next t ∧
      t.trace = s.trace ++ List.replicate quiet.length (.pwm (.poll false)) ++
        [.pwm (.poll true), .pwm .clearFlag, .out (.angleEcho s.blk.p), .done] ∧
      t.blk.phase = .idle ∧ t.blk.done = false ∧ t.env.interp = .showMenu ∧
      t.blk.prevDuty = s.blk.prevDuty ∧ t.mem = s.mem ∧ t.pwm.compare = s.pwm.compare

/-- Rules R118 (c), R168 (a): an ANGLE that stands in `A_WAIT` completes under the premise `PwmLive`, and
without it polls for ever. The recorded polls are the model's choice (log 14), and so is the finite world
script, silent after its end, over which `PwmLive` is written and which gives the bound on `k` (log 9);
that `done` has been taken back when the menu is next is too (log 34). -/
def Obligations.PwmLiveDecidesTheWait : Prop :=
  ∀ s : State, s.blk.phase = .aWait → SessionInv s → s.noReset →
    (s.PwmLive → s.hostAccepts → ∃ (k : Nat) (t : State), k ≤ s.world.length ∧
      Host.Core.run Sys2Proof.core (k + 1) s = .next t ∧
      t.trace = s.trace ++ List.replicate k (.pwm (.poll false)) ++
        [.pwm (.poll true), .pwm .clearFlag, .out (.angleEcho s.blk.p), .done] ∧
      t.blk.phase = .idle ∧ t.blk.done = false ∧ t.env.interp = .showMenu ∧
      t.blk.prevDuty = s.blk.prevDuty ∧ t.mem = s.mem ∧ t.pwm.compare = s.pwm.compare) ∧
    (¬ s.PwmLive → ∀ n : Nat, ∃ t : State, Host.Core.run Sys2Proof.core n s = .next t ∧
      t.trace = s.trace ++ List.replicate n (.pwm (.poll false)) ∧
      t.blk = s.blk ∧ t.mem = s.mem ∧ t.env.interp = .dispatch ∧ t.env.stage = .block)

/-- Rule R119: after any ANGLE PERIOD is 2500, COMPARE is `prev_duty + 1` and MODE is edge-aligned;
COMPARE is written once, and when it agreed with `prev_duty` before, it changes only in a command that
adopts. First for an ANGLE from rest that has run to its end or stands in `A_WAIT` or after it; then for
the steps in which an ANGLE that waited goes on: one that reaches the menu leaves the port so, and from
`A_WAIT` on none of them writes the port's registers, `prev_duty` or `adopt` again. Last: every step keeps
`PortInv`, what a running ANGLE has written so far. -/
def Obligations.AngleLeavesThePortProgrammed : Prop :=
  (∀ (l : Line) (s t : State), s.atRest → exec (.angle l) s = .next t → PortInv t ∧
    (t.env.interp = .showMenu ∨ t.blk.phase.written = 3 →
      t.pwm.period = 2500#16 ∧ t.pwm.compare = t.blk.prevDuty + 1#16 ∧ t.pwm.mode = .edgeAligned ∧
      (∃ new, t.trace = s.trace ++ new ∧ (new.filter PortEvent.writesCompare).length = 1) ∧
      (s.pwm.compare = s.blk.prevDuty + 1#16 → t.pwm.compare ≠ s.pwm.compare →
        t.blk.adopt = true))) ∧
  (∀ s t : State, resetNext s = false → SessionInv s → PortInv s → s.angleDue = true →
    step s = .next t →
    (t.env.interp = .showMenu →
      t.pwm.period = 2500#16 ∧ t.pwm.compare = t.blk.prevDuty + 1#16 ∧ t.pwm.mode = .edgeAligned) ∧
    (s.blk.phase.written = 3 →
      t.pwm.period = s.pwm.period ∧ t.pwm.compare = s.pwm.compare ∧ t.pwm.mode = s.pwm.mode ∧
      t.blk.prevDuty = s.blk.prevDuty ∧ t.blk.adopt = s.blk.adopt ∧
      ∃ new, t.trace = s.trace ++ new ∧ new.filter PortEvent.writesCompare = [])) ∧
  ∀ s t : State, step s = .next t → PortInv s → PortInv t

/-- The frame of ANGLE (rules R13, R99), whether it has run to its end or waits, and the frame of every
step in which an ANGLE that waited goes on, whatever the host accepts: it makes no memory transaction, so
every byte of memory reads as before; the registers of DIAG, the configuration and the environment's
operand registers are untouched (that a transient register keeps its last value: log 33). -/
def Obligations.AngleFrame : Prop :=
  ∀ (l : Line) (s t : State),
    ((s.atRest ∧ exec (.angle l) s = .next t) ∨
      (resetNext s = false ∧ SessionInv s ∧ s.angleDue = true ∧ step s = .next t)) →
    t.mem = s.mem ∧ (∀ x, t.mem.byteAnswered x = s.mem.byteAnswered x) ∧ t.txns = s.txns ∧
    t.cfg = s.cfg ∧
    t.blk.ri = s.blk.ri ∧ t.blk.addr = s.blk.addr ∧ t.blk.rd = s.blk.rd ∧
    t.blk.failed = s.blk.failed ∧ t.blk.fail0 = s.blk.fail0 ∧ t.blk.fail1 = s.blk.fail1 ∧
    t.blk.failAddr0 = s.blk.failAddr0 ∧ t.blk.failAddr1 = s.blk.failAddr1 ∧
    t.env.sel = s.env.sel ∧ t.env.received = s.env.received ∧ t.env.prompted = s.env.prompted ∧
    t.env.opAddr = s.env.opAddr ∧ t.env.opData = s.env.opData

/-! ### DIAG (spec/40_memory_walker.md) -/

/-- Rules R73 to R78, phase by phase, while the host accepts reports. -/
def Obligations.WalkerPhasesFollowTheRules : Prop :=
  ∀ s : State, s.hostAccepts →
    dBounds s = .go { s with
      blk := { s.blk with failed := false, addr := (s.cfg.range s.blk.ri).start, phase := .dCheck }
      trace := s.trace ++
        [.out (.bounds (s.cfg.range s.blk.ri).start (s.cfg.range s.blk.ri).stop)] } ∧
    dCheck s = .go { s with blk := { s.blk with
      phase := if s.blk.addr.toNat ≤ (s.cfg.range s.blk.ri).stop.toNat then .dWrite
        else .dVerdict } } ∧
    dWrite s = .go { s with
      mem := s.mem.storeUnit s.cfg.byteOrder s.blk.addr s.cfg.sentinel
      blk := { s.blk with phase := .dRead }
      trace := s.trace ++ [.mem (.write2 s.blk.addr s.cfg.sentinel)] } ∧
    dRead s = .go { s with
      mem := { s.mem with answers := s.mem.answers.tail }
      blk := { s.blk with rd := s.mem.answer2 s.cfg.byteOrder s.blk.addr, phase := .dCmp }
      trace := s.trace ++
        [.mem (.read2 s.blk.addr (s.mem.answer2 s.cfg.byteOrder s.blk.addr))] } ∧
    (s.blk.rd ≠ s.cfg.sentinel → dCmp s = .go { s with
      blk := { s.blk with
        failAddr0 := if s.blk.ri = 0 then s.blk.addr else s.blk.failAddr0
        failAddr1 := if s.blk.ri = 0 then s.blk.failAddr1 else s.blk.addr
        failed := true, phase := .dVerdict }
      trace := s.trace ++ [.out (.failAddr s.blk.addr)] }) ∧
    (s.blk.rd = s.cfg.sentinel → dCmp s = .go { s with
      blk := { s.blk with addr := s.blk.addr + 2#16, phase := .dCheck } }) ∧
    (s.blk.ri = 0 → dVerdict s = .go { s with
      blk := { s.blk with fail0 := s.blk.failed, ri := 1, phase := .dBounds }
      trace := s.trace ++ [.out (if s.blk.failed then
        .rangeFail s.cfg.range0.start s.cfg.range0.stop else .rangeOk)] }) ∧
    (s.blk.ri = 1 → dVerdict s = .go { s with
      blk := { s.blk with fail1 := s.blk.failed, phase := .idle, done := true }
      trace := s.trace ++ [.out (if s.blk.failed then
        .rangeFail s.cfg.range1.start s.cfg.range1.stop else .rangeOk), .done] })

/-- Rule R72: the phases perform exactly the pseudocode. With any memory agent and any peripheral, DIAG
on well-formed ranges runs to its end, and memory, port history and every block register are those of
`pseudoDiag`, rule R72's text; the PWM registers are untouched. The model's choices in it: of the equality
of the block's registers, that `cmd_arg` keeps what it carried (log 26) and that a register rule R72 does
not write keeps its value (log 33); of `t.atRest`, that `done` is 0 after the command (log 34). -/
def Obligations.DiagPerformsThePseudocode : Prop :=
  ∀ s : State, s.atRest → s.hostAccepts → s.noReset → s.cfg.rangesOk = true →
    ∃ t : State, exec .diag s = .next t ∧
      t.mem = (pseudoDiag s).mem ∧ t.trace = (pseudoDiag s).trace ++ [.done] ∧
      t.blk = { (pseudoDiag s).blk with cmdSel := 0x31#8 } ∧ t.cfg = s.cfg ∧
      t.pwm.period = s.pwm.period ∧ t.pwm.compare = s.pwm.compare ∧ t.pwm.mode = s.pwm.mode ∧
      t.env.interp = .showMenu ∧ t.env.stage = .operands ∧ t.room = none ∧ t.atRest

/-- Rule R81: the shape of the report stream. Whatever the memory answers, DIAG completes and reports
for range 0 then range 1 exactly one of the two sequences, a failing address being a unit address of
its range, and the marks `fail[i]`, `fail_addr[i]` say the same. -/
def Obligations.DiagReportsHaveOneShape : Prop :=
  ∀ s : State, s.atRest → s.hostAccepts → s.noReset → s.cfg.rangesOk = true →
    ∃ (t : State) (o : Fin 2 → Option Word), exec .diag s = .next t ∧
      t.reports = s.reports ++ rangeReports s.cfg.range0 (o 0) ++ rangeReports s.cfg.range1 (o 1) ∧
      ∀ i : Fin 2,
        (o i = none → t.blk.fail i = false) ∧
        ∀ a, o i = some a → t.blk.fail i = true ∧ t.blk.failAddr i = a ∧
          (s.cfg.range i).start.toNat ≤ a.toNat ∧ a.toNat ≤ (s.cfg.range i).stop.toNat ∧
          (a.toNat - (s.cfg.range i).start.toNat) % 2 = 0

/-- Rules R45, R72: with a fault-free memory DIAG reports both ranges OK. -/
def Obligations.DiagPassesFaultFreeMemory : Prop :=
  ∀ s : State, s.atRest → s.hostAccepts → s.noReset → s.cfg.rangesOk = true → s.mem.wf = true →
    s.mem.FaultFree →
    ∃ t : State, exec .diag s = .next t ∧
      t.reports = s.reports ++ rangeReports s.cfg.range0 none ++ rangeReports s.cfg.range1 none ∧
      t.blk.fail0 = false ∧ t.blk.fail1 = false ∧ t.env.interp = .showMenu

/-- Rule R80: the bytes stored in memory after DIAG. In each range, the locations below the end of the
failing unit (or of the last unit, if none failed) store the sentinel's bytes in the order of rule R31;
every other location is as before. `storedByte` is the byte last written, rule R45's `stored(x)`, before
the agent's faults: what the failing unit keeps of the sentinel is what a read of it is answered (that
every write is stored and the faults act on reads is the model's form of the agent, log 8). -/
def Obligations.DiagMemoryAfter : Prop :=
  ∀ s : State, s.atRest → s.hostAccepts → s.noReset → s.cfg.rangesOk = true → s.mem.wf = true →
    ∃ t : State, exec .diag s = .next t ∧
      let limit := fun i : Fin 2 =>
        if t.blk.fail i then (t.blk.failAddr i).toNat + 2 else (s.cfg.range i).last + 2
      (∀ (i : Fin 2) (x : Nat), (s.cfg.range i).start.toNat ≤ x → x < limit i →
        t.mem.storedByte x = sentinelByte s.cfg (s.cfg.range i).start.toNat x) ∧
      ∀ x : Nat,
        (∀ i : Fin 2, ¬ ((s.cfg.range i).start.toNat ≤ x ∧ x < limit i)) →
        t.mem.storedByte x = s.mem.storedByte x

/-- Rules R81 (which the spec derives from R72) and R82, vectors V-W2, V-W4, V-W5: with one stuck-at
fault at a location of range `i` that changes the sentinel's byte there, and nothing else wrong, DIAG
reports exactly the address of the unit that holds the location (the location itself when it is a unit's
own address), and the other range passes. -/
def Obligations.DiagFindsTheStuckCell : Prop :=
  ∀ (s : State) (i : Fin 2) (f : StuckAt), s.atRest → s.hostAccepts → s.noReset →
    s.cfg.rangesOk = true → s.mem.wf = true → s.mem.stuck = [f] →
    (∀ x ∈ s.mem.answers, x = none) →
    (s.cfg.range i).touches f.loc.toNat = true →
    f.apply (sentinelByte s.cfg (s.cfg.range i).start.toNat f.loc.toNat) ≠
      sentinelByte s.cfg (s.cfg.range i).start.toNat f.loc.toNat →
    let start := (s.cfg.range i).start.toNat
    let unit : Word := BitVec.ofNat 16 (start + 2 * ((f.loc.toNat - start) / 2))
    ∃ t : State, exec .diag s = .next t ∧
      t.reports = s.reports ++
        rangeReports s.cfg.range0 (if i = 0 then some unit else none) ++
        rangeReports s.cfg.range1 (if i = 0 then none else some unit)

/-- Rule R41 (a) to (c): the memory transactions of DIAG are, for range 0 and then for range 1, write
and then read of each unit in ascending order from `start`; every unit but the last one read back the
sentinel. -/
def Obligations.DiagTransactionsInOrder : Prop :=
  ∀ s : State, s.atRest → s.hostAccepts → s.noReset → s.cfg.rangesOk = true →
    ∃ (t : State) (v0 v1 : List Word), exec .diag s = .next t ∧
      t.txns = s.txns ++ walkTxns s.cfg.sentinel s.cfg.range0.start v0 ++
        walkTxns s.cfg.sentinel s.cfg.range1.start v1 ∧
      (∀ v ∈ v0.dropLast, v = s.cfg.sentinel) ∧ (∀ v ∈ v1.dropLast, v = s.cfg.sentinel) ∧
      1 ≤ v0.length ∧ v0.length ≤ (s.cfg.range0.stop.toNat - s.cfg.range0.start.toNat) / 2 + 1 ∧
      1 ≤ v1.length ∧ v1.length ≤ (s.cfg.range1.stop.toNat - s.cfg.range1.start.toNat) / 2 + 1

/-- The frame of DIAG (rules R13, R72, R80), whether it has run to its end or waits, and the frame of
every step in which a DIAG that waited goes on: `prev_duty` and the registers of the converter are
untouched, the PWM registers are never written and no PWM action is made, and every byte of memory
outside the walked locations reads as before (that a transient register keeps its last value: log 33).
`WalkInv` is the invariant of `StepKeepsTheWalkInRange`. -/
def Obligations.DiagFrame : Prop :=
  ∀ s t : State, s.mem.wf = true →
    ((s.atRest ∧ exec .diag s = .next t) ∨
      (resetNext s = false ∧ SessionInv s ∧ WalkInv s ∧ s.walkDue = true ∧ step s = .next t)) →
    t.blk.prevDuty = s.blk.prevDuty ∧ t.blk.p = s.blk.p ∧ t.blk.deg = s.blk.deg ∧
    t.blk.prod = s.blk.prod ∧ t.blk.raw = s.blk.raw ∧ t.blk.clamped = s.blk.clamped ∧
    t.blk.adopt = s.blk.adopt ∧ t.blk.duty = s.blk.duty ∧ t.cfg = s.cfg ∧
    t.pwm.period = s.pwm.period ∧ t.pwm.compare = s.pwm.compare ∧ t.pwm.mode = s.pwm.mode ∧
    t.pwmActions = s.pwmActions ∧ (s.pwm.cycleFlag = true → t.pwm.cycleFlag = true) ∧
    t.env.sel = s.env.sel ∧ t.env.received = s.env.received ∧ t.env.prompted = s.env.prompted ∧
    t.env.opAddr = s.env.opAddr ∧ t.env.opData = s.env.opData ∧ t.mem.stuck = s.mem.stuck ∧
    ∀ x, s.cfg.walked x = false → t.mem.byteAnswered x = s.mem.byteAnswered x

/-- Rule R36 (a) to (c): a configuration with a range whose start is above its end, an end above
0xFFFD, or a location both walks touch is refused, and no other is. -/
def Obligations.IllFormedRangesRefused : Prop :=
  ∀ s : State,
    (s.cfg.range0.stop.toNat < s.cfg.range0.start.toNat ∨
      s.cfg.range1.stop.toNat < s.cfg.range1.start.toNat ∨
      0xFFFD < s.cfg.range0.stop.toNat ∨ 0xFFFD < s.cfg.range1.stop.toNat ∨
      ∃ x, s.cfg.range0.touches x = true ∧ s.cfg.range1.touches x = true) ↔
    exec .diag s = .refused .illFormedRanges

/-! ### The command port (spec/30_encoding.md) -/

/-- Rule R59: a selector of the environment presented to the block does nothing but raise `done` (which
the model holds as a level: log 34); an invalid one is reported, and `done` is raised. -/
def Obligations.PortTurnsOtherSelectorsAway : Prop :=
  ∀ s : State, s.blk.phase = .idle → s.hostAccepts →
    ((s.blk.cmdSel = 0x32#8 ∨ s.blk.cmdSel = 0x33#8 ∨ s.blk.cmdSel = 0x35#8) →
      acceptCommand s = .go { s with
        blk := { s.blk with cmdValid := false, done := true }
        trace := s.trace ++ [.done] }) ∧
    ((s.blk.cmdSel.toNat < 0x31 ∨ 0x35 < s.blk.cmdSel.toNat) →
      acceptCommand s = .go { s with
        blk := { s.blk with cmdValid := false, done := true }
        trace := s.trace ++ [.out (.invalidSelector (s.blk.cmdSel.setWidth 16)), .done] })

/-- Rule R58: a command is accepted only in `IDLE`: DIAG sets `ri` to 0 and enters `D_BOUNDS`, ANGLE
copies `cmd_arg` to `P` and enters `A_CONVERT`; while `busy` the offer stays as it is. That a `done` still
raised falls on acceptance is the model's choice (log 34): rule R58 says only when it is asserted. -/
def Obligations.CommandsAcceptedOnlyInIdle : Prop :=
  (∀ s : State, s.blk.phase = .idle → s.blk.cmdValid = true → s.blk.cmdSel = 0x31#8 →
    phaseStep s = .go { s with
      blk := { s.blk with cmdValid := false, done := false, ri := 0, phase := .dBounds } }) ∧
  (∀ s : State, s.blk.phase = .idle → s.blk.cmdValid = true → s.blk.cmdSel = 0x34#8 →
    phaseStep s = .go { s with
      blk := { s.blk with cmdValid := false, done := false, p := s.blk.cmdArg, phase := .aConvert } }) ∧
  ∀ s s1 : State, s.busy = true → (seqStep s = .go s1 ∨ seqStep s = .stop s1) →
    s1.blk.cmdValid = s.blk.cmdValid ∧ s1.blk.cmdSel = s.blk.cmdSel ∧ s1.blk.cmdArg = s.blk.cmdArg

/-! ### PEEK, POKE, EXIT (spec/43_environment.md) -/

/-- Rule R143: PEEK of a mapped address reads one byte and reports it zero-extended; nothing else
changes, and no stored byte does. -/
def Obligations.PeekReportsTheByte : Prop :=
  ∀ (l : Line) (s : State), s.cfg.isUnmapped (foldLine l) = false →
    s.cfg.readHasSideEffect (foldLine l) = false → s.hostAccepts →
    exec (.peek l) s = .next { s with
      mem := { s.mem with answers := s.mem.answers.tail }
      env := { s.env with opAddr := foldLine l, interp := .showMenu, stage := .operands }
      trace := s.trace ++
        [.mem (.read1 (foldLine l) (s.mem.answer1 (foldLine l))),
          .out (.peekValue ((s.mem.answer1 (foldLine l)).setWidth 16))] } ∧
    (s.mem.FaultFree → s.mem.answer1 (foldLine l) = s.mem.storedByte (foldLine l).toNat)

/-- Rule R144: PEEK of an address the platform does not map faults the run (which addresses those are is
a parameter: log 16). -/
def Obligations.PeekOfUnmappedFaults : Prop :=
  ∀ (l : Line) (s : State), s.cfg.isUnmapped (foldLine l) = true →
    exec (.peek l) s = .fault (.busFault (foldLine l))

/-- Rule R144 and open point U21 (the model's choice, log 17): PEEK of a mapped address whose read has
a side effect on a device faults under a name of its own. -/
def Obligations.PeekOfDeviceReadFaults : Prop :=
  ∀ (l : Line) (s : State), s.cfg.isUnmapped (foldLine l) = false →
    s.cfg.readHasSideEffect (foldLine l) = true →
    exec (.peek l) s = .fault (.deviceReadEffect (foldLine l))

/-- Every command answers a next state except in the three cases the spec names: DIAG with ill-formed
ranges (rule R36), PEEK of an unmapped address (rule R144), PEEK of a device register whose read has a
side effect (open point U21, log 17). -/
def Obligations.CommandsStopOnlyWhereNamed : Prop :=
  ∀ (i : Instr) (s : State), s.atRest →
    (∃ t, exec i s = .next t) ∨
    (i = .diag ∧ s.cfg.rangesOk = false ∧ exec i s = .refused .illFormedRanges) ∨
    ∃ l, i = .peek l ∧
      ((s.cfg.isUnmapped (foldLine l) = true ∧ exec i s = .fault (.busFault (foldLine l))) ∨
        (s.cfg.isUnmapped (foldLine l) = false ∧ s.cfg.readHasSideEffect (foldLine l) = true ∧
          exec i s = .fault (.deviceReadEffect (foldLine l))))

/-- Rule R145 with the check of rule R146: an address in the closed safe interval or equal to a
whitelisted one is written with the low 8 bits of the folded data, and value and address are echoed;
the byte is stored and every other stored byte is as before. That an allowed address of a device, or an
unmapped one, is written like memory is the model's choice (log 18). -/
def Obligations.PokeWritesAnAllowedByte : Prop :=
  ∀ (la ld : Line) (s : State), s.hostAccepts →
    let a := foldPokeAddress s.cfg.pokeAddrBits la
    let d : Byte := (foldLine ld).setWidth 8
    ((s.cfg.pokeSafeLo.toNat ≤ a.toNat ∧ a.toNat ≤ s.cfg.pokeSafeHi.toNat) ∨
      a = s.cfg.pokeWl0 ∨ a = s.cfg.pokeWl1) →
    exec (.poke la ld) s = .next { s with
      mem := s.mem.storeByte a.toNat d
      env := { s.env with opAddr := a, opData := d, interp := .showMenu, stage := .operands }
      trace := s.trace ++ [.mem (.write1 a d), .out (.pokeDone (d.setWidth 16) a)] } ∧
    (s.mem.wf = true → ∀ x, (s.mem.storeByte a.toNat d).storedByte x =
      if x = a.toNat then d else s.mem.storedByte x)

/-- Rule R146: every other address is rejected before any write. -/
def Obligations.PokeRejectsEveryOtherAddress : Prop :=
  ∀ (la ld : Line) (s : State), s.hostAccepts →
    let a := foldPokeAddress s.cfg.pokeAddrBits la
    ¬ ((s.cfg.pokeSafeLo.toNat ≤ a.toNat ∧ a.toNat ≤ s.cfg.pokeSafeHi.toNat) ∨
      a = s.cfg.pokeWl0 ∨ a = s.cfg.pokeWl1) →
    exec (.poke la ld) s = .next { s with
      env := { s.env with
        opAddr := a, opData := (foldLine ld).setWidth 8, interp := .showMenu, stage := .operands }
      trace := s.trace ++ [.out .outOfRange] }

/-- Rule R148: EXIT ends the loop; the block, the PWM port, the memory and the history are untouched. -/
def Obligations.ExitEndsTheLoop : Prop :=
  ∀ s : State, exec .exit s = .next { s with env := { s.env with interp := .exit } }

/-- The frame of PEEK, POKE and EXIT whether or not the host accepts their report: no register of the
block or of the PWM port and no configuration constant changes, and every byte of memory reads as
before except the one POKE stores to, at the address the meaning computes; a POKE that fails the bounds
check stores nothing. -/
def Obligations.EnvironmentCommandsFrame : Prop :=
  ∀ (la ld : Line) (s t : State), s.mem.wf = true →
    (exec (.peek la) s = .next t ∨ exec .exit s = .next t →
      t.blk = s.blk ∧ t.pwm = s.pwm ∧ t.cfg = s.cfg ∧ t.mem.stuck = s.mem.stuck ∧
      ∀ x, t.mem.byteAnswered x = s.mem.byteAnswered x) ∧
    (exec (.poke la ld) s = .next t →
      t.blk = s.blk ∧ t.pwm = s.pwm ∧ t.cfg = s.cfg ∧ t.mem.stuck = s.mem.stuck ∧
      (s.cfg.pokeAllowed (foldPokeAddress s.cfg.pokeAddrBits la) = false → t.mem = s.mem) ∧
      ∀ x, x ≠ (foldPokeAddress s.cfg.pokeAddrBits la).toNat →
        t.mem.byteAnswered x = s.mem.byteAnswered x)

/-! ### Memory (spec/20_memory.md) -/

/-- Rule R31: where the bytes of a 2-byte and of a 1-byte write land; every other location is as
before. -/
def Obligations.WritesPlaceTheirBytes : Prop :=
  ∀ (s : State) (a v : Word) (b : Byte) (x : Nat), s.mem.wf = true →
    (memWrite2 a v s).mem.storedByte x =
      (if x = (a.toNat + 1) % 65536 then
        (match s.cfg.byteOrder with
          | .big => BitVec.ofNat 8 (v.toNat % 256)
          | .little => BitVec.ofNat 8 (v.toNat / 256))
      else if x = a.toNat then
        (match s.cfg.byteOrder with
          | .big => BitVec.ofNat 8 (v.toNat / 256)
          | .little => BitVec.ofNat 8 (v.toNat % 256))
      else s.mem.storedByte x) ∧
    (memWrite1 a b s).mem.storedByte x = if x = a.toNat then b else s.mem.storedByte x

/-- Rule R32: how a 2-byte and a 1-byte read assemble the bytes the locations answer, with a memory
agent that has no scripted answer; without a stuck-at fault a location answers what was written. -/
def Obligations.ReadsAssembleTheBytes : Prop :=
  ∀ (s : State) (a : Word), (∀ x ∈ s.mem.answers, x = none) →
    (memValue2 a s).toNat =
      (match s.cfg.byteOrder with
        | .big => (s.mem.byteAnswered a.toNat).toNat * 256 +
            (s.mem.byteAnswered ((a.toNat + 1) % 65536)).toNat
        | .little => (s.mem.byteAnswered ((a.toNat + 1) % 65536)).toNat * 256 +
            (s.mem.byteAnswered a.toNat).toNat) ∧
    memValue1 a s = s.mem.byteAnswered a.toNat ∧
    (s.mem.stuck = [] → ∀ x, s.mem.byteAnswered x = s.mem.storedByte x)

/-- Rule R41 (a): with a fault-free memory, `read(addr) == pattern` holds right after
`write(addr, pattern)`, at every address, 0xFFFF included, and in either byte order. -/
def Obligations.ReadAfterWrite : Prop :=
  ∀ (s : State) (a v : Word) (b : Byte), s.mem.wf = true → s.mem.FaultFree →
    memValue2 a (memWrite2 a v s) = v ∧ memValue1 a (memWrite1 a b s) = b

/-- Rule R45: the two models of a faulty memory (the script is the model's form of the oracle: log 8). A
stuck-at fault shows its bits on every read of its location and on no other; a scripted answer is what
the read returns. -/
def Obligations.FaultyMemoryAnswers : Prop :=
  (∀ (m : Memory) (f : StuckAt) (x : Nat), m.stuck = [f] →
    m.byteAnswered x =
      if x = f.loc.toNat then (m.storedByte x &&& ~~~f.mask) ||| (f.value &&& f.mask)
      else m.storedByte x) ∧
  ∀ (s : State) (a v : Word) (rest : List (Option Word)), s.mem.answers = some v :: rest →
    memValue2 a s = v ∧ (memRead2 a s).mem.answers = rest

/-! ### The session (spec/43_environment.md) -/

/-- A step runs the decoded command (rules R138, R140, R141, R53), while the host accepts. First: when the
bytes on the transport begin with the encoding of a well-formed command, one step from `AwaitSelector` is
`exec` of it, after the turn of the outside world, with the bytes consumed and the prompts and echoes of
rules R143, R145, R150 sent. Then a command that is typed over several steps (rules R131, R168 (c)): a step
from `AwaitSelector` that finds the selector and only the beginning of the operand bytes stores those,
prompts and echoes as they arrive, and stands in `Dispatch` waiting for the next, its prompt sent. A step
that stands there is `exec` of the command when the rest of its bytes has come, leaving what follows on
the transport; when only more of them have come it stores those and waits again. The model's choices: that
such a wait is a next state (log 14), that ANGLE has no prompt and that a terminator is not echoed
(log 19). `prompted` counts for PEEK and POKE only, and ANGLE leaves it clear. -/
def Obligations.StepRunsTheDecodedCommand : Prop :=
  (∀ (s : State) (i : Instr) (rest : List Byte), s.env.interp = .awaitSelector →
    resetNext s = false → (worldTurn s).room = none → i.wf = true →
    (worldTurn s).env.rx = encode i ++ rest →
    step s = exec i (afterReading i rest (worldTurn s))) ∧
  (∀ (s : State) (i : Instr) (sel : Byte) (p q : List Byte), s.env.interp = .awaitSelector →
    resetNext s = false → (worldTurn s).room = none → i.wf = true →
    encode i = sel :: (p ++ q) → q ≠ [] → (worldTurn s).env.rx = sel :: p →
    step s = .next { worldTurn s with
      env := { s.env with
        interp := .dispatch, stage := .operands, sel := sel, received := p
        prompted := decide (sel = 0x32#8 ∨ sel = 0x33#8), rx := [] }
      trace := s.trace ++ (if sel = 0x32#8 ∨ sel = 0x33#8 then [.out .prompt] else []) ++
        (if sel = 0x33#8 then pokeEvents [] p else []) }) ∧
  ∀ (s : State) (i : Instr) (q : List Byte), s.env.interp = .dispatch → s.env.stage = .operands →
    resetNext s = false → (worldTurn s).room = none → i.wf = true →
    encode i = s.env.sel :: (s.env.received ++ q) → q ≠ [] →
    (∀ rest, (worldTurn s).env.rx = q ++ rest →
      step s = exec i ((worldTurn s).afterBytes q rest false)) ∧
    ∀ p r, q = p ++ r → r ≠ [] → (worldTurn s).env.rx = p →
      ∃ prompted : Bool, ((s.env.sel = 0x32#8 ∨ s.env.sel = 0x33#8) → prompted = true) ∧
        (s.env.sel = 0x34#8 → s.env.prompted = false → prompted = false) ∧
        step s = .next ((worldTurn s).afterBytes p [] prompted)

/-- Rules R142, R57: an invalid selector is reported and the menu is next; the operand registers, the
block, the memory and the PWM registers are untouched. -/
def Obligations.InvalidSelectorOnlyReported : Prop :=
  ∀ (s : State) (b : Byte) (rest : List Byte), s.env.interp = .awaitSelector →
    resetNext s = false → (worldTurn s).room = none →
    (b.toNat < 0x31 ∨ 0x35 < b.toNat) → (worldTurn s).env.rx = b :: rest →
    step s = .next { worldTurn s with
      env := { s.env with
        interp := .showMenu, stage := .operands, sel := b, received := [], prompted := false
        rx := rest }
      trace := s.trace ++ [.out (.invalidSelector (b.setWidth 16))] }

/-- Rules R138, R139: the menu is shown unconditionally, then one selector byte is awaited. -/
def Obligations.MenuThenSelector : Prop :=
  ∀ s : State, s.env.interp = .showMenu → resetNext s = false → (worldTurn s).room = none →
    step s = .next { worldTurn s with
      env := { (worldTurn s).env with interp := .awaitSelector }
      trace := s.trace ++ [.out .menu] }

/-- Rules R131, R168 (c): while the environment waits for a byte, the selector or a character of an
operand line, nothing changes but what the outside world does; in an operand line a prompt that is due is
sent first, if the host accepts it. That such a wait is a next state is the model's choice (log 14), and
so is that ANGLE has no prompt (log 19). -/
def Obligations.WaitingForAByteChangesNothing : Prop :=
  ∀ s : State, resetNext s = false → (worldTurn s).env.rx = [] →
    ((worldTurn s).blk = s.blk ∧ (worldTurn s).mem = s.mem ∧ (worldTurn s).cfg = s.cfg ∧
      (worldTurn s).trace = s.trace ∧ (worldTurn s).pwm.period = s.pwm.period ∧
      (worldTurn s).pwm.compare = s.pwm.compare ∧ (worldTurn s).pwm.mode = s.pwm.mode ∧
      (s.pwm.cycleFlag = true → (worldTurn s).pwm.cycleFlag = true)) ∧
    (s.env.interp = .awaitSelector → step s = .next (worldTurn s)) ∧
    (s.env.interp = .dispatch → s.env.stage = .operands →
      decode (s.env.sel :: s.env.received) = .error .lineUnfinished →
      let due := (s.env.sel = 0x32#8 ∨ s.env.sel = 0x33#8) ∧ s.env.prompted = false
      (¬ due ∨ (worldTurn s).room = some 0 → step s = .next (worldTurn s)) ∧
      (due → (worldTurn s).room ≠ some 0 → step s = .next { worldTurn s with
        env := { (worldTurn s).env with prompted := true }
        trace := s.trace ++ [.out .prompt]
        room := (worldTurn s).room.map (· - 1) }))

/-- Rule R168 (b). First: every place that reports stands where it is while the host accepts nothing: the
menu, the answer of a handler, the reporting phases of the block, an invalid selector on the block's port,
the prompt of an operand line, and the local echo of a POKE character. Meanwhile `D_VERDICT` has marked its
range, which rule R78 writes before the report; that nothing written after a report has happened before
it is accepted is read from the order of rules R73, R77, R98 (log 31), and that a POKE character stays on
the transport is the model's choice (log 28). Then the other side: each of these places goes on in a step
in which the host accepts, whatever it had accepted before, and uses up one acceptance. Last, under
HostLive: a block command that waits at a report runs to its end once the host accepts, an ANGLE at its
echo with one acceptance, a DIAG wherever it waits with at most six (rule R81: three reports a range); that
`done` is 0 afterwards, a clause of `t.atRest`, is the model's choice (log 34). -/
def Obligations.ReportsWaitForTheHost : Prop :=
  (∀ s : State, s.room = some 0 →
    showMenu s = s ∧
    (∀ r, s.env.stage = .answer r → deliver s = s) ∧
    dBounds s = .stop s ∧ aEcho s = .stop s ∧
    (s.blk.ri = 0 → dVerdict s = .stop { s with blk := { s.blk with fail0 := s.blk.failed } }) ∧
    (s.blk.ri = 1 → dVerdict s = .stop { s with blk := { s.blk with fail1 := s.blk.failed } }) ∧
    (s.blk.rd ≠ s.cfg.sentinel → dCmp s = .stop s) ∧
    ((s.blk.cmdSel.toNat < 0x31 ∨ 0x35 < s.blk.cmdSel.toNat) → acceptCommand s = .stop s) ∧
    (decode (s.env.sel :: s.env.received) = .error .lineUnfinished →
      (s.env.sel = 0x32#8 ∨ s.env.sel = 0x33#8) → s.env.prompted = false →
      sendPrompt s = none ∧ ∀ bs, fetchFrom bs s = .waits s) ∧
    (decode (s.env.sel :: s.env.received) = .error .lineUnfinished →
      s.env.sel = 0x33#8 → s.env.prompted = true →
      ∀ (b : Byte) (rest : List Byte), b ≠ 0x0A#8 → b ≠ 0x0D#8 →
        sendEcho b s = none ∧ fetchFrom (b :: rest) s = .waits s)) ∧
  (∀ s : State, resetNext s = false → (worldTurn s).room ≠ some 0 →
    (s.env.interp = .showMenu → step s = .next { worldTurn s with
      env := { (worldTurn s).env with interp := .awaitSelector }
      trace := s.trace ++ [.out .menu]
      room := (worldTurn s).room.map (· - 1) }) ∧
    (∀ r, s.env.interp = .dispatch → s.env.stage = .answer r → step s = .next { worldTurn s with
      env := { (worldTurn s).env with interp := .showMenu, stage := .operands }
      trace := s.trace ++ [.out r]
      room := (worldTurn s).room.map (· - 1) })) ∧
  (∀ s : State, s.room ≠ some 0 → ∀ room', room' = s.room.map (· - 1) →
    (∃ t, dBounds s = .go t ∧ t.blk.phase = .dCheck ∧ t.room = room' ∧
      t.trace = s.trace ++ [.out (.bounds s.walkRange.start s.walkRange.stop)]) ∧
    (s.blk.rd ≠ s.cfg.sentinel → ∃ t, dCmp s = .go t ∧ t.blk.phase = .dVerdict ∧ t.room = room' ∧
      t.trace = s.trace ++ [.out (.failAddr s.blk.addr)]) ∧
    (∃ t, dVerdict s = .go t ∧ t.room = room' ∧ t.blk.fail s.blk.ri = s.blk.failed ∧
      t.blk.phase = (if s.blk.ri = 0 then .dBounds else .idle) ∧
      t.trace = s.trace ++ [.out s.verdict] ++ (if s.blk.ri = 0 then [] else [.done])) ∧
    (∃ t, aEcho s = .go t ∧ t.blk.phase = .idle ∧ t.room = room' ∧
      t.trace = s.trace ++ [.out (.angleEcho s.blk.p), .done]) ∧
    ((s.blk.cmdSel.toNat < 0x31 ∨ 0x35 < s.blk.cmdSel.toNat) → s.blk.phase = .idle →
      ∃ t, acceptCommand s = .go t ∧ t.blk.phase = .idle ∧ t.room = room' ∧
        t.trace = s.trace ++ [.out (.invalidSelector (s.blk.cmdSel.setWidth 16)), .done]) ∧
    ((s.env.sel = 0x32#8 ∨ s.env.sel = 0x33#8) → s.env.prompted = false →
      ∃ t, sendPrompt s = some t ∧ t.env.prompted = true ∧ t.room = room' ∧
        t.trace = s.trace ++ [.out .prompt]) ∧
    (s.env.sel = 0x33#8 → ∀ (b : Byte) (rest : List Byte), b ≠ 0x0A#8 → b ≠ 0x0D#8 →
      ∃ t, receiveByte b rest s = some t ∧ t.env.received = s.env.received ++ [b] ∧
        t.env.rx = rest ∧ t.room = room' ∧ t.trace = s.trace ++ [.out (.localEcho b)])) ∧
  ∀ s : State, SessionInv s →
    (s.blk.phase = .aEcho → resetNext s = false → (worldTurn s).room ≠ some 0 →
      ∃ t : State, step s = .next t ∧
        t.trace = s.trace ++ [.out (.angleEcho s.blk.p), .done] ∧ t.atRest ∧
        t.env.interp = .showMenu ∧ t.env.stage = .operands ∧ t.mem = s.mem ∧
        t.blk.prevDuty = s.blk.prevDuty ∧ t.pwm.compare = s.pwm.compare) ∧
    (s.walkDue = true → WalkInv s → s.cfg.rangesOk = true → s.noReset →
      (∀ n, (worldTurn s).room = some n → 6 ≤ n) →
      ∃ t : State, step s = .next t ∧ t.atRest ∧ t.env.interp = .showMenu ∧ t.env.stage = .operands)

/-- Rule R138: `Exit` is reached only when the selector is the quit character. -/
def Obligations.ExitOnlyByTheQuitSelector : Prop :=
  ∀ s t : State, step s = .next t → t.env.interp = .exit → t.env.sel = 0x35#8

/-- Open point U23 (log 21): after `Exit` a step is refused, unless the block is being reset. -/
def Obligations.NothingAfterExit : Prop :=
  ∀ s : State, s.env.interp = .exit → resetNext s = false → step s = .refused .sessionOver

/-! ### Whole-machine rules and invariants -/

/-- Rule R15: no step writes a configuration constant. -/
def Obligations.ConfigurationNeverWritten : Prop :=
  ∀ s t : State, step s = .next t → t.cfg = s.cfg

/-- Rule R11: no command other than ANGLE writes `prev_duty`, nor does any step in which a DIAG that
waited goes on; and whatever a step runs, `prev_duty` changes only in a step in which the comparator
adopts, which pulses the counter reset (rules R95, R96). -/
def Obligations.OnlyAngleWritesPrevDuty : Prop :=
  (∀ (i : Instr) (s t : State), (∀ l, i ≠ .angle l) → s.atRest → exec i s = .next t →
    t.blk.prevDuty = s.blk.prevDuty) ∧
  (∀ s t : State, resetNext s = false → SessionInv s → s.walkDue = true → step s = .next t →
    t.blk.prevDuty = s.blk.prevDuty ∧ t.pwm.period = s.pwm.period ∧
      t.pwm.compare = s.pwm.compare ∧ t.pwm.mode = s.pwm.mode) ∧
  ∀ s t : State, resetNext s = false → step s = .next t → ∃ new, t.trace = s.trace ++ new ∧
    (.pwm .counterReset ∉ new → t.blk.prevDuty = s.blk.prevDuty)

/-- Rules R112, R14 (c), R118: the indicator is sticky over every step: once set it stays set until the
block clears it (or pulses the counter reset, of which rule R96 assumes nothing: a free value, log 12);
and the block never sets it. -/
def Obligations.IndicatorIsSticky : Prop :=
  (∀ s t : State, step s = .next t → s.pwm.cycleFlag = true → t.pwm.cycleFlag = true ∨
    ∃ new, t.trace = s.trace ++ new ∧
      (.pwm .clearFlag ∈ new ∨ .pwm .counterReset ∈ new)) ∧
  ∀ s t : State, step s = .next t → s.noCycle → s.pwm.cycleFlag = false → t.pwm.cycleFlag = false

/-- Every step keeps the memory in the canonical form the model chose for it (log 7): the listed
addresses strictly rising and below 2^16 (rule R18). -/
def Obligations.StepKeepsMemoryCanonical : Prop :=
  ∀ s t : State, step s = .next t → s.mem.wf = true → t.mem.wf = true

/-- The single thread (rules R58, R138, R163 (d)) is kept by every step: outside a block command the
block is at rest, and during one it has exactly that command. What `SessionInv` says of `done`, that it is
0 outside a block command and while one is offered or runs, is the model's choice (log 34). -/
def Obligations.StepKeepsTheSingleThread : Prop :=
  ∀ s t : State, step s = .next t → SessionInv s → SessionInv t

/-- Rules R34, R35, R36 (b), R74: every step keeps the walk pointer at an even distance from the start of
the range being walked, never past `end + 2`, and inside the range while a unit is accessed. -/
def Obligations.StepKeepsTheWalkInRange : Prop :=
  ∀ s t : State, step s = .next t → WalkInv s → WalkInv t

/-- Rules R26, R97: with a legal PREV_DUTY_RESET, every step keeps `prev_duty` attainable (or at its
reset value), the duty handed to PWM_SYNC attainable, and every compare value ever written the
successor of an attainable duty. -/
def Obligations.StepKeepsTheDutyAttainable : Prop :=
  ∀ s t : State, step s = .next t → DutyInv s → DutyInv t

/-- Rules R25, R180, R181: what reset leaves, for every configuration, where the spec gives a value:
`phase = IDLE`, `prev_duty = PREV_DUTY_RESET`, the stream empty, the interpreter in ShowMenu; and the
invariants hold there. Three clauses are the model's choice: rule R25 leaves memory unspecified, and that
no byte is listed (each reads as a free value) is log 7; that nothing is offered and `done` is 0, of
`SessionInv`, is log 4; that `State.reset` has the illustrative configuration is log 1. -/
def Obligations.ResetEstablishesTheInvariants : Prop :=
  (∀ cfg : Config,
    (State.resetWith cfg).blk.phase = .idle ∧
    (State.resetWith cfg).blk.prevDuty = cfg.prevDutyReset ∧
    (State.resetWith cfg).reports = [] ∧ (State.resetWith cfg).env.interp = .showMenu ∧
    (State.resetWith cfg).cfg = cfg ∧ (State.resetWith cfg).mem.cells = [] ∧
    (State.resetWith cfg).mem.wf = true ∧ SessionInv (State.resetWith cfg) ∧
    WalkInv (State.resetWith cfg) ∧ PortInv (State.resetWith cfg) ∧
    (PrevDutyResetOk cfg.prevDutyReset → DutyInv (State.resetWith cfg))) ∧
  State.reset = State.resetWith Config.illustrative ∧ DutyInv State.reset

/-- Rule R182: a reset in the middle of a command leaves memory and the PWM port as they are (the
indicator too) and the sequencer idle with `prev_duty = PREV_DUTY_RESET`; that it falls between two
transactions, and what becomes of the environment, is the model's choice (log 23). -/
def Obligations.ResetInTheMiddle : Prop :=
  ∀ s : State, resetNext s = true → ∃ t : State, step s = .next t ∧
    t.mem = s.mem ∧ t.pwm = s.pwm ∧ t.cfg = s.cfg ∧ t.blk.phase = .idle ∧
    t.blk.prevDuty = s.cfg.prevDutyReset ∧ t.env.interp = .showMenu ∧ t.reports = [] ∧
    t.world = s.world.tail
end

