-- ==== Sys2Proof/Laws/State.lean ====
section
/-! SUPPORT. One lemma per field of State per update of State, so that no proof unfolds a record update,
and the same for the small operations that are one or two updates. -/

namespace Sys2Proof.Machine

@[simp] theorem State.setBlk_cfg (s : State) (x : Block) : (s.setBlk x).cfg = s.cfg := rfl
@[simp] theorem State.setBlk_blk (s : State) (x : Block) : (s.setBlk x).blk = x := rfl
@[simp] theorem State.setBlk_pwm (s : State) (x : Block) : (s.setBlk x).pwm = s.pwm := rfl
@[simp] theorem State.setBlk_mem (s : State) (x : Block) : (s.setBlk x).mem = s.mem := rfl
@[simp] theorem State.setBlk_env (s : State) (x : Block) : (s.setBlk x).env = s.env := rfl
@[simp] theorem State.setBlk_trace (s : State) (x : Block) : (s.setBlk x).trace = s.trace := rfl
@[simp] theorem State.setBlk_room (s : State) (x : Block) : (s.setBlk x).room = s.room := rfl
@[simp] theorem State.setBlk_world (s : State) (x : Block) : (s.setBlk x).world = s.world := rfl
@[simp] theorem State.setBlk_draws (s : State) (x : Block) : (s.setBlk x).draws = s.draws := rfl

@[simp] theorem State.setPwm_cfg (s : State) (x : Pwm) : (s.setPwm x).cfg = s.cfg := rfl
@[simp] theorem State.setPwm_blk (s : State) (x : Pwm) : (s.setPwm x).blk = s.blk := rfl
@[simp] theorem State.setPwm_pwm (s : State) (x : Pwm) : (s.setPwm x).pwm = x := rfl
@[simp] theorem State.setPwm_mem (s : State) (x : Pwm) : (s.setPwm x).mem = s.mem := rfl
@[simp] theorem State.setPwm_env (s : State) (x : Pwm) : (s.setPwm x).env = s.env := rfl
@[simp] theorem State.setPwm_trace (s : State) (x : Pwm) : (s.setPwm x).trace = s.trace := rfl
@[simp] theorem State.setPwm_room (s : State) (x : Pwm) : (s.setPwm x).room = s.room := rfl
@[simp] theorem State.setPwm_world (s : State) (x : Pwm) : (s.setPwm x).world = s.world := rfl
@[simp] theorem State.setPwm_draws (s : State) (x : Pwm) : (s.setPwm x).draws = s.draws := rfl

@[simp] theorem State.setMem_cfg (s : State) (x : Memory) : (s.setMem x).cfg = s.cfg := rfl
@[simp] theorem State.setMem_blk (s : State) (x : Memory) : (s.setMem x).blk = s.blk := rfl
@[simp] theorem State.setMem_pwm (s : State) (x : Memory) : (s.setMem x).pwm = s.pwm := rfl
@[simp] theorem State.setMem_mem (s : State) (x : Memory) : (s.setMem x).mem = x := rfl
@[simp] theorem State.setMem_env (s : State) (x : Memory) : (s.setMem x).env = s.env := rfl
@[simp] theorem State.setMem_trace (s : State) (x : Memory) : (s.setMem x).trace = s.trace := rfl
@[simp] theorem State.setMem_room (s : State) (x : Memory) : (s.setMem x).room = s.room := rfl
@[simp] theorem State.setMem_world (s : State) (x : Memory) : (s.setMem x).world = s.world := rfl
@[simp] theorem State.setMem_draws (s : State) (x : Memory) : (s.setMem x).draws = s.draws := rfl

@[simp] theorem State.setEnv_cfg (s : State) (x : Env) : (s.setEnv x).cfg = s.cfg := rfl
@[simp] theorem State.setEnv_blk (s : State) (x : Env) : (s.setEnv x).blk = s.blk := rfl
@[simp] theorem State.setEnv_pwm (s : State) (x : Env) : (s.setEnv x).pwm = s.pwm := rfl
@[simp] theorem State.setEnv_mem (s : State) (x : Env) : (s.setEnv x).mem = s.mem := rfl
@[simp] theorem State.setEnv_env (s : State) (x : Env) : (s.setEnv x).env = x := rfl
@[simp] theorem State.setEnv_trace (s : State) (x : Env) : (s.setEnv x).trace = s.trace := rfl
@[simp] theorem State.setEnv_room (s : State) (x : Env) : (s.setEnv x).room = s.room := rfl
@[simp] theorem State.setEnv_world (s : State) (x : Env) : (s.setEnv x).world = s.world := rfl
@[simp] theorem State.setEnv_draws (s : State) (x : Env) : (s.setEnv x).draws = s.draws := rfl

@[simp] theorem State.setTrace_cfg (s : State) (x : List PortEvent) : (s.setTrace x).cfg = s.cfg := rfl
@[simp] theorem State.setTrace_blk (s : State) (x : List PortEvent) : (s.setTrace x).blk = s.blk := rfl
@[simp] theorem State.setTrace_pwm (s : State) (x : List PortEvent) : (s.setTrace x).pwm = s.pwm := rfl
@[simp] theorem State.setTrace_mem (s : State) (x : List PortEvent) : (s.setTrace x).mem = s.mem := rfl
@[simp] theorem State.setTrace_env (s : State) (x : List PortEvent) : (s.setTrace x).env = s.env := rfl
@[simp] theorem State.setTrace_trace (s : State) (x : List PortEvent) : (s.setTrace x).trace = x := rfl
@[simp] theorem State.setTrace_room (s : State) (x : List PortEvent) : (s.setTrace x).room = s.room := rfl
@[simp] theorem State.setTrace_world (s : State) (x : List PortEvent) : (s.setTrace x).world = s.world := rfl
@[simp] theorem State.setTrace_draws (s : State) (x : List PortEvent) : (s.setTrace x).draws = s.draws := rfl

@[simp] theorem State.setRoom_cfg (s : State) (x : Option Nat) : (s.setRoom x).cfg = s.cfg := rfl
@[simp] theorem State.setRoom_blk (s : State) (x : Option Nat) : (s.setRoom x).blk = s.blk := rfl
@[simp] theorem State.setRoom_pwm (s : State) (x : Option Nat) : (s.setRoom x).pwm = s.pwm := rfl
@[simp] theorem State.setRoom_mem (s : State) (x : Option Nat) : (s.setRoom x).mem = s.mem := rfl
@[simp] theorem State.setRoom_env (s : State) (x : Option Nat) : (s.setRoom x).env = s.env := rfl
@[simp] theorem State.setRoom_trace (s : State) (x : Option Nat) : (s.setRoom x).trace = s.trace := rfl
@[simp] theorem State.setRoom_room (s : State) (x : Option Nat) : (s.setRoom x).room = x := rfl
@[simp] theorem State.setRoom_world (s : State) (x : Option Nat) : (s.setRoom x).world = s.world := rfl
@[simp] theorem State.setRoom_draws (s : State) (x : Option Nat) : (s.setRoom x).draws = s.draws := rfl

@[simp] theorem State.setWorld_cfg (s : State) (x : List Turn) : (s.setWorld x).cfg = s.cfg := rfl
@[simp] theorem State.setWorld_blk (s : State) (x : List Turn) : (s.setWorld x).blk = s.blk := rfl
@[simp] theorem State.setWorld_pwm (s : State) (x : List Turn) : (s.setWorld x).pwm = s.pwm := rfl
@[simp] theorem State.setWorld_mem (s : State) (x : List Turn) : (s.setWorld x).mem = s.mem := rfl
@[simp] theorem State.setWorld_env (s : State) (x : List Turn) : (s.setWorld x).env = s.env := rfl
@[simp] theorem State.setWorld_trace (s : State) (x : List Turn) : (s.setWorld x).trace = s.trace := rfl
@[simp] theorem State.setWorld_room (s : State) (x : List Turn) : (s.setWorld x).room = s.room := rfl
@[simp] theorem State.setWorld_world (s : State) (x : List Turn) : (s.setWorld x).world = x := rfl
@[simp] theorem State.setWorld_draws (s : State) (x : List Turn) : (s.setWorld x).draws = s.draws := rfl

@[simp] theorem State.setDraws_cfg (s : State) (x : Nat) : (s.setDraws x).cfg = s.cfg := rfl
@[simp] theorem State.setDraws_blk (s : State) (x : Nat) : (s.setDraws x).blk = s.blk := rfl
@[simp] theorem State.setDraws_pwm (s : State) (x : Nat) : (s.setDraws x).pwm = s.pwm := rfl
@[simp] theorem State.setDraws_mem (s : State) (x : Nat) : (s.setDraws x).mem = s.mem := rfl
@[simp] theorem State.setDraws_env (s : State) (x : Nat) : (s.setDraws x).env = s.env := rfl
@[simp] theorem State.setDraws_trace (s : State) (x : Nat) : (s.setDraws x).trace = s.trace := rfl
@[simp] theorem State.setDraws_room (s : State) (x : Nat) : (s.setDraws x).room = s.room := rfl
@[simp] theorem State.setDraws_world (s : State) (x : Nat) : (s.setDraws x).world = s.world := rfl
@[simp] theorem State.setDraws_draws (s : State) (x : Nat) : (s.setDraws x).draws = x := rfl

@[simp] theorem record_cfg (e : PortEvent) (s : State) : (record e s).cfg = s.cfg := rfl
@[simp] theorem record_blk (e : PortEvent) (s : State) : (record e s).blk = s.blk := rfl
@[simp] theorem record_pwm (e : PortEvent) (s : State) : (record e s).pwm = s.pwm := rfl
@[simp] theorem record_mem (e : PortEvent) (s : State) : (record e s).mem = s.mem := rfl
@[simp] theorem record_env (e : PortEvent) (s : State) : (record e s).env = s.env := rfl
@[simp] theorem record_trace (e : PortEvent) (s : State) : (record e s).trace = s.trace ++ [e] := rfl
@[simp] theorem record_room (e : PortEvent) (s : State) : (record e s).room = s.room := rfl
@[simp] theorem record_world (e : PortEvent) (s : State) : (record e s).world = s.world := rfl
@[simp] theorem record_draws (e : PortEvent) (s : State) : (record e s).draws = s.draws := rfl

@[simp] theorem State.enter_cfg (s : State) (p : Phase) : (s.enter p).cfg = s.cfg := rfl
@[simp] theorem State.enter_blk (s : State) (p : Phase) : (s.enter p).blk = { s.blk with phase := p } := rfl
@[simp] theorem State.enter_pwm (s : State) (p : Phase) : (s.enter p).pwm = s.pwm := rfl
@[simp] theorem State.enter_mem (s : State) (p : Phase) : (s.enter p).mem = s.mem := rfl
@[simp] theorem State.enter_env (s : State) (p : Phase) : (s.enter p).env = s.env := rfl
@[simp] theorem State.enter_trace (s : State) (p : Phase) : (s.enter p).trace = s.trace := rfl
@[simp] theorem State.enter_room (s : State) (p : Phase) : (s.enter p).room = s.room := rfl
@[simp] theorem State.enter_world (s : State) (p : Phase) : (s.enter p).world = s.world := rfl
@[simp] theorem State.enter_draws (s : State) (p : Phase) : (s.enter p).draws = s.draws := rfl

@[simp] theorem State.finish_cfg (s : State) : s.finish.cfg = s.cfg := rfl
@[simp] theorem State.finish_blk (s : State) : s.finish.blk = { s.blk with phase := .idle, done := true } := rfl
@[simp] theorem State.finish_pwm (s : State) : s.finish.pwm = s.pwm := rfl
@[simp] theorem State.finish_mem (s : State) : s.finish.mem = s.mem := rfl
@[simp] theorem State.finish_env (s : State) : s.finish.env = s.env := rfl
@[simp] theorem State.finish_trace (s : State) : s.finish.trace = s.trace ++ [.done] := rfl
@[simp] theorem State.finish_room (s : State) : s.finish.room = s.room := rfl
@[simp] theorem State.finish_world (s : State) : s.finish.world = s.world := rfl
@[simp] theorem State.finish_draws (s : State) : s.finish.draws = s.draws := rfl

end Sys2Proof.Machine
end

