-- ==== Sys2Proof/Laws/Converter.lean ====
section
/-! SUPPORT. The ranges of the converter's values (spec/41_angle_to_duty.md rule R100) and everything
`A_CONVERT` does to the state. -/

namespace Sys2Proof.Machine

theorem bcd2dec_le (p : Word) : bcd2dec p ≤ 1665 := by
  unfold bcd2dec; simp only; omega

theorem scale_eq (d : Nat) : scale d = d * 6944 / 10000 + 125 := rfl

theorem clamp_eq (r : Nat) : clamp r = if 249 ≤ r then 320 else if r ≤ 125 then 90 else r := rfl

theorem scale_le {d : Nat} (h : d ≤ 1665) : scale d ≤ 1281 := by
  rw [scale_eq]; omega

theorem clamp_le (r : Nat) : clamp r ≤ 320 := by
  rw [clamp_eq]; split
  · omega
  · split <;> omega

theorem clampedOf_le (p : Word) : clampedOf p ≤ 320 := clamp_le _

/-- The registers after BCD2DEC, SCALE and CLAMP hold the exact values: no width truncates. -/
theorem clampReg_eq (s : State) :
    clampReg (scaleReg (bcd2decReg s)) = { s with blk := { s.blk with
      deg := BitVec.ofNat 11 (bcd2dec s.blk.p)
      prod := BitVec.ofNat 24 (scaleProduct (bcd2dec s.blk.p))
      raw := BitVec.ofNat 11 (scale (bcd2dec s.blk.p))
      clamped := BitVec.ofNat 9 (clampedOf s.blk.p) } } := by
  have h1 := bcd2dec_le s.blk.p
  have h2 := scale_le h1
  have e1 : (BitVec.ofNat 11 (bcd2dec s.blk.p)).toNat = bcd2dec s.blk.p := by
    rw [BitVec.toNat_ofNat]; omega
  have e2 : (BitVec.ofNat 11 (scale (bcd2dec s.blk.p))).toNat = scale (bcd2dec s.blk.p) := by
    rw [BitVec.toNat_ofNat]; omega
  simp only [clampReg, scaleReg, bcd2decReg, State.setBlk, e1, e2, clampedOf]

/-- The state an adopting `A_CONVERT` leaves (rule R95). -/
def adopted (s : State) : State :=
  { s with
    blk := { s.blk with
      deg := BitVec.ofNat 11 (bcd2dec s.blk.p)
      prod := BitVec.ofNat 24 (scaleProduct (bcd2dec s.blk.p))
      raw := BitVec.ofNat 11 (scale (bcd2dec s.blk.p))
      clamped := BitVec.ofNat 9 (clampedOf s.blk.p)
      adopt := true
      prevDuty := BitVec.ofNat 16 (clampedOf s.blk.p)
      duty := BitVec.ofNat 16 (clampedOf s.blk.p)
      phase := .aPeriod }
    pwm := { s.pwm with
      cnt := Config.counterAfterReset s.draws
      cycleFlag := s.pwm.cycleFlag && Config.flagSurvivesReset s.draws }
    draws := s.draws + 1
    trace := s.trace ++ [.pwm .counterReset] }

/-- The state a holding `A_CONVERT` leaves (rule R95). -/
def held (s : State) : State :=
  { s with
    blk := { s.blk with
      deg := BitVec.ofNat 11 (bcd2dec s.blk.p)
      prod := BitVec.ofNat 24 (scaleProduct (bcd2dec s.blk.p))
      raw := BitVec.ofNat 11 (scale (bcd2dec s.blk.p))
      clamped := BitVec.ofNat 9 (clampedOf s.blk.p)
      adopt := false
      duty := s.blk.prevDuty
      phase := .aPeriod } }

/-- Everything `A_CONVERT` can do. -/
theorem aConvert_eq (s : State) :
    aConvert s = .go (if adopts (clampedOf s.blk.p) s.blk.prevDuty.toNat then adopted s
      else held s) := by
  have h := clampedOf_le s.blk.p
  have e9 : (BitVec.ofNat 9 (clampedOf s.blk.p)).toNat = clampedOf s.blk.p := by
    rw [BitVec.toNat_ofNat]; omega
  have e16 : (BitVec.ofNat 9 (clampedOf s.blk.p)).setWidth 16 =
      BitVec.ofNat 16 (clampedOf s.blk.p) := by
    apply BitVec.eq_of_toNat_eq
    rw [BitVec.toNat_setWidth, e9, BitVec.toNat_ofNat]
  unfold aConvert hyst
  rw [clampReg_eq]
  simp only [e9]
  by_cases ha : adopts (clampedOf s.blk.p) s.blk.prevDuty.toNat = true
  · simp only [ha, if_true, e16, adopted, pwmCounterReset, record, State.setBlk, State.setPwm,
      State.setDraws, State.setTrace, State.enter]
  · simp only [ha, held, State.setBlk, State.enter]
    rfl

end Sys2Proof.Machine
end

