-- ==== Sys2Proof/Laws/Memory.lean ====
section
/-! SUPPORT. What the memory operations do: read after write, the canonical form kept, the bytes of a
unit, and the answers of a fault-free memory. -/

namespace Sys2Proof.Machine

theorem lookupCell_writeCell (cs : List Host.Cell) (x y : Nat) (v : Byte) (lo : Nat)
    (h : risingFrom lo cs = true) :
    lookupCell (writeCell cs x v) y = if y = x then some v else lookupCell cs y := by
  induction cs generalizing lo with
  | nil => simp only [writeCell, lookupCell, eq_comm (a := x)]
  | cons c cs ih =>
    obtain ⟨a, b⟩ := c
    simp only [risingFrom, Bool.and_eq_true, decide_eq_true_eq] at h
    simp only [writeCell]
    split
    · simp only [lookupCell, eq_comm (a := x)]
    · split
      · subst_vars
        by_cases hy : y = a <;> simp [lookupCell, hy, eq_comm (a := a)]
      · simp only [lookupCell, ih _ h.2]
        by_cases ha : a = y
        · have : y ≠ x := by omega
          simp [ha, this]
        · simp [ha]

theorem risingFrom_writeCell (cs : List Host.Cell) (x : Nat) (v : Byte) (lo : Nat)
    (h : risingFrom lo cs = true) (hlo : lo ≤ x) (hx : x < 65536) :
    risingFrom lo (writeCell cs x v) = true := by
  induction cs generalizing lo with
  | nil => simp [writeCell, risingFrom, hlo, hx]
  | cons c cs ih =>
    obtain ⟨a, b⟩ := c
    simp only [risingFrom, Bool.and_eq_true, decide_eq_true_eq] at h
    obtain ⟨⟨h1, h2⟩, h3⟩ := h
    simp only [writeCell]
    split
    · simp [risingFrom, hlo, hx, h2, h3]; omega
    · split
      · subst_vars; simp [risingFrom, hlo, hx, h3]
      · have := ih (a + 1) h3 (by omega)
        simp [risingFrom, h1, h2, this]

/-- Storing a byte keeps the canonical form. -/
theorem Memory.wf_storeByte (m : Memory) (a : Word) (v : Byte) (h : m.wf = true) :
    (m.storeByte a.toNat v).wf = true :=
  risingFrom_writeCell _ _ _ _ h (Nat.zero_le _) a.isLt

/-- Storing a unit keeps the canonical form. -/
theorem Memory.wf_storeUnit (m : Memory) (o : ByteOrder) (a v : Word) (h : m.wf = true) :
    (m.storeUnit o a v).wf = true :=
  Memory.wf_storeByte _ _ _ (Memory.wf_storeByte _ _ _ h)

@[simp] theorem Memory.wf_afterRead (m : Memory) : m.afterRead.wf = m.wf := rfl

/-- Read after write of one byte. -/
theorem Memory.storedByte_storeByte (m : Memory) (x y : Nat) (v : Byte) (h : m.wf = true) :
    (m.storeByte x v).storedByte y = if y = x then v else m.storedByte y := by
  unfold Memory.storedByte Memory.storeByte
  rw [lookupCell_writeCell _ _ _ _ _ h]
  split <;> simp

@[simp] theorem Memory.storedByte_afterRead (m : Memory) (x : Nat) :
    m.afterRead.storedByte x = m.storedByte x := rfl

@[simp] theorem Memory.stuck_afterRead (m : Memory) : m.afterRead.stuck = m.stuck := rfl

@[simp] theorem Memory.answers_afterRead (m : Memory) : m.afterRead.answers = m.answers.tail := rfl

@[simp] theorem Memory.stuck_storeByte (m : Memory) (x : Nat) (v : Byte) :
    (m.storeByte x v).stuck = m.stuck := rfl

@[simp] theorem Memory.answers_storeByte (m : Memory) (x : Nat) (v : Byte) :
    (m.storeByte x v).answers = m.answers := rfl

@[simp] theorem Memory.stuck_storeUnit (m : Memory) (o : ByteOrder) (a v : Word) :
    (m.storeUnit o a v).stuck = m.stuck := rfl

@[simp] theorem Memory.answers_storeUnit (m : Memory) (o : ByteOrder) (a v : Word) :
    (m.storeUnit o a v).answers = m.answers := rfl

theorem word_add_one_ne (a : Word) : (a + 1#16).toNat ≠ a.toNat := by
  have := a.isLt
  simp only [BitVec.toNat_add, BitVec.toNat_ofNat]
  omega

/-- Read after write of a unit, byte by byte (spec/20_memory.md rule R31). -/
theorem Memory.storedByte_storeUnit (m : Memory) (o : ByteOrder) (a v : Word) (y : Nat)
    (h : m.wf = true) :
    (m.storeUnit o a v).storedByte y =
      if y = (a + 1#16).toNat then upperByte o v
      else if y = a.toNat then lowerByte o v else m.storedByte y := by
  unfold Memory.storeUnit
  rw [Memory.storedByte_storeByte _ _ _ _ (Memory.wf_storeByte _ _ _ h),
    Memory.storedByte_storeByte _ _ _ _ h]

/-- The two bytes of a unit, joined, are the unit (rules R31, R32). -/
@[simp] theorem joinUnit_bytes (o : ByteOrder) (v : Word) :
    joinUnit o (lowerByte o v) (upperByte o v) = v := by
  cases o <;>
  · apply BitVec.eq_of_getLsbD_eq
    intro i hi
    simp only [joinUnit, lowerByte, upperByte, BitVec.getLsbD_append, BitVec.getLsbD_extractLsb']
    by_cases h : i < 8
    · simp [h]
    · have h1 : i - 8 < 8 := by omega
      have h2 : 8 + (i - 8) = i := by omega
      simp [h, h1, h2]

@[simp] theorem applyStuck_nil (x : Nat) (b : Byte) : applyStuck [] x b = b := rfl

/-- A location no fault names answers what it holds. -/
theorem applyStuck_of_ne (fs : List StuckAt) (x : Nat) (b : Byte)
    (h : ∀ f ∈ fs, f.loc.toNat ≠ x) : applyStuck fs x b = b := by
  induction fs generalizing b with
  | nil => rfl
  | cons f fs ih =>
    have hf := h f (by simp)
    simp only [applyStuck, hf, if_false]
    exact ih _ fun g hg => h g (by simp [hg])

/-- Without a scripted answer the cells answer. -/
theorem Memory.answer2_of_none (m : Memory) (o : ByteOrder) (a : Word)
    (h : ∀ x ∈ m.answers, x = none) : m.answer2 o a = m.unitAnswered o a := by
  unfold Memory.answer2
  split
  · rename_i v t hv
    have := h (some v) (by simp [hv])
    simp at this
  · rfl

theorem Memory.answer1_of_none (m : Memory) (a : Word)
    (h : ∀ x ∈ m.answers, x = none) : m.answer1 a = m.byteAnswered a.toNat := by
  unfold Memory.answer1
  split
  · rename_i v t hv
    have := h (some v) (by simp [hv])
    simp at this
  · rfl

end Sys2Proof.Machine
end

