-- ==== Sys2Proof/Laws/Ops.lean ====
section
/-! SUPPORT. What the shared operations do: `send`, the turn of the outside world, the memory and PWM
port operations field by field, and running the sequencer. -/

namespace Sys2Proof.Machine

/-! ### Memory transactions -/

@[simp] theorem memWrite2_mem (a v : Word) (s : State) :
    (memWrite2 a v s).mem = s.mem.storeUnit s.cfg.byteOrder a v := rfl
@[simp] theorem memWrite2_trace (a v : Word) (s : State) :
    (memWrite2 a v s).trace = s.trace ++ [.mem (.write2 a v)] := rfl
@[simp] theorem memWrite2_cfg (a v : Word) (s : State) : (memWrite2 a v s).cfg = s.cfg := rfl
@[simp] theorem memWrite2_blk (a v : Word) (s : State) : (memWrite2 a v s).blk = s.blk := rfl
@[simp] theorem memWrite2_pwm (a v : Word) (s : State) : (memWrite2 a v s).pwm = s.pwm := rfl
@[simp] theorem memWrite2_env (a v : Word) (s : State) : (memWrite2 a v s).env = s.env := rfl
@[simp] theorem memWrite2_room (a v : Word) (s : State) : (memWrite2 a v s).room = s.room := rfl
@[simp] theorem memWrite2_world (a v : Word) (s : State) : (memWrite2 a v s).world = s.world := rfl
@[simp] theorem memWrite2_draws (a v : Word) (s : State) : (memWrite2 a v s).draws = s.draws := rfl

@[simp] theorem memRead2_mem (a : Word) (s : State) : (memRead2 a s).mem = s.mem.afterRead := rfl
@[simp] theorem memRead2_trace (a : Word) (s : State) :
    (memRead2 a s).trace = s.trace ++ [.mem (.read2 a (memValue2 a s))] := rfl
@[simp] theorem memRead2_cfg (a : Word) (s : State) : (memRead2 a s).cfg = s.cfg := rfl
@[simp] theorem memRead2_blk (a : Word) (s : State) : (memRead2 a s).blk = s.blk := rfl
@[simp] theorem memRead2_pwm (a : Word) (s : State) : (memRead2 a s).pwm = s.pwm := rfl
@[simp] theorem memRead2_env (a : Word) (s : State) : (memRead2 a s).env = s.env := rfl
@[simp] theorem memRead2_room (a : Word) (s : State) : (memRead2 a s).room = s.room := rfl
@[simp] theorem memRead2_world (a : Word) (s : State) : (memRead2 a s).world = s.world := rfl
@[simp] theorem memRead2_draws (a : Word) (s : State) : (memRead2 a s).draws = s.draws := rfl

/-! ### One-byte transactions and the PWM port -/

@[simp] theorem pwmWritePeriod_cfg (v : Word) (s : State) : (pwmWritePeriod v s).cfg = s.cfg := rfl
@[simp] theorem pwmWritePeriod_blk (v : Word) (s : State) : (pwmWritePeriod v s).blk = s.blk := rfl
@[simp] theorem pwmWritePeriod_pwm (v : Word) (s : State) :
    (pwmWritePeriod v s).pwm = { s.pwm with period := v } := rfl
@[simp] theorem pwmWritePeriod_mem (v : Word) (s : State) : (pwmWritePeriod v s).mem = s.mem := rfl
@[simp] theorem pwmWritePeriod_env (v : Word) (s : State) : (pwmWritePeriod v s).env = s.env := rfl
@[simp] theorem pwmWritePeriod_trace (v : Word) (s : State) :
    (pwmWritePeriod v s).trace = s.trace ++ [.pwm (.writePeriod v)] := rfl
@[simp] theorem pwmWritePeriod_room (v : Word) (s : State) :
    (pwmWritePeriod v s).room = s.room := rfl
@[simp] theorem pwmWritePeriod_world (v : Word) (s : State) :
    (pwmWritePeriod v s).world = s.world := rfl
@[simp] theorem pwmWritePeriod_draws (v : Word) (s : State) :
    (pwmWritePeriod v s).draws = s.draws := rfl

@[simp] theorem pwmWriteCompare_cfg (v : Word) (s : State) :
    (pwmWriteCompare v s).cfg = s.cfg := rfl
@[simp] theorem pwmWriteCompare_blk (v : Word) (s : State) :
    (pwmWriteCompare v s).blk = s.blk := rfl
@[simp] theorem pwmWriteCompare_pwm (v : Word) (s : State) :
    (pwmWriteCompare v s).pwm = { s.pwm with compare := v } := rfl
@[simp] theorem pwmWriteCompare_mem (v : Word) (s : State) :
    (pwmWriteCompare v s).mem = s.mem := rfl
@[simp] theorem pwmWriteCompare_env (v : Word) (s : State) :
    (pwmWriteCompare v s).env = s.env := rfl
@[simp] theorem pwmWriteCompare_trace (v : Word) (s : State) :
    (pwmWriteCompare v s).trace = s.trace ++ [.pwm (.writeCompare v)] := rfl
@[simp] theorem pwmWriteCompare_room (v : Word) (s : State) :
    (pwmWriteCompare v s).room = s.room := rfl
@[simp] theorem pwmWriteCompare_world (v : Word) (s : State) :
    (pwmWriteCompare v s).world = s.world := rfl
@[simp] theorem pwmWriteCompare_draws (v : Word) (s : State) :
    (pwmWriteCompare v s).draws = s.draws := rfl

@[simp] theorem pwmWriteMode_cfg (m : PwmMode) (s : State) : (pwmWriteMode m s).cfg = s.cfg := rfl
@[simp] theorem pwmWriteMode_blk (m : PwmMode) (s : State) : (pwmWriteMode m s).blk = s.blk := rfl
@[simp] theorem pwmWriteMode_pwm (m : PwmMode) (s : State) :
    (pwmWriteMode m s).pwm = { s.pwm with mode := m } := rfl
@[simp] theorem pwmWriteMode_mem (m : PwmMode) (s : State) : (pwmWriteMode m s).mem = s.mem := rfl
@[simp] theorem pwmWriteMode_env (m : PwmMode) (s : State) : (pwmWriteMode m s).env = s.env := rfl
@[simp] theorem pwmWriteMode_trace (m : PwmMode) (s : State) :
    (pwmWriteMode m s).trace = s.trace ++ [.pwm (.writeMode m)] := rfl
@[simp] theorem pwmWriteMode_room (m : PwmMode) (s : State) :
    (pwmWriteMode m s).room = s.room := rfl
@[simp] theorem pwmWriteMode_world (m : PwmMode) (s : State) :
    (pwmWriteMode m s).world = s.world := rfl
@[simp] theorem pwmWriteMode_draws (m : PwmMode) (s : State) :
    (pwmWriteMode m s).draws = s.draws := rfl

@[simp] theorem pwmPoll_cfg (s : State) : (pwmPoll s).cfg = s.cfg := rfl
@[simp] theorem pwmPoll_blk (s : State) : (pwmPoll s).blk = s.blk := rfl
@[simp] theorem pwmPoll_pwm (s : State) : (pwmPoll s).pwm = s.pwm := rfl
@[simp] theorem pwmPoll_mem (s : State) : (pwmPoll s).mem = s.mem := rfl
@[simp] theorem pwmPoll_env (s : State) : (pwmPoll s).env = s.env := rfl
@[simp] theorem pwmPoll_trace (s : State) :
    (pwmPoll s).trace = s.trace ++ [.pwm (.poll s.pwm.cycleFlag)] := rfl
@[simp] theorem pwmPoll_room (s : State) : (pwmPoll s).room = s.room := rfl
@[simp] theorem pwmPoll_world (s : State) : (pwmPoll s).world = s.world := rfl
@[simp] theorem pwmPoll_draws (s : State) : (pwmPoll s).draws = s.draws := rfl

@[simp] theorem pwmClearFlag_cfg (s : State) : (pwmClearFlag s).cfg = s.cfg := rfl
@[simp] theorem pwmClearFlag_blk (s : State) : (pwmClearFlag s).blk = s.blk := rfl
@[simp] theorem pwmClearFlag_pwm (s : State) :
    (pwmClearFlag s).pwm = { s.pwm with cycleFlag := false } := rfl
@[simp] theorem pwmClearFlag_mem (s : State) : (pwmClearFlag s).mem = s.mem := rfl
@[simp] theorem pwmClearFlag_env (s : State) : (pwmClearFlag s).env = s.env := rfl
@[simp] theorem pwmClearFlag_trace (s : State) :
    (pwmClearFlag s).trace = s.trace ++ [.pwm .clearFlag] := rfl
@[simp] theorem pwmClearFlag_room (s : State) : (pwmClearFlag s).room = s.room := rfl
@[simp] theorem pwmClearFlag_world (s : State) : (pwmClearFlag s).world = s.world := rfl
@[simp] theorem pwmClearFlag_draws (s : State) : (pwmClearFlag s).draws = s.draws := rfl

@[simp] theorem memWrite1_cfg (a : Word) (v : Byte) (s : State) :
    (memWrite1 a v s).cfg = s.cfg := rfl
@[simp] theorem memWrite1_blk (a : Word) (v : Byte) (s : State) :
    (memWrite1 a v s).blk = s.blk := rfl
@[simp] theorem memWrite1_pwm (a : Word) (v : Byte) (s : State) :
    (memWrite1 a v s).pwm = s.pwm := rfl
@[simp] theorem memWrite1_mem (a : Word) (v : Byte) (s : State) :
    (memWrite1 a v s).mem = s.mem.storeByte a.toNat v := rfl
@[simp] theorem memWrite1_env (a : Word) (v : Byte) (s : State) :
    (memWrite1 a v s).env = s.env := rfl
@[simp] theorem memWrite1_trace (a : Word) (v : Byte) (s : State) :
    (memWrite1 a v s).trace = s.trace ++ [.mem (.write1 a v)] := rfl
@[simp] theorem memWrite1_room (a : Word) (v : Byte) (s : State) :
    (memWrite1 a v s).room = s.room := rfl
@[simp] theorem memWrite1_world (a : Word) (v : Byte) (s : State) :
    (memWrite1 a v s).world = s.world := rfl
@[simp] theorem memWrite1_draws (a : Word) (v : Byte) (s : State) :
    (memWrite1 a v s).draws = s.draws := rfl

@[simp] theorem memRead1_cfg (a : Word) (s : State) : (memRead1 a s).cfg = s.cfg := rfl
@[simp] theorem memRead1_blk (a : Word) (s : State) : (memRead1 a s).blk = s.blk := rfl
@[simp] theorem memRead1_pwm (a : Word) (s : State) : (memRead1 a s).pwm = s.pwm := rfl
@[simp] theorem memRead1_mem (a : Word) (s : State) : (memRead1 a s).mem = s.mem.afterRead := rfl
@[simp] theorem memRead1_env (a : Word) (s : State) : (memRead1 a s).env = s.env := rfl
@[simp] theorem memRead1_trace (a : Word) (s : State) :
    (memRead1 a s).trace = s.trace ++ [.mem (.read1 a (memValue1 a s))] := rfl
@[simp] theorem memRead1_room (a : Word) (s : State) : (memRead1 a s).room = s.room := rfl
@[simp] theorem memRead1_world (a : Word) (s : State) : (memRead1 a s).world = s.world := rfl
@[simp] theorem memRead1_draws (a : Word) (s : State) : (memRead1 a s).draws = s.draws := rfl

/-! ### Output -/

/-- Everything `send` can do: the event joins the history, and at most the credit changes. -/
theorem send_eq_some {r : Report} {s s1 : State} (h : send r s = some s1) :
    ∃ room, s1 = (record (.out r) s).setRoom room ∧ (s.room = none → room = none) := by
  unfold send at h
  split at h
  · rename_i hn
    refine ⟨none, ?_, by simp⟩
    simp only [Option.some.injEq] at h
    obtain ⟨_, _, _, _, _, _, room, _, _⟩ := s
    obtain rfl : room = none := hn
    exact h.symm
  · simp at h
  · rename_i n hn
    refine ⟨some n, ?_, by simp [hn]⟩
    simp only [Option.some.injEq] at h
    rw [← h]; rfl

/-- While the host accepts everything, `send` never waits. -/
theorem send_of_accepts {r : Report} {s : State} (h : s.room = none) :
    send r s = some (record (.out r) s) := by
  simp [send, h]

/-- While the host accepts nothing, `send` waits. -/
theorem send_of_full {r : Report} {s : State} (h : s.room = some 0) : send r s = none := by
  simp [send, h]

/-- While the host accepts one more event, `send` uses up one acceptance. -/
theorem send_of_room {r : Report} {s : State} (h : s.room ≠ some 0) :
    send r s = some ((record (.out r) s).setRoom (s.room.map (· - 1))) := by
  unfold send
  split
  · rename_i hn
    simp [hn, record, State.setTrace, State.setRoom]
  · contradiction
  · rename_i n hn
    simp [hn, record, State.setTrace, State.setRoom]

/-- A phase with a report goes on while the host accepts one more event. -/
theorem reportThen_of_room {r : Report} {f : State → State} {s : State} (h : s.room ≠ some 0) :
    reportThen r f s = .go (f ((record (.out r) s).setRoom (s.room.map (· - 1)))) := by
  simp [reportThen, send_of_room h]

/-- A phase with a report goes on at once while the host accepts everything. -/
theorem reportThen_of_accepts {r : Report} {f : State → State} {s : State} (h : s.room = none) :
    reportThen r f s = .go (f (record (.out r) s)) := by
  simp [reportThen, send_of_accepts h]

/-- The state a sequencer step leads to, whether it went on or stands. -/
def Micro.state : Micro → State
  | .go s => s
  | .stop s => s

@[simp] theorem Micro.state_go (s : State) : (Micro.go s).state = s := rfl
@[simp] theorem Micro.state_stop (s : State) : (Micro.stop s).state = s := rfl

/-- Both ways a phase with a report can end. -/
theorem reportThen_state (r : Report) (f : State → State) (s : State) :
    (reportThen r f s).state = s ∨
      ∃ room, (reportThen r f s).state = f ((record (.out r) s).setRoom room) := by
  unfold reportThen
  split
  · rename_i s1 h
    obtain ⟨room, h1, -⟩ := send_eq_some h
    exact .inr ⟨room, by rw [h1]; rfl⟩
  · exact .inl rfl

/-- Marking a range touches its mark and nothing else (spec/40_memory_walker.md rule R78). -/
theorem setFail_eq (b : Block) (i : Fin 2) (v : Bool) :
    b.setFail i v = { b with
      fail0 := if i = 0 then v else b.fail0
      fail1 := if i = 0 then b.fail1 else v } := by
  unfold Block.setFail
  split <;> rfl

/-! ### The outside world -/

/-- Everything a turn can do: the indicator may be set, the counter moves, bytes arrive, output is
accepted, the script advances. -/
theorem worldTurn_spec (s : State) :
    worldTurn s = s ∨ ∃ a w, s.world = .run a :: w ∧ worldTurn s = a.apply (s.setWorld w) := by
  unfold worldTurn
  split
  · rename_i a w h
    exact .inr ⟨a, w, h, rfl⟩
  · exact .inl rfl

@[simp] theorem worldTurn_cfg (s : State) : (worldTurn s).cfg = s.cfg := by
  unfold worldTurn; split <;> rfl
@[simp] theorem worldTurn_blk (s : State) : (worldTurn s).blk = s.blk := by
  unfold worldTurn; split <;> rfl
@[simp] theorem worldTurn_mem (s : State) : (worldTurn s).mem = s.mem := by
  unfold worldTurn; split <;> rfl
@[simp] theorem worldTurn_trace (s : State) : (worldTurn s).trace = s.trace := by
  unfold worldTurn; split <;> rfl
@[simp] theorem worldTurn_draws (s : State) : (worldTurn s).draws = s.draws := by
  unfold worldTurn; split <;> rfl
@[simp] theorem worldTurn_period (s : State) : (worldTurn s).pwm.period = s.pwm.period := by
  unfold worldTurn; split <;> rfl
@[simp] theorem worldTurn_compare (s : State) : (worldTurn s).pwm.compare = s.pwm.compare := by
  unfold worldTurn; split <;> rfl
@[simp] theorem worldTurn_mode (s : State) : (worldTurn s).pwm.mode = s.pwm.mode := by
  unfold worldTurn; split <;> rfl
@[simp] theorem worldTurn_interp (s : State) : (worldTurn s).env.interp = s.env.interp := by
  unfold worldTurn; split <;> rfl
@[simp] theorem worldTurn_stage (s : State) : (worldTurn s).env.stage = s.env.stage := by
  unfold worldTurn; split <;> rfl
@[simp] theorem worldTurn_sel (s : State) : (worldTurn s).env.sel = s.env.sel := by
  unfold worldTurn; split <;> rfl
@[simp] theorem worldTurn_received (s : State) : (worldTurn s).env.received = s.env.received := by
  unfold worldTurn; split <;> rfl
@[simp] theorem worldTurn_prompted (s : State) : (worldTurn s).env.prompted = s.env.prompted := by
  unfold worldTurn; split <;> rfl
@[simp] theorem worldTurn_opAddr (s : State) : (worldTurn s).env.opAddr = s.env.opAddr := by
  unfold worldTurn; split <;> rfl
@[simp] theorem worldTurn_opData (s : State) : (worldTurn s).env.opData = s.env.opData := by
  unfold worldTurn; split <;> rfl

/-- A host that accepts everything goes on doing so. -/
theorem worldTurn_room {s : State} (h : s.room = none) : (worldTurn s).room = none := by
  unfold worldTurn; split
  · simp [Activity.apply, h]
  · exact h

/-- The peripheral never clears the indicator (spec/42_pwm_sync.md rule R118 (b)). -/
theorem worldTurn_flag {s : State} (h : s.pwm.cycleFlag = true) :
    (worldTurn s).pwm.cycleFlag = true := by
  unfold worldTurn; split
  · simp [Activity.apply, h]
  · exact h

/-- A turn without a completed cycle does not set the indicator. -/
theorem worldTurn_flag_false {s : State} (h : s.pwm.cycleFlag = false)
    (hw : ∀ a w, s.world = .run a :: w → a.cycleDone = false) :
    (worldTurn s).pwm.cycleFlag = false := by
  unfold worldTurn; split
  · rename_i a w hs
    simp [Activity.apply, h, hw a w hs]
  · exact h

theorem worldTurn_world_subset (s : State) : ∀ t ∈ (worldTurn s).world, t ∈ s.world := by
  unfold worldTurn; split
  · rename_i a w hs
    intro t ht
    have : t ∈ w := ht
    simp [hs, this]
  · simp

/-- No reset is pending when none is in the script. -/
theorem resetNext_of_noReset {s : State} (h : Turn.reset ∉ s.world) : resetNext s = false := by
  unfold resetNext
  split
  · rename_i w hw
    exact absurd (by simp [hw]) h
  · rfl

/-! ### Running the sequencer -/

/-- What every sequencer step keeps, a run of the sequencer keeps. -/
theorem seqRun_keeps {Q : State → Prop} (h : ∀ s, Q s → Q (seqStep s).state) (n : Nat) (s : State)
    (hs : Q s) : Q (seqRun n s) := by
  induction n generalizing s with
  | zero => exact hs
  | succ n ih =>
    unfold seqRun
    have := h s hs
    split
    · rename_i s1 h1; rw [h1] at this; exact ih s1 this
    · rename_i s1 h1; rw [h1] at this; exact this

/-- What a phase keeps and a turn of the world keeps, a sequencer step keeps. -/
theorem seqStep_keeps {Q : State → Prop} (hw : ∀ s, Q s → Q (worldTurn s))
    (hp : ∀ s, Q s → Q (phaseStep s).state) (s : State) (hs : Q s) : Q (seqStep s).state := by
  unfold seqStep
  split
  · exact hs
  · exact hp _ (hw s hs)

/-- Everything `runBlock` can answer. -/
theorem runBlock_next {s t : State} (h : runBlock s = .next t) :
    (s.walkDue = true → s.cfg.rangesOk = true) ∧ t = collectDone (seqRun seqFuel s) := by
  unfold runBlock at h
  split at h
  · cases h
  · rename_i hc
    refine ⟨fun hw => ?_, by injection h with h; exact h.symm⟩
    simpa [hw] using hc

/-- One step of a run that goes on. -/
theorem seqRun_go {n : Nat} {s s1 : State} (h : seqStep s = .go s1) :
    seqRun (n + 1) s = seqRun n s1 := by
  simp [seqRun, h]

/-- A run that stands. -/
theorem seqRun_stop {n : Nat} {s s1 : State} (h : seqStep s = .stop s1) :
    seqRun (n + 1) s = s1 := by
  simp [seqRun, h]

/-- A sequencer step while no reset is due and the block has something to do. -/
theorem seqStep_of_busy {s : State} (hq : s.quiet = false) (hr : resetNext s = false) :
    seqStep s = phaseStep (worldTurn s) := by
  simp [seqStep, hq, hr]

/-- A quiet block stands. -/
theorem seqRun_of_quiet {n : Nat} {s : State} (hq : s.quiet = true) : seqRun n s = s := by
  cases n with
  | zero => rfl
  | succ n => simp [seqRun, seqStep, hq]

end Sys2Proof.Machine
end

