-- ==== Sys2Proof/Laws/Sequencer.lean ====
section
/-! SUPPORT. One step of the sequencer in each phase, and running a block that has something to do. -/

namespace Sys2Proof.Machine

/-! ### Taking an offer, field by field -/

@[simp] theorem takeOffer_cfg (s : State) : s.takeOffer.cfg = s.cfg := rfl
@[simp] theorem takeOffer_pwm (s : State) : s.takeOffer.pwm = s.pwm := rfl
@[simp] theorem takeOffer_mem (s : State) : s.takeOffer.mem = s.mem := rfl
@[simp] theorem takeOffer_env (s : State) : s.takeOffer.env = s.env := rfl
@[simp] theorem takeOffer_trace (s : State) : s.takeOffer.trace = s.trace := rfl
@[simp] theorem takeOffer_room (s : State) : s.takeOffer.room = s.room := rfl
@[simp] theorem takeOffer_world (s : State) : s.takeOffer.world = s.world := rfl
@[simp] theorem takeOffer_draws (s : State) : s.takeOffer.draws = s.draws := rfl
@[simp] theorem takeOffer_blk (s : State) :
    s.takeOffer.blk = { s.blk with cmdValid := false, done := false } := rfl

/-! ### What each phase does -/

theorem phaseStep_idle {s : State} (h : s.blk.phase = .idle) (hv : s.blk.cmdValid = true) :
    phaseStep s = acceptCommand s := by simp [phaseStep, h, hv]
theorem phaseStep_dBounds {s : State} (h : s.blk.phase = .dBounds) : phaseStep s = dBounds s := by
  simp [phaseStep, h]
theorem phaseStep_dCheck {s : State} (h : s.blk.phase = .dCheck) : phaseStep s = dCheck s := by
  simp [phaseStep, h]
theorem phaseStep_dWrite {s : State} (h : s.blk.phase = .dWrite) : phaseStep s = dWrite s := by
  simp [phaseStep, h]
theorem phaseStep_dRead {s : State} (h : s.blk.phase = .dRead) : phaseStep s = dRead s := by
  simp [phaseStep, h]
theorem phaseStep_dCmp {s : State} (h : s.blk.phase = .dCmp) : phaseStep s = dCmp s := by
  simp [phaseStep, h]
theorem phaseStep_dVerdict {s : State} (h : s.blk.phase = .dVerdict) :
    phaseStep s = dVerdict s := by simp [phaseStep, h]
theorem phaseStep_aConvert {s : State} (h : s.blk.phase = .aConvert) :
    phaseStep s = aConvert s := by simp [phaseStep, h]
theorem phaseStep_aPeriod {s : State} (h : s.blk.phase = .aPeriod) : phaseStep s = aPeriod s := by
  simp [phaseStep, h]
theorem phaseStep_aCompare {s : State} (h : s.blk.phase = .aCompare) :
    phaseStep s = aCompare s := by simp [phaseStep, h]
theorem phaseStep_aMode {s : State} (h : s.blk.phase = .aMode) : phaseStep s = aMode s := by
  simp [phaseStep, h]
theorem phaseStep_aWait {s : State} (h : s.blk.phase = .aWait) : phaseStep s = aWait s := by
  simp [phaseStep, h]
theorem phaseStep_aClear {s : State} (h : s.blk.phase = .aClear) : phaseStep s = aClear s := by
  simp [phaseStep, h]
theorem phaseStep_aEcho {s : State} (h : s.blk.phase = .aEcho) : phaseStep s = aEcho s := by
  simp [phaseStep, h]

/-- Acceptance of DIAG (spec/30_encoding.md rule R58). -/
theorem acceptCommand_diag {s : State} (h : s.blk.cmdSel = selDiag) :
    acceptCommand s =
      .go (s.takeOffer.setBlk { s.takeOffer.blk with ri := 0, phase := .dBounds }) := by
  simp [acceptCommand, h]

/-- Acceptance of ANGLE (spec/30_encoding.md rule R58). -/
theorem acceptCommand_angle {s : State} (h : s.blk.cmdSel = selAngle) :
    acceptCommand s =
      .go (s.takeOffer.setBlk { s.takeOffer.blk with p := s.blk.cmdArg, phase := .aConvert }) := by
  simp [acceptCommand, h, selAngle, selDiag]

/-! ### A block that has something to do -/

theorem quiet_of_phase {s : State} (h : s.blk.phase ≠ .idle) : s.quiet = false := by
  simp [State.quiet, h]

theorem quiet_of_valid {s : State} (h : s.blk.cmdValid = true) : s.quiet = false := by
  simp [State.quiet, h]

/-- A turn of the outside world adds no reset to its script. -/
theorem worldTurn_noReset {s : State} (h : s.noReset) : (worldTurn s).noReset :=
  fun hh => h (worldTurn_world_subset s _ hh)

/-- A turn of the outside world adds no PWM cycle to its script. -/
theorem worldTurn_noCycle {s : State} (h : s.noCycle) : (worldTurn s).noCycle :=
  fun t ht => h t (worldTurn_world_subset s t ht)

/-- With no cycle in the script the indicator stays clear. -/
theorem worldTurn_flag_of_noCycle {s : State} (h : s.noCycle) (hf : s.pwm.cycleFlag = false) :
    (worldTurn s).pwm.cycleFlag = false := by
  apply worldTurn_flag_false hf
  intro a w hw
  exact h (.run a) (by simp [hw])

/-- While no reset is due a turn uses up one entry of the script, if there is one. -/
theorem worldTurn_world {s : State} (h : s.noReset) : (worldTurn s).world = s.world.drop 1 := by
  cases hw : s.world with
  | nil => simp [worldTurn, hw]
  | cons t w =>
    cases t with
    | run a => simp [worldTurn, hw, Activity.apply]
    | reset => exact absurd (by simp [hw]) h

/-- While no reset is due a turn sets the indicator exactly when it completes a cycle. -/
theorem worldTurn_flag_eq {s : State} (h : s.noReset) :
    (worldTurn s).pwm.cycleFlag = ((s.world.take 1).any Turn.cycles || s.pwm.cycleFlag) := by
  cases hw : s.world with
  | nil => simp [worldTurn, hw]
  | cons t w =>
    cases t with
    | run a => simp [worldTurn, hw, Activity.apply, Turn.cycles]
    | reset => exact absurd (by simp [hw]) h

/-- One step of a run: the phase goes on. -/
theorem run_go {s s1 : State} {n : Nat} (hq : s.quiet = false) (hr : s.noReset)
    (h : phaseStep (worldTurn s) = .go s1) : seqRun (n + 1) s = seqRun n s1 :=
  seqRun_go (by rw [seqStep_of_busy hq (resetNext_of_noReset hr), h])

/-- The last step of a run: the phase stands. -/
theorem run_stop {s s1 : State} {n : Nat} (hq : s.quiet = false) (hr : s.noReset)
    (h : phaseStep (worldTurn s) = .stop s1) : seqRun (n + 1) s = s1 :=
  seqRun_stop (by rw [seqStep_of_busy hq (resetNext_of_noReset hr), h])

/-! ### The inversion of a phase -/

/-- Everything one phase can lead to. `room` is what is left of the host's credit after a report. -/
theorem phaseStep_cases (s : State) :
    (phaseStep s).state = s ∨
    (s.blk.phase = .idle ∧ s.blk.cmdValid = true ∧ s.blk.cmdSel = selDiag ∧
      (phaseStep s).state = s.takeOffer.setBlk { s.takeOffer.blk with ri := 0, phase := .dBounds }) ∨
    (s.blk.phase = .idle ∧ s.blk.cmdValid = true ∧ s.blk.cmdSel = selAngle ∧
      (phaseStep s).state =
        s.takeOffer.setBlk { s.takeOffer.blk with p := s.blk.cmdArg, phase := .aConvert }) ∨
    (s.blk.phase = .idle ∧ s.blk.cmdValid = true ∧ s.blk.cmdSel ≠ selDiag ∧
      s.blk.cmdSel ≠ selAngle ∧ ((phaseStep s).state = s.takeOffer.finish ∨
        ∃ r room, (phaseStep s).state = ((record (.out r) s).setRoom room).takeOffer.finish)) ∨
    (s.blk.phase = .dBounds ∧ ∃ r room, (phaseStep s).state =
      ((record (.out r) s).setRoom room).setBlk
        { s.blk with failed := false, addr := s.walkRange.start, phase := .dCheck }) ∨
    (s.blk.phase = .dCheck ∧ (phaseStep s).state =
      s.enter (if s.blk.addr ≤ s.walkRange.stop then .dWrite else .dVerdict)) ∨
    (s.blk.phase = .dWrite ∧ (phaseStep s).state =
      (memWrite2 s.blk.addr s.cfg.sentinel s).enter .dRead) ∨
    (s.blk.phase = .dRead ∧ (phaseStep s).state = (memRead2 s.blk.addr s).setBlk
      { s.blk with rd := memValue2 s.blk.addr s, phase := .dCmp }) ∨
    (s.blk.phase = .dCmp ∧ ((phaseStep s).state =
        s.setBlk { s.blk with addr := s.blk.addr + 2#16, phase := .dCheck } ∨
      ∃ r room, (phaseStep s).state = ((record (.out r) s).setRoom room).setBlk
        { s.blk.setFailAddr s.blk.ri s.blk.addr with failed := true, phase := .dVerdict })) ∨
    (s.blk.phase = .dVerdict ∧
      ((phaseStep s).state = s.setBlk (s.blk.setFail s.blk.ri s.blk.failed) ∨
      ∃ r room, (phaseStep s).state =
        (if s.blk.ri = 0 then ((record (.out r) s).setRoom room).setBlk
            { s.blk.setFail 0 s.blk.failed with ri := 1, phase := .dBounds }
          else (((record (.out r) s).setRoom room).setBlk
            (s.blk.setFail s.blk.ri s.blk.failed)).finish))) ∨
    (s.blk.phase = .aConvert ∧ (phaseStep s).state =
      (if adopts (clampedOf s.blk.p) s.blk.prevDuty.toNat then adopted s else held s)) ∨
    (s.blk.phase = .aPeriod ∧ (phaseStep s).state =
      (pwmWritePeriod Config.pwmPeriod s).enter .aCompare) ∨
    (s.blk.phase = .aCompare ∧ (phaseStep s).state =
      (pwmWriteCompare (compareValue s.blk.duty) s).enter .aMode) ∨
    (s.blk.phase = .aMode ∧ (phaseStep s).state = (pwmWriteMode .edgeAligned s).enter .aWait) ∨
    (s.blk.phase = .aWait ∧ (phaseStep s).state =
      (if s.pwm.cycleFlag then (pwmPoll s).enter .aClear else pwmPoll s)) ∨
    (s.blk.phase = .aClear ∧ (phaseStep s).state = (pwmClearFlag s).enter .aEcho) ∨
    (s.blk.phase = .aEcho ∧ ∃ r room, (phaseStep s).state =
      ((record (.out r) s).setRoom room).finish) := by
  cases hp : s.blk.phase
  case idle =>
    cases hv : s.blk.cmdValid
    · exact .inl (by simp [phaseStep, hp, hv])
    · rw [phaseStep_idle hp hv]
      by_cases h1 : s.blk.cmdSel = selDiag
      · simp [acceptCommand_diag h1, h1]
      · by_cases h4 : s.blk.cmdSel = selAngle
        · simp [acceptCommand_angle h4, h4, selAngle, selDiag]
        · simp only [acceptCommand, h1, h4, if_false]
          by_cases h5 : isSelector s.blk.cmdSel = true
          · simp [h5, h1, h4]
          · simp only [h5]
            rcases reportThen_state (.invalidSelector (s.blk.cmdSel.setWidth 16))
              (fun s1 => s1.takeOffer.finish) s with e | ⟨room, e⟩
            · exact .inl e
            · right; right; right; left
              exact ⟨trivial, trivial, h1, h4, .inr ⟨_, room, e⟩⟩
  case dBounds =>
    rw [phaseStep_dBounds hp]; unfold dBounds
    rcases reportThen_state (.bounds s.walkRange.start s.walkRange.stop) (fun s1 => s1.setBlk
      { s1.blk with failed := false, addr := s.walkRange.start, phase := .dCheck }) s with
      e | ⟨room, e⟩
    · exact .inl e
    · simp only [reduceCtorEq, false_and, false_or, true_and, or_false]
      exact .inr ⟨_, room, e⟩
  case dCmp =>
    rw [phaseStep_dCmp hp]; unfold dCmp
    by_cases hf : verifyFails s.blk.rd s.cfg.sentinel = true
    · simp only [hf, if_true]
      rcases reportThen_state (.failAddr s.blk.addr) (fun s1 => s1.setBlk
        { s1.blk.setFailAddr s1.blk.ri s.blk.addr with failed := true, phase := .dVerdict }) s with
        e | ⟨room, e⟩
      · exact .inl e
      · simp only [reduceCtorEq, false_and, false_or, true_and, or_false]
        exact .inr (.inr ⟨_, room, e⟩)
    · simp [hf]
  case dVerdict =>
    rw [phaseStep_dVerdict hp]; unfold dVerdict
    let s1 := s.setBlk (s.blk.setFail s.blk.ri s.blk.failed)
    rcases reportThen_state s1.verdict (fun s2 =>
      if s2.blk.ri = 0 then s2.setBlk { s2.blk with ri := 1, phase := .dBounds }
      else s2.finish) s1 with e | ⟨room, e⟩ <;>
    simp only [reduceCtorEq, false_and, false_or, true_and, or_false]
    · exact .inr (.inl e)
    · refine .inr (.inr ⟨s1.verdict, room, e.trans ?_⟩)
      by_cases h0 : s.blk.ri = 0
      · simp [s1, h0, Block.setFail]
        rfl
      · simp [s1, h0, Block.setFail]
        rfl
  case aConvert => simp [phaseStep_aConvert hp, aConvert_eq]
  case aWait =>
    rw [phaseStep_aWait hp]; unfold aWait cycleComplete
    cases hf : s.pwm.cycleFlag <;> simp
  case aEcho =>
    rw [phaseStep_aEcho hp]; unfold aEcho
    rcases reportThen_state (.angleEcho s.blk.p) (fun s1 => s1.finish) s with e | ⟨room, e⟩
    · exact .inl e
    · simp only [reduceCtorEq, false_and, false_or, true_and]
      exact .inr ⟨_, room, e⟩
  case dCheck => simp [phaseStep_dCheck hp, dCheck]
  case dWrite => simp [phaseStep_dWrite hp, dWrite]
  case dRead => simp [phaseStep_dRead hp, dRead]
  case aPeriod => simp [phaseStep_aPeriod hp, aPeriod]
  case aCompare => simp [phaseStep_aCompare hp, aCompare]
  case aMode => simp [phaseStep_aMode hp, aMode]
  case aClear => simp [phaseStep_aClear hp, aClear]

end Sys2Proof.Machine
end

