-- ==== Sys2Proof/Laws/AngleRun.lean ====
section
/-! SUPPORT. The run of ANGLE in two parts: from acceptance to `A_WAIT`, and from `A_WAIT` to the end
(spec/41_angle_to_duty.md rule R99; spec/42_pwm_sync.md rule R111). -/

namespace Sys2Proof.Machine

/-- The machine after `A_CONVERT` (spec/41_angle_to_duty.md rule R97). -/
def converted (s : State) : State := if adopts (clampedOf s.blk.p) s.blk.prevDuty.toNat then adopted s else held s

theorem converted_world (s : State) : (converted s).world = s.world := by unfold converted; split <;> rfl
theorem converted_mem (s : State) : (converted s).mem = s.mem := by unfold converted; split <;> rfl
theorem converted_cfg (s : State) : (converted s).cfg = s.cfg := by unfold converted; split <;> rfl
theorem converted_env (s : State) : (converted s).env = s.env := by unfold converted; split <;> rfl
theorem converted_room (s : State) : (converted s).room = s.room := by unfold converted; split <;> rfl
theorem converted_phase (s : State) : (converted s).blk.phase = .aPeriod := by unfold converted; split <;> rfl
theorem converted_p (s : State) : (converted s).blk.p = s.blk.p := by unfold converted; split <;> rfl
theorem converted_cmdValid (s : State) : (converted s).blk.cmdValid = s.blk.cmdValid := by unfold converted; split <;> rfl
theorem converted_done (s : State) : (converted s).blk.done = s.blk.done := by unfold converted; split <;> rfl
theorem converted_prevDuty (s : State) : (converted s).blk.prevDuty = if adopts (clampedOf s.blk.p) s.blk.prevDuty.toNat then BitVec.ofNat 16 (clampedOf s.blk.p) else s.blk.prevDuty := by unfold converted; split <;> rfl
theorem converted_duty (s : State) : (converted s).blk.duty = if adopts (clampedOf s.blk.p) s.blk.prevDuty.toNat then BitVec.ofNat 16 (clampedOf s.blk.p) else s.blk.prevDuty := by unfold converted; split <;> rfl
theorem converted_adopt (s : State) : (converted s).blk.adopt = adopts (clampedOf s.blk.p) s.blk.prevDuty.toNat := by 
  unfold converted; split
  · rename_i h; rw [h]; rfl
  · rename_i h; simp at h; rw [h]; rfl
theorem converted_trace (s : State) : (converted s).trace = s.trace ++ if adopts (clampedOf s.blk.p) s.blk.prevDuty.toNat then [.pwm .counterReset] else [] := by 
  unfold converted; split <;> simp [adopted, held]
theorem converted_flag (s : State) : (converted s).pwm.cycleFlag = (s.pwm.cycleFlag &&
    (!adopts (clampedOf s.blk.p) s.blk.prevDuty.toNat || Config.flagSurvivesReset s.draws)) := by
  unfold converted; split <;> simp_all [adopted, held]

/-- ANGLE accepted: `P` loaded, `A_CONVERT` next (spec/30_encoding.md rule R58). -/
def angleAccepted (a : Word) (s : State) : State :=
  let w := worldTurn (present selAngle a s)
  w.takeOffer.setBlk { w.takeOffer.blk with p := w.blk.cmdArg, phase := .aConvert }

/-- ANGLE after `A_CONVERT`. -/
def angleConverted (a : Word) (s : State) : State := converted (worldTurn (angleAccepted a s))

/-- ANGLE after `A_PERIOD`. -/
def anglePeriod (a : Word) (s : State) : State :=
  (pwmWritePeriod Config.pwmPeriod (worldTurn (angleConverted a s))).enter .aCompare

/-- ANGLE after `A_COMPARE`. -/
def angleCompare (a : Word) (s : State) : State :=
  let w := worldTurn (anglePeriod a s)
  (pwmWriteCompare (compareValue w.blk.duty) w).enter .aMode

/-- ANGLE on entry to `A_WAIT`. -/
def angleAtWait (a : Word) (s : State) : State :=
  (pwmWriteMode .edgeAligned (worldTurn (angleCompare a s))).enter .aWait

theorem angleAccepted_blk (a : Word) (s : State) :
    (angleAccepted a s).blk = { s.blk with
      cmdValid := false, done := false, cmdSel := selAngle, cmdArg := a, p := a, phase := .aConvert } := by
  simp [angleAccepted, present, State.takeOffer]

theorem angleAccepted_mem (a : Word) (s : State) : (angleAccepted a s).mem = s.mem := by
  simp [angleAccepted, present, State.takeOffer]

theorem angleAccepted_cfg (a : Word) (s : State) : (angleAccepted a s).cfg = s.cfg := by
  simp [angleAccepted, present, State.takeOffer]

theorem angleAccepted_trace (a : Word) (s : State) : (angleAccepted a s).trace = s.trace := by
  simp [angleAccepted, present, State.takeOffer]

theorem angleAccepted_interp (a : Word) (s : State) : (angleAccepted a s).env.interp = .dispatch := by
  simp [angleAccepted, present, State.takeOffer]

theorem angleAccepted_stage (a : Word) (s : State) : (angleAccepted a s).env.stage = .block := by
  simp [angleAccepted, present, State.takeOffer]

/-- What `A_CONVERT` of ANGLE leaves in the block (rules R90 to R95). -/
theorem angleConverted_blk (a : Word) (s : State) :
    let adopt := adopts (clampedOf a) s.blk.prevDuty.toNat
    let prev := if adopt then BitVec.ofNat 16 (clampedOf a) else s.blk.prevDuty
    (angleConverted a s).blk.p = a ∧ (angleConverted a s).blk.prevDuty = prev ∧
    (angleConverted a s).blk.duty = prev ∧ (angleConverted a s).blk.adopt = adopt ∧
    (angleConverted a s).blk.cmdValid = false ∧ (angleConverted a s).blk.done = false := by
  simp only [angleConverted, converted_p, converted_prevDuty, converted_duty, converted_adopt,
    converted_cmdValid, converted_done, worldTurn_blk, angleAccepted_blk, and_self]

theorem angleConverted_trace (a : Word) (s : State) :
    (angleConverted a s).trace = s.trace ++
      if adopts (clampedOf a) s.blk.prevDuty.toNat then [.pwm .counterReset] else [] := by
  simp only [angleConverted, converted_trace, worldTurn_trace, worldTurn_blk, angleAccepted_blk,
    angleAccepted_trace]

theorem angleAtWait_blk (a : Word) (s : State) :
    (angleAtWait a s).blk = { (angleConverted a s).blk with phase := .aWait } := by
  simp [angleAtWait, angleCompare, anglePeriod]

theorem angleAtWait_trace (a : Word) (s : State) :
    (angleAtWait a s).trace = (angleConverted a s).trace ++
      [.pwm (.writePeriod 2500#16), .pwm (.writeCompare ((angleConverted a s).blk.duty + 1#16)),
        .pwm (.writeMode .edgeAligned)] := by
  simp [angleAtWait, angleCompare, anglePeriod, compareValue, Config.compareAdj, Config.pwmPeriod]

theorem angleAtWait_period (a : Word) (s : State) : (angleAtWait a s).pwm.period = 2500#16 := by
  simp [angleAtWait, angleCompare, anglePeriod, Config.pwmPeriod]

theorem angleAtWait_compare (a : Word) (s : State) :
    (angleAtWait a s).pwm.compare = (angleConverted a s).blk.duty + 1#16 := by
  simp [angleAtWait, angleCompare, anglePeriod, compareValue, Config.compareAdj]

theorem angleAtWait_mode (a : Word) (s : State) : (angleAtWait a s).pwm.mode = .edgeAligned := by
  simp [angleAtWait]

theorem angleAtWait_mem (a : Word) (s : State) : (angleAtWait a s).mem = s.mem := by
  simp [angleAtWait, angleCompare, anglePeriod, angleConverted, converted_mem, angleAccepted_mem]

theorem angleAtWait_cfg (a : Word) (s : State) : (angleAtWait a s).cfg = s.cfg := by
  simp [angleAtWait, angleCompare, anglePeriod, angleConverted, converted_cfg, angleAccepted_cfg]

theorem angleAtWait_interp (a : Word) (s : State) : (angleAtWait a s).env.interp = .dispatch := by
  simp [angleAtWait, angleCompare, anglePeriod, angleConverted, converted_env, angleAccepted_interp]

theorem angleAtWait_stage (a : Word) (s : State) : (angleAtWait a s).env.stage = .block := by
  simp [angleAtWait, angleCompare, anglePeriod, angleConverted, converted_env, angleAccepted_stage]

theorem angleConverted_noReset {a : Word} {s : State} (h : s.noReset) : (angleConverted a s).noReset := by
  have h1 : (angleAccepted a s).noReset := worldTurn_noReset (s := present selAngle a s) h
  show _ ∉ (converted (worldTurn (angleAccepted a s))).world
  rw [converted_world]
  exact worldTurn_noReset h1

theorem angleAtWait_noReset {a : Word} {s : State} (h : s.noReset) : (angleAtWait a s).noReset := by
  have h3 : (anglePeriod a s).noReset := by
    show _ ∉ (worldTurn (angleConverted a s)).world
    exact worldTurn_noReset (angleConverted_noReset h)
  have h4 : (angleCompare a s).noReset := by
    show _ ∉ (worldTurn (anglePeriod a s)).world
    exact worldTurn_noReset h3
  show _ ∉ (worldTurn (angleCompare a s)).world
  exact worldTurn_noReset h4

theorem angleConverted_room {a : Word} {s : State} (h : s.room = none) :
    (angleConverted a s).room = none := by
  have h1 : (angleAccepted a s).room = none := worldTurn_room (s := present selAngle a s) h
  rw [angleConverted, converted_room]
  exact worldTurn_room h1

theorem angleAtWait_room {a : Word} {s : State} (h : s.room = none) : (angleAtWait a s).room = none := by
  have h3 : (anglePeriod a s).room = none := by
    show (worldTurn (angleConverted a s)).room = none
    exact worldTurn_room (angleConverted_room h)
  have h4 : (angleCompare a s).room = none := by
    show (worldTurn (anglePeriod a s)).room = none
    exact worldTurn_room h3
  show (worldTurn (angleCompare a s)).room = none
  exact worldTurn_room h4

/-- The flag and the world script after each turn on the way to the first poll: the flag is set by the
turns passed, and after `A_CONVERT` it is what the pulse has left of it. -/
theorem indicator_at_poll (a : Word) (s : State) (hr : s.noReset) :
    (worldTurn (angleAtWait a s)).pwm.cycleFlag =
      s.indicatorAtPoll (adopts (clampedOf a) s.blk.prevDuty.toNat) := by
  have r1 : (angleAccepted a s).noReset := worldTurn_noReset (s := present selAngle a s) hr
  have r2 : (angleConverted a s).noReset := angleConverted_noReset hr
  have r3 : (anglePeriod a s).noReset := by
    show _ ∉ (worldTurn (angleConverted a s)).world
    exact worldTurn_noReset r2
  have r4 : (angleCompare a s).noReset := by
    show _ ∉ (worldTurn (anglePeriod a s)).world
    exact worldTurn_noReset r3
  have w1 : (angleAccepted a s).world = s.world.drop 1 :=
    worldTurn_world (s := present selAngle a s) hr
  have f1 : (angleAccepted a s).pwm.cycleFlag =
      ((s.world.take 1).any Turn.cycles || s.pwm.cycleFlag) :=
    worldTurn_flag_eq (s := present selAngle a s) hr
  have d1 : (worldTurn (angleAccepted a s)).draws = s.draws := by
    rw [worldTurn_draws]; exact worldTurn_draws (present selAngle a s)
  have w2 : (angleConverted a s).world = s.world.drop 2 := by
    rw [angleConverted, converted_world, worldTurn_world r1, w1, List.drop_drop]
  have f2 : (angleConverted a s).pwm.cycleFlag =
      ((((s.world.drop 1).take 1).any Turn.cycles ||
        ((s.world.take 1).any Turn.cycles || s.pwm.cycleFlag)) &&
        (!adopts (clampedOf a) s.blk.prevDuty.toNat || Config.flagSurvivesReset s.draws)) := by
    rw [angleConverted, converted_flag, worldTurn_flag_eq r1, w1, f1, d1, worldTurn_blk,
      angleAccepted_blk]
  have w3 : (anglePeriod a s).world = s.world.drop 3 := by
    show (worldTurn (angleConverted a s)).world = _
    rw [worldTurn_world r2, w2, List.drop_drop]
  have f3 : (anglePeriod a s).pwm.cycleFlag =
      (((s.world.drop 2).take 1).any Turn.cycles || (angleConverted a s).pwm.cycleFlag) := by
    show (worldTurn (angleConverted a s)).pwm.cycleFlag = _
    rw [worldTurn_flag_eq r2, w2]
  have w4 : (angleCompare a s).world = s.world.drop 4 := by
    show (worldTurn (anglePeriod a s)).world = _
    rw [worldTurn_world r3, w3, List.drop_drop]
  have f4 : (angleCompare a s).pwm.cycleFlag =
      (((s.world.drop 3).take 1).any Turn.cycles || (anglePeriod a s).pwm.cycleFlag) := by
    show (worldTurn (anglePeriod a s)).pwm.cycleFlag = _
    rw [worldTurn_flag_eq r3, w3]
  have w5 : (angleAtWait a s).world = s.world.drop 5 := by
    show (worldTurn (angleCompare a s)).world = _
    rw [worldTurn_world r4, w4, List.drop_drop]
  have f5 : (angleAtWait a s).pwm.cycleFlag =
      (((s.world.drop 4).take 1).any Turn.cycles || (angleCompare a s).pwm.cycleFlag) := by
    show (worldTurn (angleCompare a s)).pwm.cycleFlag = _
    rw [worldTurn_flag_eq r4, w4]
  rw [worldTurn_flag_eq (angleAtWait_noReset hr), w5, f5, f4, f3, f2, State.indicatorAtPoll]
  have key : ∀ (w : List Turn) (x k : Bool),
      (((w.drop 5).take 1).any Turn.cycles || (((w.drop 4).take 1).any Turn.cycles ||
        (((w.drop 3).take 1).any Turn.cycles || (((w.drop 2).take 1).any Turn.cycles ||
        ((((w.drop 1).take 1).any Turn.cycles || ((w.take 1).any Turn.cycles || x)) && k))))) =
      (((w.take 6).drop 2).any Turn.cycles || (((w.take 2).any Turn.cycles || x) && k)) := by
    intro w x k
    match w with
    | [] => simp
    | [_] => simp
    | [_, _] => simp [Bool.or_comm, Bool.or_assoc]
    | [_, _, _] => simp [Bool.or_comm, Bool.or_assoc]
    | [_, _, _, _] => simp [Bool.or_comm, Bool.or_assoc]
    | [_, _, _, _, _] => simp [Bool.or_comm, Bool.or_assoc]
    | _ :: _ :: _ :: _ :: _ :: _ :: _ => simp [Bool.or_comm, Bool.or_assoc]
  exact key _ _ _

/-- Without a cycle completed meanwhile a clear indicator is found clear. -/
theorem indicatorAtPoll_of_noCycle {s : State} (adopt : Bool) (h : s.noCycle)
    (hf : s.pwm.cycleFlag = false) : s.indicatorAtPoll adopt = false := by
  have hc : ∀ l : List Turn, (∀ t ∈ l, t ∈ s.world) → l.any Turn.cycles = false := fun l hl =>
    List.any_eq_false.2 fun t ht => by simp [h t (hl t ht)]
  rw [State.indicatorAtPoll, hc _ fun t ht => List.mem_of_mem_take (List.mem_of_mem_drop ht),
    hc _ fun t ht => List.mem_of_mem_take ht, hf]
  rfl

/-- ANGLE from rest reaches `A_WAIT` in five sequencer steps, the world acting before each. -/
theorem angle_reaches_wait (a : Word) (s : State) (hs : s.atRest) (hr : s.noReset) (n : Nat) :
    seqRun (n + 5) (present selAngle a s) = seqRun n (angleAtWait a s) := by
  have r1 : (angleAccepted a s).noReset := worldTurn_noReset (s := present selAngle a s) hr
  have r2 : (angleConverted a s).noReset := angleConverted_noReset hr
  have r3 : (anglePeriod a s).noReset := by
    show _ ∉ (worldTurn (angleConverted a s)).world
    exact worldTurn_noReset r2
  have r4 : (angleCompare a s).noReset := by
    show _ ∉ (worldTurn (anglePeriod a s)).world
    exact worldTurn_noReset r3
  have p2 : (angleConverted a s).blk.phase = .aPeriod := converted_phase _
  have e0 : ∀ n, seqRun (n + 1) (present selAngle a s) = seqRun n (angleAccepted a s) := fun n =>
    run_go (by simp [present, State.quiet]) hr (by
      rw [phaseStep_idle (by simp [present, hs.1]) (by simp [present]),
        acceptCommand_angle (by simp [present])]; rfl)
  have e1 : ∀ n, seqRun (n + 1) (angleAccepted a s) = seqRun n (angleConverted a s) := fun n =>
    run_go (quiet_of_phase (by simp [angleAccepted_blk])) r1 (by
      rw [phaseStep_aConvert (by simp [angleAccepted_blk]), aConvert_eq]; rfl)
  have e2 : ∀ n, seqRun (n + 1) (angleConverted a s) = seqRun n (anglePeriod a s) := fun n =>
    run_go (quiet_of_phase (by simp [p2])) r2 (by rw [phaseStep_aPeriod (by simp [p2])]; rfl)
  have e3 : ∀ n, seqRun (n + 1) (anglePeriod a s) = seqRun n (angleCompare a s) := fun n =>
    run_go (quiet_of_phase (by simp [anglePeriod])) r3 (by
      rw [phaseStep_aCompare (by simp [anglePeriod])]; rfl)
  have e4 : ∀ n, seqRun (n + 1) (angleCompare a s) = seqRun n (angleAtWait a s) := fun n =>
    run_go (quiet_of_phase (by simp [angleCompare])) r4 (by
      rw [phaseStep_aMode (by simp [angleCompare])]; rfl)
  rw [show n + 5 = n + 1 + 1 + 1 + 1 + 1 by omega, e0, e1, e2, e3, e4]

/-- A_WAIT with the indicator set runs to the end. -/
theorem wait_to_end (t : State) (n : Nat) (hp : t.blk.phase = .aWait) (hcv : t.blk.cmdValid = false) (hroom : t.room = none)
   (hr : t.noReset) (hf : (worldTurn t).pwm.cycleFlag = true) :
   ∃ u : State, seqRun (n+4) t = u ∧ u.blk = { t.blk with phase := .idle, done := true } ∧
     u.trace = t.trace ++ [.pwm (.poll true), .pwm .clearFlag, .out (.angleEcho t.blk.p), .done] ∧
     u.pwm.period = t.pwm.period ∧ u.pwm.compare = t.pwm.compare ∧ u.pwm.mode = t.pwm.mode ∧
     u.mem = t.mem ∧ u.cfg = t.cfg ∧ u.room = none := by
  let w0 := worldTurn t
  let s1 := (pwmPoll w0).enter .aClear
  let w1 := worldTurn s1
  let s2 := (pwmClearFlag w1).enter .aEcho
  let w2 := worldTurn s2
  let s3 := (record (.out (.angleEcho w2.blk.p)) w2).finish
  have r1 : s1.noReset := worldTurn_noReset hr
  have r2 : s2.noReset := worldTurn_noReset r1
  have e0 : ∀ n, seqRun (n+1) t = seqRun n s1 := fun n => run_go (quiet_of_phase (by simp [hp])) hr (by
    rw [phaseStep_aWait (by simp [hp])]; simp [aWait, cycleComplete, hf, s1, w0])
  have e1 : ∀ n, seqRun (n+1) s1 = seqRun n s2 := fun n => run_go (quiet_of_phase (by simp [s1])) r1 (by
    rw [phaseStep_aClear (by simp [s1])]; rfl)
  have hroom2 : w2.room = none := worldTurn_room (s := s2) (worldTurn_room (s := s1) (worldTurn_room (s := t) hroom))
  have e2 : ∀ n, seqRun (n+1) s2 = seqRun n s3 := fun n => run_go (quiet_of_phase (by simp [s2])) r2 (by
    rw [phaseStep_aEcho (by simp [s2]), aEcho, reportThen_of_accepts hroom2])
  have e3 : seqRun (n+1) s3 = s3 := seqRun_of_quiet (by simp [State.quiet, s3, w2, s2, w1, s1, w0, hcv])
  refine ⟨s3, ?_, ?_, ?_, ?_, ?_, ?_, ?_, ?_, ?_⟩
  · rw [show n + 4 = n+1+1+1+1 by omega, e0, e1, e2, e3]
  · simp [s3, w2, s2, w1, s1, w0]
  · simp [s3, w2, s2, w1, s1, w0, hf]
  · simp [s3, w2, s2, w1, s1, w0]
  · simp [s3, w2, s2, w1, s1, w0]
  · simp [s3, w2, s2, w1, s1, w0]
  · simp [s3, w2, s2, w1, s1, w0]
  · simp [s3, w2, s2, w1, s1, w0]
  · simp [s3, hroom2]

/-- ANGLE from rest is never refused. -/
theorem exec_angle_eq (l : Line) (s : State) (hs : s.atRest) : exec (.angle l) s = .next (collectDone (seqRun seqFuel (present selAngle (foldLine l) s))) := by
  simp [exec, execAngle, runBlock, State.walkDue, present, hs.1, Phase.walking, selAngle, selDiag]

/-- `A_WAIT` with the indicator clear records one poll and stands. -/
theorem wait_stands (t : State) (n : Nat) (hp : t.blk.phase = .aWait) (hr : t.noReset) (hf : (worldTurn t).pwm.cycleFlag = false) :
   seqRun (n+1) t = pwmPoll (worldTurn t) := 
  run_stop (quiet_of_phase (by simp [hp])) hr (by rw [phaseStep_aWait (by simp [hp])]; simp [aWait, cycleComplete, hf])

/-- The parts of the session's invariant while ANGLE waits. -/
theorem sessionInv_aWait {s : State} (hp : s.blk.phase = .aWait) (hi : SessionInv s) :
    s.env.interp = .dispatch ∧ s.env.stage = .block ∧ s.blk.done = false ∧ s.blk.cmdValid = false := by
  unfold SessionInv at hi
  split at hi
  · rename_i h
    simp [hp] at hi
    exact ⟨h.1, h.2, hi⟩
  · simp [State.atRest, hp] at hi

/-- One step of an ANGLE that waits runs the block. -/
theorem step_aWait {s : State} (hp : s.blk.phase = .aWait) (hi : SessionInv s) (hr : s.noReset) :
    step s = .next (collectDone (seqRun seqFuel s)) := by
  obtain ⟨h1, h2, -, h4⟩ := sessionInv_aWait hp hi
  simp [step, resetNext_of_noReset hr, sessionStep, h1, h2, runBlock, State.walkDue, hp,
    Phase.walking, h4]

/-- One step of an ANGLE that waits, while the indicator stays clear: one recorded poll. -/
theorem step_stays_in_aWait {s : State} (hp : s.blk.phase = .aWait) (hi : SessionInv s)
    (hr : s.noReset) (hf : (worldTurn s).pwm.cycleFlag = false) :
    step s = .next (pwmPoll (worldTurn s)) := by
  rw [step_aWait hp hi hr, show seqFuel = 299999 + 1 from rfl, wait_stands s 299999 hp hr hf]
  simp [collectDone, (sessionInv_aWait hp hi).2.2.1]

/-- A hold against a legal value means the value is attainable (spec/10_state.md rule R26). -/
theorem attainable_of_hold (r : Word) (ok : PrevDutyResetOk r) (c : Nat) (hc : Attainable c) (h : adopts c r.toNat = false) : Attainable r.toNat := by
  have h : ¬ 3 < absDiff c r.toNat := of_decide_eq_false h
  rcases ok with ok | ok
  · exact ok
  · exfalso; apply ok
    unfold Attainable at hc
    unfold absDiff at h
    by_cases hh : r.toNat ≤ c
    · rw [if_pos hh] at h; omega
    · rw [if_neg hh] at h; omega

/-- CLAMP of SCALE is attainable (rule R94). -/
theorem attainable_clamp_scale (d : Nat) : Attainable (clamp (scale d)) := by
  rw [clamp_eq, scale_eq]
  unfold Attainable
  by_cases h1 : 249 ≤ d * 6944 / 10000 + 125
  · simp [h1]
  · by_cases h2 : d * 6944 / 10000 + 125 ≤ 125
    · rw [if_neg h1, if_pos h2]; simp
    · rw [if_neg h1, if_neg h2]; omega

/-- The clamped duty is attainable, for every operand (rule R94). -/
theorem attainable_clampedOf (p : Word) : Attainable (clampedOf p) := attainable_clamp_scale _

theorem ofNat_clampedOf_toNat (p : Word) : (BitVec.ofNat 16 (clampedOf p)).toNat = clampedOf p := by
  have := clampedOf_le p; rw [BitVec.toNat_ofNat]; omega

end Sys2Proof.Machine
end

