-- ==== Sys2Proof/Laws/Decode.lean ====
section
/-! SUPPORT. What the Line Reader does with the bytes of one line: it reads them back, and it does not
stop before their end (spec/30_encoding.md rule R53). -/

namespace Sys2Proof

/-- The Line Reader with room for `n` characters reads back a line that fits. -/
theorem takeLine_encodeLine (n : Nat) (l : Line) (rest : List Byte) (hc : l.charsStorable = true)
    (hl : match l.ended with
      | some _ => l.chars.length < n
      | none => l.chars.length = n) :
    takeLine n (encodeLine l ++ rest) = some (l, rest) := by
  obtain ⟨cs, e⟩ := l
  simp only [Line.charsStorable, List.all_eq_true, encodeLine] at *
  induction cs generalizing n with
  | nil =>
    cases e with
    | none => simp at hl; subst hl; simp [takeLine]
    | some t =>
      simp at hl
      obtain ⟨m, rfl⟩ : ∃ m, n = m + 1 := ⟨n - 1, by omega⟩
      cases t <;> simp [takeLine, Terminator.code, Terminator.ofByte?]
  | cons c cs ih =>
    have hn : n ≠ 0 := by rintro rfl; cases e <;> simp at hl
    obtain ⟨m, rfl⟩ := Nat.exists_eq_succ_of_ne_zero hn
    have := ih m (by cases e <;> simp_all) (fun x hx => hc x (by simp [hx]))
    have hcn : Terminator.ofByte? c = none := by simpa using hc c (by simp)
    simp only [List.cons_append, takeLine, hcn, this, Option.map_some]

/-- A line the Line Reader can deliver is read back. -/
theorem readLine_encodeLine (l : Line) (rest : List Byte) (h : l.wf = true) :
    readLine (encodeLine l ++ rest) = some (l, rest) := by
  simp only [Line.wf, Bool.and_eq_true] at h
  refine takeLine_encodeLine _ l rest h.1 ?_
  have := h.2
  unfold Line.lengthFits at this
  cases hh : l.ended <;> simp_all

/-- Bytes after the end of a line do not change what is read. -/
theorem takeLine_append (n : Nat) (p q : List Byte) (l : Line) (rest : List Byte)
    (h : takeLine n p = some (l, rest)) : takeLine n (p ++ q) = some (l, rest ++ q) := by
  induction n generalizing p l with
  | zero => simp [takeLine] at h ⊢; simp [h]
  | succ n ih =>
    cases p with
    | nil => simp [takeLine] at h
    | cons b p =>
      simp only [takeLine, List.cons_append] at h ⊢
      split at h
      · simp at h; simp [h]
      · simp only [Option.map_eq_some_iff, Prod.mk.injEq] at h ⊢
        obtain ⟨⟨l', r'⟩, h1, h2, rfl⟩ := h
        exact ⟨_, ih p l' h1, h2, rfl⟩

/-- Before the last byte of a line the Line Reader waits. -/
theorem readLine_unfinished (l : Line) (p q : List Byte) (h : l.wf = true)
    (he : encodeLine l = p ++ q) (hq : q ≠ []) : readLine p = none := by
  cases hp : readLine p with
  | none => rfl
  | some r =>
    have h1 := takeLine_append _ p q r.1 r.2 hp
    have h2 := readLine_encodeLine l [] h
    rw [List.append_nil, he] at h2
    simp only [readLine] at h2
    rw [h1] at h2
    simp [hq] at h2

end Sys2Proof
end

