-- ==== Sys2Proof/Laws/PerInstr.lean ====
section
/-! SUPPORT. Statements about every command as syntax, one lemma per constructor. -/

namespace Sys2Proof.Laws

/-- A line the Line Reader can deliver takes 1 to 4 bytes (spec/30_encoding.md rule R56). -/
theorem encodeLine_length (l : Line) (h : l.wf = true) :
    1 ≤ (encodeLine l).length ∧ (encodeLine l).length ≤ 4 := by
  obtain ⟨cs, e⟩ := l
  simp only [Line.wf, Bool.and_eq_true] at h
  have hf := h.2
  cases e with
  | none =>
    have : cs.length = Config.maxChars := of_decide_eq_true hf
    simp [encodeLine, this, Config.maxChars]
  | some t =>
    have : cs.length < Config.maxChars := of_decide_eq_true hf
    simp only [Config.maxChars] at this
    simp [encodeLine]
    omega

end Sys2Proof.Laws

namespace Sys2Proof.Laws.Length

/-- Rule R56: the bytes of a well-formed command, from the shortest to the longest of its format. -/
def Statement : Instr → Prop
  | .diag => (encode .diag).length = 1
  | .peek a => (Instr.peek a).wf = true →
      2 ≤ (encode (.peek a)).length ∧ (encode (.peek a)).length ≤ 5
  | .poke a d => (Instr.poke a d).wf = true →
      3 ≤ (encode (.poke a d)).length ∧ (encode (.poke a d)).length ≤ 9
  | .angle a => (Instr.angle a).wf = true →
      2 ≤ (encode (.angle a)).length ∧ (encode (.angle a)).length ≤ 5
  | .exit => (encode .exit).length = 1

theorem diag : Statement .diag := rfl

theorem peek (a : Line) : Statement (.peek a) := fun h => by
  have := Sys2Proof.Laws.encodeLine_length a h
  simp only [encode, List.length_cons]
  omega

theorem poke (a d : Line) : Statement (.poke a d) := fun h => by
  simp only [Instr.wf, Bool.and_eq_true] at h
  have ha := Sys2Proof.Laws.encodeLine_length a h.1
  have hd := Sys2Proof.Laws.encodeLine_length d h.2
  simp only [encode, List.length_cons, List.length_append]
  omega

theorem angle (a : Line) : Statement (.angle a) := fun h => by
  have := Sys2Proof.Laws.encodeLine_length a h
  simp only [encode, List.length_cons]
  omega

theorem exit : Statement .exit := rfl

end Sys2Proof.Laws.Length
end

