-- ==== Sys2Proof/Laws/Session.lean ====
section
/-! SUPPORT. Everything one step of the session can do, said once: the cases of a step, what reading
operand bytes changes, and the rule by which a property kept by every part is kept by every step. -/

namespace Sys2Proof.Machine

/-! ### Reading operand bytes -/

/-- What reading operand bytes may change: prompts and echoes join the history, the credit goes down,
the environment's reading registers move. -/
structure Reads (s s1 : State) : Prop where
  cfg : s1.cfg = s.cfg
  blk : s1.blk = s.blk
  pwm : s1.pwm = s.pwm
  mem : s1.mem = s.mem
  world : s1.world = s.world
  draws : s1.draws = s.draws
  interp : s1.env.interp = s.env.interp
  stage : s1.env.stage = s.env.stage
  sel : s1.env.sel = s.env.sel
  opAddr : s1.env.opAddr = s.env.opAddr
  opData : s1.env.opData = s.env.opData
  trace : ∃ rs : List Report, s1.trace = s.trace ++ rs.map .out

theorem Reads.refl (s : State) : Reads s s :=
  ⟨rfl, rfl, rfl, rfl, rfl, rfl, rfl, rfl, rfl, rfl, rfl, [], by simp⟩

theorem Reads.trans {s s1 s2 : State} (h : Reads s s1) (g : Reads s1 s2) : Reads s s2 := by
  obtain ⟨rs, hr⟩ := h.trace
  obtain ⟨gs, hg⟩ := g.trace
  exact ⟨g.cfg.trans h.cfg, g.blk.trans h.blk, g.pwm.trans h.pwm, g.mem.trans h.mem,
    g.world.trans h.world, g.draws.trans h.draws, g.interp.trans h.interp, g.stage.trans h.stage,
    g.sel.trans h.sel, g.opAddr.trans h.opAddr, g.opData.trans h.opData,
    rs ++ gs, by rw [hg, hr]; simp⟩

theorem sendPrompt_reads {s s1 : State} (h : sendPrompt s = some s1) : Reads s s1 := by
  unfold sendPrompt at h
  split at h
  · simp only [Option.map_eq_some_iff] at h
    obtain ⟨s0, h0, rfl⟩ := h
    obtain ⟨room, rfl, -⟩ := send_eq_some h0
    exact ⟨rfl, rfl, rfl, rfl, rfl, rfl, rfl, rfl, rfl, rfl, rfl, [.prompt], rfl⟩
  · injection h with h; subst h; exact Reads.refl _

theorem receiveByte_reads {b : Byte} {rest : List Byte} {s s1 : State}
    (h : receiveByte b rest s = some s1) : Reads s s1 := by
  unfold receiveByte sendEcho at h
  simp only [Option.map_eq_some_iff] at h
  obtain ⟨s0, h0, rfl⟩ := h
  split at h0
  · obtain ⟨room, rfl, -⟩ := send_eq_some h0
    exact ⟨rfl, rfl, rfl, rfl, rfl, rfl, rfl, rfl, rfl, rfl, rfl, [.localEcho b], rfl⟩
  · injection h0 with h0; subst h0
    exact ⟨rfl, rfl, rfl, rfl, rfl, rfl, rfl, rfl, rfl, rfl, rfl, [], by simp⟩

/-- The state reading ends in, whatever it gives. -/
def Fetch.state : Fetch → State
  | .ready _ s => s
  | .invalid s => s
  | .waits s => s

theorem fetchFrom_reads (bs : List Byte) (s : State) : Reads s (fetchFrom bs s).state := by
  induction bs generalizing s with
  | nil =>
    unfold fetchFrom
    split
    · exact Reads.refl _
    · exact Reads.refl _
    · cases h : sendPrompt s with
      | none => exact Reads.refl _
      | some s1 => exact sendPrompt_reads h
  | cons b rest ih =>
    unfold fetchFrom
    split
    · exact Reads.refl _
    · exact Reads.refl _
    · split
      · exact Reads.refl _
      · rename_i s1 h1
        split
        · exact sendPrompt_reads h1
        · rename_i s2 h2
          exact (sendPrompt_reads h1).trans ((receiveByte_reads h2).trans (ih s2))

/-- What reading gives is what the decoder says of the selector and the bytes received. -/
theorem fetchFrom_ready {bs : List Byte} {s s1 : State} {i : Instr}
    (h : fetchFrom bs s = .ready i s1) :
    ∃ rest, decode (s1.env.sel :: s1.env.received) = .ok (i, rest) := by
  induction bs generalizing s with
  | nil =>
    unfold fetchFrom at h
    split at h
    · rename_i hd; simp only [Fetch.ready.injEq] at h; obtain ⟨rfl, rfl⟩ := h; exact ⟨_, hd⟩
    · cases h
    · cases h
  | cons b rest ih =>
    unfold fetchFrom at h
    split at h
    · rename_i hd; simp only [Fetch.ready.injEq] at h; obtain ⟨rfl, rfl⟩ := h; exact ⟨_, hd⟩
    · cases h
    · split at h
      · cases h
      · split at h
        · cases h
        · exact ih h

/-! ### The cases of a step -/

/-- Everything `dispatch` can answer with a next state. -/
theorem dispatch_next {s t : State} (h : dispatch s = .next t) :
    ∃ s1, Reads s s1 ∧
      ((∃ i, (∃ rest, decode (s1.env.sel :: s1.env.received) = .ok (i, rest)) ∧
          exec i s1 = .next t) ∨
        t = answer (.invalidSelector (s1.env.sel.setWidth 16)) s1 ∨ t = s1) := by
  unfold dispatch fetchCommand at h
  have hr := fetchFrom_reads s.env.rx s
  split at h
  · rename_i i s1 hf
    rw [hf] at hr
    exact ⟨s1, hr, .inl ⟨i, fetchFrom_ready hf, h⟩⟩
  · rename_i s1 hf
    rw [hf] at hr
    injection h with h
    exact ⟨s1, hr, .inr (.inl h.symm)⟩
  · rename_i s1 hf
    rw [hf] at hr
    injection h with h
    exact ⟨s1, hr, .inr (.inr h.symm)⟩

/-- Everything `step` can answer with a next state. -/
theorem step_next {s t : State} (h : step s = .next t) :
    (resetNext s = true ∧ t = warmReset s) ∨
    (s.env.interp = .showMenu ∧ t = showMenu (worldTurn s)) ∨
    (s.env.interp = .awaitSelector ∧ (worldTurn s).env.rx = [] ∧ t = worldTurn s) ∨
    (∃ b rest, s.env.interp = .awaitSelector ∧ (worldTurn s).env.rx = b :: rest ∧
      dispatch (takeSelector b rest (worldTurn s)) = .next t) ∨
    (s.env.interp = .dispatch ∧ s.env.stage = .operands ∧ dispatch (worldTurn s) = .next t) ∨
    (s.env.interp = .dispatch ∧ s.env.stage = .block ∧ runBlock s = .next t) ∨
    (∃ r, s.env.interp = .dispatch ∧ s.env.stage = .answer r ∧ t = deliver (worldTurn s)) := by
  unfold step at h
  split at h
  · rename_i hr
    injection h with h
    exact .inl ⟨hr, h.symm⟩
  · unfold sessionStep at h
    split at h
    · rename_i hi
      injection h with h
      exact .inr (.inl ⟨hi, h.symm⟩)
    · rename_i hi
      unfold awaitSelector at h
      split at h
      · rename_i hrx
        injection h with h
        exact .inr (.inr (.inl ⟨hi, hrx, h.symm⟩))
      · rename_i b rest hrx
        exact .inr (.inr (.inr (.inl ⟨b, rest, hi, hrx, h⟩)))
    · rename_i hi
      split at h
      · rename_i hs
        exact .inr (.inr (.inr (.inr (.inl ⟨hi, hs, h⟩))))
      · rename_i hs
        exact .inr (.inr (.inr (.inr (.inr (.inl ⟨hi, hs, h⟩)))))
      · rename_i r hs
        injection h with h
        exact .inr (.inr (.inr (.inr (.inr (.inr ⟨r, hi, hs, h.symm⟩)))))
    · cases h

/-- Everything `exec` can answer with a next state. -/
theorem exec_next {i : Instr} {s t : State} (h : exec i s = .next t) :
    (∃ sel arg, (sel = selDiag ∨ sel = selAngle) ∧ runBlock (present sel arg s) = .next t) ∨
    (∃ e r a, t = answer r (memRead1 a (s.setEnv e))) ∨
    (∃ e r a d, t = answer r (memWrite1 a d (s.setEnv e))) ∨
    (∃ e, t = answer .outOfRange (s.setEnv e)) ∨
    (i = .exit ∧ t = s.setEnv { s.env with interp := .exit }) := by
  cases i with
  | diag => exact .inl ⟨_, _, .inl rfl, h⟩
  | angle l => exact .inl ⟨_, _, .inr rfl, h⟩
  | peek l =>
    simp only [exec, execPeek] at h
    split at h
    · cases h
    · split at h
      · cases h
      · injection h with h
        exact .inr (.inl ⟨_, _, _, h.symm⟩)
  | poke la ld =>
    simp only [exec, execPoke] at h
    split at h <;> injection h with h
    · exact .inr (.inr (.inl ⟨_, _, _, _, h.symm⟩))
    · exact .inr (.inr (.inr (.inl ⟨_, h.symm⟩)))
  | exit =>
    simp only [exec, execExit] at h
    injection h with h
    exact .inr (.inr (.inr (.inr ⟨rfl, h.symm⟩)))

/-- `answer` touches the environment, the history and the credit only. -/
theorem answer_keeps (r : Report) (s : State) :
    (answer r s).blk = s.blk ∧ (answer r s).pwm = s.pwm ∧ (answer r s).cfg = s.cfg ∧
      (answer r s).mem = s.mem := by
  unfold answer deliver
  simp only [State.setEnv_env]
  split
  · rename_i h
    obtain ⟨room, rfl, -⟩ := send_eq_some h
    exact ⟨rfl, rfl, rfl, rfl⟩
  · exact ⟨rfl, rfl, rfl, rfl⟩

/-- A step in which a DIAG that waited goes on, or starts, is a run of the block. -/
theorem step_of_walkDue {s t : State} (hr : resetNext s = false) (hi : SessionInv s)
    (hw : s.walkDue = true) (h : step s = .next t) :
    runBlock s = .next t ∧
      ((s.blk.phase.walking = true ∧ s.blk.cmdValid = false) ∨
        (s.blk.phase = .idle ∧ s.blk.cmdValid = true ∧ s.blk.cmdSel = selDiag)) := by
  unfold SessionInv at hi
  split at hi
  · rename_i hb
    refine ⟨by simpa [step, hr, sessionStep, hb] using h, ?_⟩
    rcases hi.2 with ⟨a, b, -⟩ | ⟨-, b⟩
    · simp [State.walkDue, a, b, Phase.walking] at hw
      exact .inr ⟨a, b, hw⟩
    · simp [State.walkDue, b] at hw
      exact .inl ⟨hw, b⟩
  · simp [State.walkDue, hi.1, hi.2.1, Phase.walking] at hw

/-- A step in which an ANGLE that waited goes on, or starts, is a run of the block. -/
theorem step_of_angleDue {s t : State} (hr : resetNext s = false) (hi : SessionInv s)
    (hd : s.angleDue = true) (h : step s = .next t) :
    runBlock s = .next t ∧ s.blk.done = false ∧
      s.env.interp = .dispatch ∧ s.env.stage = .block ∧
      ((s.blk.phase.converting = true ∧ s.blk.cmdValid = false) ∨
        (s.blk.phase = .idle ∧ s.blk.cmdValid = true ∧ s.blk.cmdSel = selAngle)) := by
  unfold SessionInv at hi
  split at hi
  · rename_i hb
    refine ⟨by simpa [step, hr, sessionStep, hb] using h, hi.1, hb.1, hb.2, ?_⟩
    rcases hi.2 with ⟨a, b, -⟩ | ⟨-, b⟩
    · simp [State.angleDue, a, b, Phase.converting, Phase.syncing] at hd
      exact .inr ⟨a, b, hd⟩
    · simp [State.angleDue, b] at hd
      exact .inl ⟨hd, b⟩
  · simp [State.angleDue, hi.1, hi.2.1, Phase.converting, Phase.syncing] at hd

/-! ### What every part keeps, every step keeps -/

/-- The parts a step is made of, for a property that does not look at the environment. -/
structure PartsKeep (Q : State → Prop) : Prop where
  world : ∀ s, Q s → Q (worldTurn s)
  env : ∀ s e, Q s → Q (s.setEnv e)
  output : ∀ s r room, Q s → Q ((record (.out r) s).setRoom room)
  offer : ∀ s sel arg, Q s →
    Q (s.setBlk { s.blk with cmdValid := true, cmdSel := sel, cmdArg := arg })
  collect : ∀ s, Q s → Q (s.setBlk { s.blk with done := false })
  phase : ∀ s, Q s → Q (phaseStep s).state
  read : ∀ s a, Q s → Q (memRead1 a s)
  write : ∀ s a d, Q s → Q (memWrite1 a d s)

theorem PartsKeep.send {Q : State → Prop} (k : PartsKeep Q) {r : Report} {s s1 : State}
    (h : send r s = some s1) (hq : Q s) : Q s1 := by
  obtain ⟨room, rfl, -⟩ := send_eq_some h
  exact k.output _ _ _ hq

theorem PartsKeep.deliver {Q : State → Prop} (k : PartsKeep Q) {s : State} (hq : Q s) :
    Q (deliver s) := by
  unfold Machine.deliver
  split
  · split
    · rename_i h; exact k.env _ _ (k.send h hq)
    · exact hq
  · exact hq

theorem PartsKeep.answer {Q : State → Prop} (k : PartsKeep Q) {r : Report} {s : State} (hq : Q s) :
    Q (answer r s) := k.deliver (k.env _ _ hq)

theorem PartsKeep.runBlock {Q : State → Prop} (k : PartsKeep Q) {s t : State}
    (h : runBlock s = .next t) (hq : Q s) : Q t := by
  obtain ⟨-, rfl⟩ := runBlock_next h
  have := seqRun_keeps (Q := Q) (seqStep_keeps k.world k.phase) seqFuel s hq
  unfold collectDone
  split
  · exact k.env _ _ (k.collect _ this)
  · exact this

theorem PartsKeep.exec {Q : State → Prop} (k : PartsKeep Q) {i : Instr} {s t : State}
    (h : exec i s = .next t) (hq : Q s) : Q t := by
  rcases exec_next h with ⟨sel, arg, -, h⟩ | ⟨e, r, a, rfl⟩ | ⟨e, r, a, d, rfl⟩ | ⟨e, rfl⟩ |
    ⟨-, rfl⟩
  · exact k.runBlock h (k.env _ _ (k.offer _ _ _ hq))
  · exact k.answer (k.read _ _ (k.env _ _ hq))
  · exact k.answer (k.write _ _ _ (k.env _ _ hq))
  · exact k.answer (k.env _ _ hq)
  · exact k.env _ _ hq

theorem PartsKeep.fetchFrom {Q : State → Prop} (k : PartsKeep Q) (bs : List Byte) {s : State}
    (hq : Q s) : Q (fetchFrom bs s).state := by
  have hp : ∀ {s s1}, Machine.sendPrompt s = some s1 → Q s → Q s1 := by
    intro s s1 h hq
    unfold Machine.sendPrompt at h
    split at h
    · simp only [Option.map_eq_some_iff] at h
      obtain ⟨s0, h0, rfl⟩ := h
      exact k.env _ _ (k.send h0 hq)
    · injection h with h; subst h; exact hq
  have hb : ∀ {b rest s s1}, Machine.receiveByte b rest s = some s1 → Q s → Q s1 := by
    intro b rest s s1 h hq
    unfold Machine.receiveByte Machine.sendEcho at h
    simp only [Option.map_eq_some_iff] at h
    obtain ⟨s0, h0, rfl⟩ := h
    split at h0
    · exact k.env _ _ (k.send h0 hq)
    · injection h0 with h0; subst h0; exact k.env _ _ hq
  induction bs generalizing s with
  | nil =>
    unfold Machine.fetchFrom
    split
    · exact hq
    · exact hq
    · cases h : Machine.sendPrompt s with
      | none => exact hq
      | some s1 => exact hp h hq
  | cons b rest ih =>
    unfold Machine.fetchFrom
    split
    · exact hq
    · exact hq
    · split
      · exact hq
      · rename_i s1 h1
        split
        · exact hp h1 hq
        · rename_i s2 h2
          exact ih (hb h2 (hp h1 hq))

theorem PartsKeep.dispatch {Q : State → Prop} (k : PartsKeep Q) {s t : State}
    (h : dispatch s = .next t) (hq : Q s) : Q t := by
  unfold Machine.dispatch fetchCommand at h
  have hf := k.fetchFrom s.env.rx hq
  split at h
  · rename_i i s1 he
    rw [he] at hf
    exact k.exec h hf
  · rename_i s1 he
    rw [he] at hf
    injection h with h; subst h
    exact k.answer hf
  · rename_i s1 he
    rw [he] at hf
    injection h with h; subst h
    exact hf

/-- What every part keeps, every step keeps; a step that is a reset is `hr`'s concern. -/
theorem PartsKeep.step {Q : State → Prop} (k : PartsKeep Q) {s t : State} (h : step s = .next t)
    (hr : resetNext s = true → Q (warmReset s)) (hq : Q s) : Q t := by
  rcases step_next h with ⟨hreset, rfl⟩ | ⟨-, rfl⟩ | ⟨-, -, rfl⟩ | ⟨b, rest, -, -, h⟩ | ⟨-, -, h⟩ |
    ⟨-, -, h⟩ | ⟨r, -, -, rfl⟩
  · exact hr hreset
  · unfold showMenu
    split
    · rename_i hs; exact k.env _ _ (k.send hs (k.world _ hq))
    · exact k.world _ hq
  · exact k.world _ hq
  · exact k.dispatch h (k.env _ _ (k.world _ hq))
  · exact k.dispatch h (k.world _ hq)
  · exact k.runBlock h hq
  · exact k.deliver (k.world _ hq)

end Sys2Proof.Machine
end

