-- ==== Sys2Proof/Laws/Reading.lean ====
section
/-! SUPPORT. What the Line Reader does with each byte and each line while the host accepts its output
(spec/30_encoding.md rule R53; spec/43_environment.md rules R143, R145, R150). -/

namespace Sys2Proof.Machine

/-- The machine after one operand byte has been received while the host accepts everything: prompt (if due), echo (if POKE and no terminator), the byte stored. -/
def byteIn (b : Byte) (rest : List Byte) (s : State) : State :=
  { s with
    env := { s.env with
      rx := rest, received := s.env.received ++ [b]
      prompted := (promptsFor s.env.sel || s.env.prompted) && !(lineBuffer (s.env.received ++ [b])).isEmpty }
    trace := s.trace ++ (if promptsFor s.env.sel && !s.env.prompted then [.out .prompt] else []) ++
      (if echoesFor s.env.sel && (Terminator.ofByte? b).isNone then [.out (.localEcho b)] else []) }

/-- One byte of an unfinished command. -/
theorem fetch_byte (b : Byte) (rest : List Byte) (s : State) (hr : s.room = none)
    (hd : decode (s.env.sel :: s.env.received) = .error .lineUnfinished) :
    fetchFrom (b :: rest) s = fetchFrom rest (byteIn b rest s) := by
  conv_lhs => unfold fetchFrom
  rw [hd]
  simp only
  by_cases hp : (promptsFor s.env.sel && !s.env.prompted) = true
  · have : sendPrompt s = some ((record (.out .prompt) s).setEnv { s.env with prompted := true }) := by
      simp only [sendPrompt, hp, if_true, send_of_accepts hr]; rfl
    rw [this]
    simp only
    by_cases he : (echoesFor s.env.sel && (Terminator.ofByte? b).isNone) = true
    · simp only [receiveByte, sendEcho, State.setEnv_env, he, if_true]
      rw [send_of_accepts (by exact hr)]
      simp only [Option.map_some]
      congr 1
      simp only [byteIn, hp, he, if_true]
      simp at hp
      simp [State.setEnv, record, State.setTrace, hp]
    · simp only [receiveByte, sendEcho, State.setEnv_env, he]
      simp only [byteIn, hp, he, if_true]
      simp at hp
      simp [State.setEnv, record, State.setTrace, hp]
  · have : sendPrompt s = some s := by simp [sendPrompt, hp]
    rw [this]
    simp only
    have hpp : s.env.prompted = (promptsFor s.env.sel || s.env.prompted) := by
      cases h1 : promptsFor s.env.sel <;> cases h2 : s.env.prompted <;> simp_all
    by_cases he : (echoesFor s.env.sel && (Terminator.ofByte? b).isNone) = true
    · simp only [receiveByte, sendEcho, he, if_true]
      rw [send_of_accepts (by exact hr)]
      simp only [Option.map_some]
      congr 1
      simp only [byteIn, hp, he, if_true]
      simp [State.setEnv, record, State.setTrace, ← hpp]
    · simp only [receiveByte, sendEcho, he]
      simp only [byteIn, hp, he]
      simp [State.setEnv, ← hpp]

/-- The buffer one byte later. -/
theorem lineBuffer_snoc (r : List Byte) (b : Byte) : lineBuffer (r ++ [b]) = bufferStep (lineBuffer r) b := by
  simp [lineBuffer]

/-- A terminator is read as itself. -/
theorem ofByte_code (t : Terminator) : Terminator.ofByte? t.code = some t := by cases t <;> rfl

/-- Reading on in a line that has begun. -/
theorem fetch_line_aux (cs : List Byte) (t : Option Terminator) (rest : List Byte) (s : State) (hr : s.room = none)
   (hc : ∀ c ∈ cs, Terminator.ofByte? c = none) 
   (hl : match t with | some _ => (lineBuffer s.env.received).length + cs.length < 4 | none => (lineBuffer s.env.received).length + cs.length = 4 ∧ cs ≠ [])
   (hp : s.env.prompted = (promptsFor s.env.sel && !(lineBuffer s.env.received).isEmpty))
   (hd : ∀ p q, q ≠ [] → encodeLine ⟨cs, t⟩ = p ++ q → decode (s.env.sel :: (s.env.received ++ p)) = .error .lineUnfinished) :
   fetchFrom (encodeLine ⟨cs, t⟩ ++ rest) s = fetchFrom rest { s with
     env := { s.env with rx := rest, received := s.env.received ++ encodeLine ⟨cs, t⟩, prompted := false },
     trace := s.trace ++ (if promptsFor s.env.sel && !s.env.prompted then [.out .prompt] else []) ++ (if echoesFor s.env.sel then cs.map fun c => .out (.localEcho c) else []) } := by
  induction cs generalizing s with
  | nil =>
    cases t with
    | none => simp at hl
    | some t =>
      have e : encodeLine ⟨[], some t⟩ = [t.code] := rfl
      rw [e]
      rw [List.singleton_append, fetch_byte _ _ _ hr (by have := hd [] [t.code] (by simp) (by rw [e]; rfl); simpa using this)]
      congr 1
      have : lineBuffer (s.env.received ++ [t.code]) = [] := by rw [lineBuffer_snoc]; simp [bufferStep, ofByte_code]
      simp [byteIn, this, ofByte_code]
  | cons c cs ih =>
    have hcn := hc c (by simp)
    have e : encodeLine ⟨c :: cs, t⟩ = c :: encodeLine ⟨cs, t⟩ := rfl
    have hb : lineBuffer (s.env.received ++ [c]) = if (lineBuffer s.env.received).length + 1 = 4 then [] else lineBuffer s.env.received ++ [c] := by
      rw [lineBuffer_snoc]; simp [bufferStep, hcn, Config.maxChars]
    rw [e, List.cons_append, fetch_byte _ _ _ hr (by have := hd [] _ (by simp) e; simpa using this)]
    by_cases hfull : (lineBuffer s.env.received).length + 1 = 4
    · have : cs = [] ∧ t = none := by
        cases t
        · simp at hl; refine ⟨List.length_eq_zero_iff.1 (by omega), rfl⟩
        · simp at hl; omega
      obtain ⟨rfl, rfl⟩ := this
      show fetchFrom rest _ = _
      congr 1
      rw [if_pos hfull] at hb
      simp only [byteIn, hb, hcn]
      simp [encodeLine]
    · rw [if_neg hfull] at hb
      have hne : encodeLine ⟨cs, t⟩ ≠ [] := by
        cases t
        · simp at hl; simp [encodeLine]; rintro rfl; simp at hl; omega
        · simp [encodeLine]
      have hps : (promptsFor s.env.sel || s.env.prompted) = promptsFor s.env.sel := by
        rw [hp]; cases promptsFor s.env.sel <;> simp
      have hbb : (byteIn c (encodeLine ⟨cs, t⟩ ++ rest) s).env.received = s.env.received ++ [c] := rfl
      rw [ih (byteIn c (encodeLine ⟨cs, t⟩ ++ rest) s) hr (fun x hx => hc x (by simp [hx])) ?_ ?_ ?_]
      · congr 1
        have hep : (byteIn c (encodeLine ⟨cs, t⟩ ++ rest) s).env.prompted = promptsFor s.env.sel := by
          simp [byteIn, hb, hps]
        simp only [hep]
        simp [byteIn, hcn]
        cases promptsFor s.env.sel <;> cases echoesFor s.env.sel <;> simp
      · simp only [hbb, hb]
        cases t <;> simp at hl ⊢
        · refine ⟨by omega, ?_⟩
          rintro rfl; simp at hl; omega
        · omega
      · simp [byteIn, hb, hps]
      · intro p q hq he
        have := hd (c :: p) q hq (by rw [e, he]; rfl)
        simpa [byteIn] using this

/-- Reading one whole operand line: prompt once, each stored character echoed for POKE (spec/43_environment.md rules R143, R145, R150). -/
theorem fetch_line (l : Line) (hl : l.wf = true) (rest : List Byte) (s : State) (hr : s.room = none)
   (hb : lineBuffer s.env.received = []) (hp : s.env.prompted = false)
   (hd : ∀ p q, q ≠ [] → encodeLine l = p ++ q → decode (s.env.sel :: (s.env.received ++ p)) = .error .lineUnfinished) :
   fetchFrom (encodeLine l ++ rest) s = fetchFrom rest { s with
     env := { s.env with rx := rest, received := s.env.received ++ encodeLine l, prompted := false },
     trace := s.trace ++ (if promptsFor s.env.sel then [.out .prompt] else []) ++ (if echoesFor s.env.sel then l.chars.map fun c => .out (.localEcho c) else []) } := by
  obtain ⟨cs, t⟩ := l
  have hl' : (∀ c ∈ cs, Terminator.ofByte? c = none) ∧ (match t with | some _ => cs.length < 4 | none => cs.length = 4) := by
    simp only [Line.wf, Bool.and_eq_true, Line.charsStorable, List.all_eq_true] at hl
    refine ⟨by simpa using hl.1, ?_⟩
    have := hl.2
    cases t <;> exact of_decide_eq_true this
  have := fetch_line_aux cs t rest s hr hl'.1 (by
    have h2 := hl'.2
    cases t
    · simp at h2; simp [hb]; refine ⟨h2, ?_⟩; rintro rfl; simp at h2
    · simp at h2; simp [hb]; exact h2) (by simp [hp, hb]) hd
  rw [this]; simp [hp]

/-- After a whole line the buffer is empty. -/
theorem lineBuffer_line_aux (cs : List Byte) (t : Option Terminator) (r : List Byte) (hc : ∀ c ∈ cs, Terminator.ofByte? c = none) 
   (hl : match t with | some _ => (lineBuffer r).length + cs.length < 4 | none => (lineBuffer r).length + cs.length = 4 ∧ cs ≠ []) :
   lineBuffer (r ++ encodeLine ⟨cs, t⟩) = [] := by
  induction cs generalizing r with
  | nil =>
    cases t with
    | none => simp at hl
    | some t => show lineBuffer (r ++ [t.code]) = []; rw [lineBuffer_snoc]; simp [bufferStep, ofByte_code]
  | cons c cs ih =>
    have hcn := hc c (by simp)
    have hb : lineBuffer (r ++ [c]) = if (lineBuffer r).length + 1 = 4 then [] else lineBuffer r ++ [c] := by
      rw [lineBuffer_snoc]; simp [bufferStep, hcn, Config.maxChars]
    by_cases hfull : (lineBuffer r).length + 1 = 4
    · have : cs = [] ∧ t = none := by
        cases t
        · simp at hl; refine ⟨List.length_eq_zero_iff.1 (by omega), rfl⟩
        · simp at hl; omega
      obtain ⟨rfl, rfl⟩ := this
      rw [if_pos hfull] at hb
      simpa [encodeLine] using hb
    · rw [if_neg hfull] at hb
      have := ih (r ++ [c]) (fun x hx => hc x (by simp [hx])) (by
        rw [hb]
        cases t <;> simp at hl ⊢
        · refine ⟨by omega, ?_⟩
          rintro rfl; simp at hl; omega
        · omega)
      simpa [encodeLine] using this

/-- A `SEL_L` command whose line has not ended is unfinished. -/
theorem decode_oneLine_unfinished (sel : Byte) (mk : Line → Instr) (p : List Byte) (h : readLine p = none) (hs : sel = selPeek ∧ mk = .peek ∨ sel = selAngle ∧ mk = .angle) : decode (sel :: p) = .error .lineUnfinished := by
  rcases hs with ⟨rfl, rfl⟩ | ⟨rfl, rfl⟩ <;> simp [decode, decodeOneLine, h, selPeek, selAngle, selDiag, selPoke]

/-- Reading stops at a whole command. -/
theorem fetch_done (bs : List Byte) (i : Instr) (s : State) (r : List Byte) (h : decode (s.env.sel :: s.env.received) = .ok (i, r)) : fetchFrom bs s = .ready i s := by
  cases bs <;> (unfold fetchFrom; rw [h])

/-! ### A command that arrives in pieces -/

/-- While a line has not ended the buffer holds what has been received of it. -/
theorem foldl_bufferStep_of_unfinished (n : Nat) (buf bs : List Byte) (hn : buf.length + n = 4)
    (h : takeLine n bs = none) : bs.foldl bufferStep buf = buf ++ bs := by
  induction bs generalizing n buf with
  | nil => simp
  | cons b bs ih =>
    cases n with
    | zero => simp [takeLine] at h
    | succ n =>
      unfold takeLine at h
      split at h
      · cases h
      · rename_i hb
        have h' : takeLine n bs = none := by simpa using h
        have hn0 : n ≠ 0 := by rintro rfl; simp [takeLine] at h'
        have hs : bufferStep buf b = buf ++ [b] := by
          simp [bufferStep, hb, Config.maxChars]; omega
        rw [List.foldl_cons, hs, ih n (buf ++ [b]) (by simp; omega) h']
        simp

/-- Before the first line has ended the buffer holds all that has been received. -/
theorem lineBuffer_of_unfinished {r : List Byte} (h : readLine r = none) : lineBuffer r = r := by
  simpa [lineBuffer] using foldl_bufferStep_of_unfinished 4 [] r rfl h

/-- A proper prefix of a command is unfinished. -/
theorem decode_prefix {i : Instr} {sel : Byte} {p q : List Byte} (hw : i.wf = true)
    (he : encode i = sel :: (p ++ q)) (hq : q ≠ []) :
    decode (sel :: p) = .error .lineUnfinished := by
  cases i <;> simp only [encode, List.cons.injEq] at he <;> obtain ⟨rfl, he⟩ := he
  case diag => exact absurd (List.append_eq_nil_iff.1 he.symm).2 hq
  case exit => exact absurd (List.append_eq_nil_iff.1 he.symm).2 hq
  case peek a => exact decode_oneLine_unfinished _ .peek p (readLine_unfinished a p q hw he hq) (.inl ⟨rfl, rfl⟩)
  case angle a => exact decode_oneLine_unfinished _ .angle p (readLine_unfinished a p q hw he hq) (.inr ⟨rfl, rfl⟩)
  case poke a d =>
    simp only [Instr.wf, Bool.and_eq_true] at hw
    suffices h : readLine p = none ∨ ∃ p', readLine p = some (a, p') ∧ readLine p' = none by
      rcases h with h | ⟨p', h, h'⟩ <;>
        simp [decode, decodeTwoLines, decodeOneLine, selPoke, selDiag, selPeek, *]
    rcases List.append_eq_append_iff.1 he with ⟨m, rfl, hd⟩ | ⟨m, ha, rfl⟩
    · exact .inr ⟨m, readLine_encodeLine a m hw.1, readLine_unfinished d m q hw.2 hd hq⟩
    · by_cases hm : m = []
      · subst hm
        have e : p = encodeLine a ++ [] := by rw [ha]; simp
        exact .inr ⟨[], by rw [e]; exact readLine_encodeLine a [] hw.1, rfl⟩
      · exact .inl (readLine_unfinished a p m hw.1 ha hm)

/-- After the operand bytes of a whole command the buffer is empty. -/
theorem lineBuffer_operandBytes {i : Instr} (hw : i.wf = true) : lineBuffer (operandBytes i) = [] := by
  have fits : ∀ l : Line, l.wf = true → ∀ r, lineBuffer r = [] → lineBuffer (r ++ encodeLine l) = [] := by
    intro l hl r hr
    simp only [Line.wf, Bool.and_eq_true, Line.charsStorable, List.all_eq_true] at hl
    refine lineBuffer_line_aux l.chars l.ended r (by simpa using hl.1) ?_
    have h2 := hl.2
    unfold Line.lengthFits at h2
    rw [hr]
    cases he : l.ended <;> rw [he] at h2 <;> have h2 := of_decide_eq_true h2
    · exact ⟨by simpa [Config.maxChars] using h2, by rintro e; simp [e, Config.maxChars] at h2⟩
    · simpa [Config.maxChars] using h2
  cases i with
  | diag => rfl
  | exit => rfl
  | peek a => simpa [operandBytes, encode] using fits a hw [] rfl
  | angle a => simpa [operandBytes, encode] using fits a hw [] rfl
  | poke a d =>
    simp only [Instr.wf, Bool.and_eq_true] at hw
    have ha : lineBuffer (encodeLine a) = [] := by simpa using fits a hw.1 [] rfl
    simpa [operandBytes, encode] using fits d hw.2 _ ha

theorem pokeEvents_append (r a b : List Byte) :
    pokeEvents r (a ++ b) = pokeEvents r a ++ pokeEvents (r ++ a) b := by
  induction a generalizing r with
  | nil => simp [pokeEvents]
  | cons x a ih => simp [pokeEvents, ih]

/-- Only PEEK and POKE prompt (rules R143, R145; log 19). -/
theorem promptsFor_eq (sel : Byte) : promptsFor sel = decide (sel = 0x32#8 ∨ sel = 0x33#8) := by
  rw [Bool.decide_or]; rfl

/-- Only POKE echoes (rule R150). -/
theorem echoesFor_eq (sel : Byte) : echoesFor sel = decide (sel = 0x33#8) := rfl

/-- Only the two terminators are none of the characters that are stored (rule R53). -/
theorem ofByte_isNone (b : Byte) :
    (Terminator.ofByte? b).isNone = !decide (b = 0x0A#8 ∨ b = 0x0D#8) := by
  unfold Terminator.ofByte?
  split
  · simp [*]
  · split <;> simp [*]

/-- The value `prompted` has once a due prompt has been sent. -/
abbrev PromptSent (s : State) (pr : Bool) : Prop :=
  ((s.env.sel = 0x32#8 ∨ s.env.sel = 0x33#8) → pr = true) ∧
    (s.env.sel = 0x34#8 → s.env.prompted = false → pr = false)

/-- Sending a due prompt does not change how reading goes on. -/
theorem fetch_settle (tail : List Byte) (s : State) (hr : s.room = none) (hrx : s.env.rx = tail)
    (hd : decode (s.env.sel :: s.env.received) = .error .lineUnfinished) :
    fetchFrom tail s =
      fetchFrom tail (s.afterBytes [] tail (promptsFor s.env.sel || s.env.prompted)) := by
  obtain ⟨cfg, blk, pwm, mem, env, trace, room, world, draws⟩ := s
  obtain ⟨interp, stage, sel, received, prompted, opAddr, opData, rx⟩ := env
  simp only at hr hrx hd
  subst hr hrx
  by_cases hp : sel = 0x32#8 ∨ sel = 0x33#8
  · cases prompted
    · have h2 : promptsFor sel = true := by rw [promptsFor_eq]; exact decide_eq_true hp
      cases rx <;>
        simp [fetchFrom, hd, State.afterBytes, State.promptDue, pokeEvents, h2, hp,
          sendPrompt, send, record, State.setTrace, State.setEnv]
    · simp [State.afterBytes, State.promptDue, pokeEvents]
  · have h2 : promptsFor sel = false := by rw [promptsFor_eq]; exact decide_eq_false hp
    simp [State.afterBytes, State.promptDue, pokeEvents, h2, hp]

/-- An unfinished PEEK has no line that has ended. -/
theorem lineBuffer_of_unfinishedPeek {r : List Byte}
    (h : decode (selPeek :: r) = .error .lineUnfinished) : lineBuffer r = r := by
  apply lineBuffer_of_unfinished
  cases hl : readLine r with
  | none => rfl
  | some x => simp [decode, decodeOneLine, hl, selPeek, selDiag] at h

/-- What an operand byte sends. -/
theorem byteIn_trace (b : Byte) (rest : List Byte) (s : State) :
    (byteIn b rest s).trace = s.trace ++ s.promptDue ++
      (if s.env.sel = 0x33#8 then if b = 0x0A#8 ∨ b = 0x0D#8 then [] else [.out (.localEcho b)] else []) := by
  simp only [byteIn, State.promptDue, promptsFor_eq, echoesFor_eq, ofByte_isNone]
  congr 1
  · by_cases h1 : s.env.sel = 0x32#8 ∨ s.env.sel = 0x33#8 <;> cases h2 : s.env.prompted <;> simp [h1]
  · by_cases h1 : s.env.sel = 0x33#8 <;> by_cases h2 : b = 0x0A#8 ∨ b = 0x0D#8 <;> simp [h1, h2]

/-- One byte, and then the others. -/
theorem byteIn_afterBytes (b : Byte) (bs tail : List Byte) (pr : Bool) (s : State)
    (hd : decode (s.env.sel :: (s.env.received ++ [b])) = .error .lineUnfinished) :
    (byteIn b (bs ++ tail) s).afterBytes bs tail pr = s.afterBytes (b :: bs) tail pr := by
  have ht : (byteIn b (bs ++ tail) s).promptDue = if (s.env.sel = 0x32#8 ∨ s.env.sel = 0x33#8) ∧
      lineBuffer (s.env.received ++ [b]) = [] then [.out .prompt] else [] := by
    by_cases h : s.env.sel = 0x32#8 ∨ s.env.sel = 0x33#8 <;>
      simp [State.promptDue, byteIn, promptsFor_eq, h]
  have hs : (byteIn b (bs ++ tail) s).env.sel = s.env.sel := rfl
  have hr : (byteIn b (bs ++ tail) s).env.received = s.env.received ++ [b] := rfl
  simp only [State.afterBytes, byteIn_trace, ht, hs, hr, pokeEvents]
  have e : s.trace ++ s.promptDue ++
      (if s.env.sel = 0x33#8 then if b = 0x0A#8 ∨ b = 0x0D#8 then [] else [.out (.localEcho b)] else []) ++
      (if (s.env.sel = 0x32#8 ∨ s.env.sel = 0x33#8) ∧ lineBuffer (s.env.received ++ [b]) = [] then
        [.out .prompt] else []) ++
      (if s.env.sel = 0x33#8 then pokeEvents (s.env.received ++ [b]) bs else []) =
    s.trace ++ s.promptDue ++ (if s.env.sel = 0x33#8 then
      (if b = 0x0A#8 ∨ b = 0x0D#8 then [] else [.out (.localEcho b)]) ++
      (if lineBuffer (s.env.received ++ [b]) = [] ∧
          decode (selPoke :: (s.env.received ++ [b])) = .error .lineUnfinished then [.out .prompt] else []) ++
      pokeEvents (s.env.received ++ [b]) bs else []) := by
    by_cases h3 : s.env.sel = 0x33#8
    · have hd' : decode (selPoke :: (s.env.received ++ [b])) = .error .lineUnfinished := by
        rw [h3] at hd; exact hd
      simp [h3, hd', List.append_assoc]
    · by_cases h2 : s.env.sel = 0x32#8
      · have hb := lineBuffer_of_unfinishedPeek (r := s.env.received ++ [b]) (by rw [h2] at hd; exact hd)
        simp [h2, hb]
      · simp [h2, h3]
  rw [e]
  simp [byteIn]

/-- Operand bytes that do not complete the command. -/
theorem fetch_piece (bs tail : List Byte) (s : State) (hr : s.room = none)
    (hrx : s.env.rx = bs ++ tail)
    (hd : ∀ p q, bs = p ++ q →
      decode (s.env.sel :: (s.env.received ++ p)) = .error .lineUnfinished) :
    ∃ pr, PromptSent s pr ∧ fetchFrom (bs ++ tail) s = fetchFrom tail (s.afterBytes bs tail pr) := by
  induction bs generalizing s with
  | nil =>
    have h0 := hd [] [] rfl
    rw [List.append_nil] at h0
    refine ⟨promptsFor s.env.sel || s.env.prompted, ⟨fun h => ?_, fun h h' => ?_⟩,
      fetch_settle tail s hr hrx h0⟩
    · simp [promptsFor_eq, h]
    · simp [promptsFor_eq, h, h']
  | cons b bs ih =>
    have h0 := hd [] (b :: bs) rfl
    rw [List.append_nil] at h0
    obtain ⟨pr, h1, h2⟩ := ih (byteIn b (bs ++ tail) s) hr rfl (by
      intro p q e
      have := hd (b :: p) q (by rw [e]; rfl)
      simpa [byteIn] using this)
    refine ⟨pr, ⟨h1.1, fun h h' => h1.2 h ?_⟩, ?_⟩
    · simp [byteIn, promptsFor_eq, h, h']
    · rw [List.cons_append, fetch_byte b _ s hr h0, h2,
        byteIn_afterBytes b bs tail pr s (hd [b] bs rfl)]

/-- Operand bytes that complete the command. -/
theorem fetch_rest {i : Instr} (bs rest : List Byte) (s : State) (hr : s.room = none)
    (hrx : s.env.rx = bs ++ rest) (hw : i.wf = true)
    (he : encode i = s.env.sel :: (s.env.received ++ bs)) (hbs : bs ≠ [])
    (hok : decode (encode i) = .ok (i, [])) :
    fetchFrom (bs ++ rest) s = .ready i (s.afterBytes bs rest false) := by
  obtain ⟨bs, b, rfl⟩ : ∃ l b, bs = l ++ [b] := ⟨_, _, (List.dropLast_append_getLast hbs).symm⟩
  have unfinished : ∀ p q, q ≠ [] → bs ++ [b] = p ++ q →
      decode (s.env.sel :: (s.env.received ++ p)) = .error .lineUnfinished := fun p q hq e =>
    decode_prefix hw (by rw [he, e, List.append_assoc]) hq
  have hops : operandBytes i = s.env.received ++ (bs ++ [b]) := by simp [operandBytes, he]
  rw [List.append_assoc, List.singleton_append] at hrx ⊢
  obtain ⟨pr, h1, h2⟩ := fetch_piece bs (b :: rest) s hr hrx (by
    rintro p q rfl
    exact unfinished p (q ++ [b]) (by simp) (by simp))
  rw [h2, fetch_byte b rest (s.afterBytes bs (b :: rest) pr) hr (unfinished bs [b] (by simp) rfl),
    fetch_done rest i _ [] (by rw [← hok, he]; simp [byteIn, State.afterBytes])]
  have hb : lineBuffer (s.env.received ++ (bs ++ [b])) = [] := by
    rw [← hops]; exact lineBuffer_operandBytes hw
  have hn : ¬ decode (selPoke :: (s.env.received ++ (bs ++ [b]))) = .error .lineUnfinished ∨
      s.env.sel ≠ 0x33#8 := by
    by_cases h : s.env.sel = 0x33#8
    · refine .inl fun hu => ?_
      rw [he, h] at hok
      rw [show selPoke = 0x33#8 from rfl, hok] at hu
      cases hu
    · exact .inr h
  have ht : (byteIn b rest (s.afterBytes bs (b :: rest) pr)).trace =
      (s.afterBytes (bs ++ [b]) rest false).trace := by
    rw [byteIn_trace]
    have hd : (s.afterBytes bs (b :: rest) pr).promptDue = [] := by
      simp only [State.promptDue, State.afterBytes]
      exact if_neg fun h => by simp [h1.1 h.1] at h
    rw [hd]
    by_cases h : s.env.sel = 0x33#8
    · have hn := hn.resolve_right (not_not_intro h)
      simp [State.afterBytes, h, pokeEvents_append, pokeEvents, hn, List.append_assoc]
    · simp [State.afterBytes, h]
  have : byteIn b rest (s.afterBytes bs (b :: rest) pr) =
      { byteIn b rest (s.afterBytes bs (b :: rest) pr) with
        trace := (s.afterBytes (bs ++ [b]) rest false).trace } := by rw [← ht]
  rw [this]
  simp [byteIn, State.afterBytes, hb, List.append_assoc]

end Sys2Proof.Machine
end

