-- ==== Sys2Proof/Laws/Walk.lean ====
section
/-! SUPPORT. What a walk can do: the phases of DIAG against the pseudocode of spec/40_memory_walker.md
rule R72, and the memory, reports and marks it leaves. -/

namespace Sys2Proof.Machine

/-- The block in phase `p` at `u` has done what the pseudocode has done at `v`. -/
structure WalkSim (s : State) (p : Phase) (u v : State) : Prop where
  cfg : u.cfg = v.cfg
  cfgs : v.cfg = s.cfg
  vb : v.blk.phase = .idle ∧ v.blk.done = false ∧ v.blk.cmdValid = false
  mem : u.mem = v.mem
  trace : u.trace = v.trace
  blk : u.blk = { v.blk with phase := p, cmdSel := selDiag }
  room : u.room = none
  nores : u.noReset
  period : u.pwm.period = s.pwm.period
  compare : u.pwm.compare = s.pwm.compare
  mode : u.pwm.mode = s.pwm.mode
  interp : u.env.interp = .dispatch
  stage : u.env.stage = .block

/-- A turn of the outside world keeps the correspondence. -/
theorem WalkSim.world {s p u v} (h : WalkSim s p u v) : WalkSim s p (worldTurn u) v :=
  ⟨by simp [h.cfg], h.cfgs, h.vb, by simp [h.mem], by simp [h.trace], by simp [h.blk], worldTurn_room h.room, worldTurn_noReset h.nores,
   by simp [h.period], by simp [h.compare], by simp [h.mode], by simp [h.interp], by simp [h.stage]⟩

theorem WalkSim.phase {s p u v} (h : WalkSim s p u v) : u.blk.phase = p := by rw [h.blk]

/-- The phases D_CHECK to D_CMP run the `while` loop of rule R72. -/
theorem walk_sim (s : State) (i : Fin 2) (hs : (s.cfg.range i).stop.toNat ≤ 0xFFFD) (n : Nat) : ∀ (u v : State), WalkSim s .dCheck u v → v.blk.ri = i →
   ((s.cfg.range i).stop.toNat < v.blk.addr.toNat ∨ v.blk.addr.toNat + 2 * n ≤ (s.cfg.range i).stop.toNat + 2 ∧ (s.cfg.range i).stop.toNat < v.blk.addr.toNat + 2 * n) →
   ∃ k u', k ≤ 4 * n + 1 ∧ (∀ m, seqRun (m + k) u = seqRun m u') ∧ WalkSim s .dVerdict u' (pseudoWalk n i v) ∧ (pseudoWalk n i v).blk.ri = i := by
  induction n with
  | zero =>
    intro u v h hi hb
    have hlt : (s.cfg.range i).stop.toNat < v.blk.addr.toNat := by omega
    have h' := h.world
    refine ⟨1, (worldTurn u).enter .dVerdict, by omega, fun m => run_go (quiet_of_phase (by simp [h.phase])) h.nores ?_, ?_, hi⟩
    · rw [phaseStep_dCheck h'.phase, dCheck]
      have : ¬ (worldTurn u).blk.addr ≤ (worldTurn u).walkRange.stop := by
        rw [State.walkRange, h'.cfg, h'.cfgs, h'.blk, BitVec.le_def]; simp only [hi]; omega
      rw [if_neg this]
    · exact { h' with blk := by simp only [State.enter_blk, h'.blk, pseudoWalk] }
  | succ n ih =>
    intro u v h hi hb
    have h' := h.world
    by_cases hle : v.blk.addr ≤ (s.cfg.range i).stop
    · have hle' := hle
      rw [BitVec.le_def] at hle'
      have e1 : ∀ m, seqRun (m + 1) u = seqRun m ((worldTurn u).enter .dWrite) := fun m => run_go (quiet_of_phase (by simp [h.phase])) h.nores (by
        rw [phaseStep_dCheck h'.phase, dCheck]
        have : (worldTurn u).blk.addr ≤ (worldTurn u).walkRange.stop := by
          rw [State.walkRange, h'.cfg, h'.cfgs, h'.blk]; simp only [hi]; exact hle
        rw [if_pos this])
      have h1 : WalkSim s .dWrite ((worldTurn u).enter .dWrite) v := { h' with blk := by simp only [State.enter_blk, h'.blk] }
      have h1' := h1.world
      let w1 := worldTurn ((worldTurn u).enter .dWrite)
      let u2 := (memWrite2 w1.blk.addr w1.cfg.sentinel w1).enter .dRead
      have e2 : ∀ m, seqRun (m + 1) ((worldTurn u).enter .dWrite) = seqRun m u2 := fun m => run_go (quiet_of_phase (by simp)) h1.nores (by
        rw [phaseStep_dWrite h1'.phase]; rfl)
      let v1 := memWrite2 v.blk.addr v.cfg.sentinel v
      have ha1 : w1.blk.addr = v.blk.addr := by simp only [w1]; rw [h1'.blk]
      have hc1 : w1.cfg = v.cfg := h1'.cfg
      have h2 : WalkSim s .dRead u2 v1 := 
        ⟨h1'.cfg, h1'.cfgs, h1'.vb, by simp [u2, v1, ha1, hc1, show w1.mem = v.mem from h1'.mem], by simp only [u2, v1, ha1, hc1, State.enter_trace, memWrite2_trace, show w1.trace = v.trace from h1'.trace],
         by simp only [u2, v1, State.enter_blk, memWrite2_blk, show w1.blk = _ from h1'.blk], h1'.room, h1'.nores, h1'.period, h1'.compare, h1'.mode, h1'.interp, h1'.stage⟩
      have h2' := h2.world
      let w2 := worldTurn u2
      let u3 := (memRead2 w2.blk.addr w2).setBlk { (memRead2 w2.blk.addr w2).blk with rd := memValue2 w2.blk.addr w2, phase := .dCmp }
      have e3 : ∀ m, seqRun (m + 1) u2 = seqRun m u3 := fun m => run_go (quiet_of_phase (by simp [h2.phase])) h2.nores (by
        rw [phaseStep_dRead h2'.phase]; rfl)
      let v2 := memRead2 v.blk.addr v1
      let v3 := v2.setBlk { v2.blk with rd := memValue2 v.blk.addr v1 }
      have ha2 : w2.blk.addr = v.blk.addr := by simp only [w2]; rw [h2'.blk]; rfl
      have hc2 : w2.cfg = v1.cfg := h2'.cfg
      have hm2 : w2.mem = v1.mem := h2'.mem
      have hv2 : memValue2 w2.blk.addr w2 = memValue2 v.blk.addr v1 := by simp [memValue2, ha2, hc2, hm2]
      have hv2' : memValue2 v.blk.addr w2 = memValue2 v.blk.addr v1 := by rw [← hv2, ha2]
      have hb1 : v1.blk = v.blk := rfl
      have h3 : WalkSim s .dCmp u3 v3 :=
        ⟨h2'.cfg, h2'.cfgs, h2'.vb, by simp [u3, v3, v2, hm2], by simp only [u3, v3, v2, ha2, hv2', State.setBlk_trace, memRead2_trace, show w2.trace = v1.trace from h2'.trace],
         by simp only [u3, v3, v2, hv2', State.setBlk_blk, memRead2_blk, hb1, show w2.blk = _ from h2'.blk], h2'.room, h2'.nores, h2'.period, h2'.compare, h2'.mode, h2'.interp, h2'.stage⟩
      have h3' := h3.world
      let w3 := worldTurn u3
      have hp : pseudoWalk (n+1) i v = if v3.blk.rd ≠ v3.cfg.sentinel then pseudoFail i v3 else pseudoWalk n i (v3.setBlk { v3.blk with addr := v3.blk.addr + 2#16 }) := by
        have : v.blk.addr ≤ (v.cfg.range i).stop := by rw [h.cfgs]; exact hle
        conv_lhs => unfold pseudoWalk
        rw [if_pos this]
      have hrd : w3.blk.rd = v3.blk.rd := by simp only [w3]; rw [h3'.blk]
      have hcs : w3.cfg.sentinel = v3.cfg.sentinel := by rw [show w3.cfg = v3.cfg from h3'.cfg]
      have hri3 : v3.blk.ri = i := hi
      have had3 : v3.blk.addr = v.blk.addr := rfl
      by_cases hf : v3.blk.rd ≠ v3.cfg.sentinel
      · rw [hp, if_pos hf]
        let u4 := (record (.out (.failAddr w3.blk.addr)) w3).setBlk { w3.blk.setFailAddr w3.blk.ri w3.blk.addr with failed := true, phase := .dVerdict }
        have e4 : ∀ m, seqRun (m + 1) u3 = seqRun m u4 := fun m => run_go (quiet_of_phase (by simp [h3.phase])) h3.nores (by
          rw [phaseStep_dCmp h3'.phase, dCmp, if_pos (show verifyFails w3.blk.rd w3.cfg.sentinel = true by rw [hrd, hcs]; simpa [verifyFails] using hf), reportThen_of_accepts h3'.room]; rfl)
        refine ⟨4, u4, by omega, fun m => ?_, ?_, ?_⟩
        · rw [show m + 4 = m + 1 + 1 + 1 + 1 by omega, e1, e2, e3, e4]
        · have hb3 : w3.blk = { v3.blk with phase := .dCmp, cmdSel := selDiag } := h3'.blk
          refine ⟨h3'.cfg, h3'.cfgs, by simp only [pseudoFail, State.setBlk_blk, Block.setFailAddr, record_blk]; split <;> exact h3'.vb, h3'.mem, ?_, ?_, h3'.room, h3'.nores, h3'.period, h3'.compare, h3'.mode, h3'.interp, h3'.stage⟩
          · simp only [u4, pseudoFail, State.setBlk_trace, record_trace, show w3.trace = v3.trace from h3'.trace, hb3]
          · simp only [u4, pseudoFail, State.setBlk_blk, hb3, hri3, Block.setFailAddr, record_blk]
            by_cases h0 : i = 0 <;> simp [h0]
        · simp only [pseudoFail, State.setBlk_blk, Block.setFailAddr, record_blk]
          by_cases h0 : i = 0 <;> simp [h0, hri3]
      · rw [hp, if_neg hf]
        let u4 := w3.setBlk { w3.blk with addr := w3.blk.addr + 2#16, phase := .dCheck }
        let v4 := v3.setBlk { v3.blk with addr := v3.blk.addr + 2#16 }
        have e4 : ∀ m, seqRun (m + 1) u3 = seqRun m u4 := fun m => run_go (quiet_of_phase (by simp [h3.phase])) h3.nores (by
          rw [phaseStep_dCmp h3'.phase, dCmp, if_neg (show ¬ verifyFails w3.blk.rd w3.cfg.sentinel = true by rw [hrd, hcs]; simpa [verifyFails] using hf)])
        have h4 : WalkSim s .dCheck u4 v4 := by
          have hb3 : w3.blk = { v3.blk with phase := .dCmp, cmdSel := selDiag } := h3'.blk
          exact ⟨h3'.cfg, h3'.cfgs, h3'.vb, h3'.mem, h3'.trace, by simp only [u4, v4, State.setBlk_blk, hb3], h3'.room, h3'.nores, h3'.period, h3'.compare, h3'.mode, h3'.interp, h3'.stage⟩
        have ha4 : v4.blk.addr.toNat = v.blk.addr.toNat + 2 := by
          show (v.blk.addr + 2#16).toNat = _
          rw [BitVec.toNat_add]; simp; omega
        obtain ⟨k, u', hk, hr, hsim, hri⟩ := ih u4 v4 h4 hi (by rw [ha4]; omega)
        refine ⟨k + 4, u', by omega, fun m => ?_, hsim, hri⟩
        rw [show m + (k + 4) = m + k + 1 + 1 + 1 + 1 by omega, e1, e2, e3, e4, hr]
    · have hp : pseudoWalk (n+1) i v = v := by
        unfold pseudoWalk; rw [if_neg (by rw [h.cfgs]; exact hle)]
      rw [hp]
      refine ⟨1, (worldTurn u).enter .dVerdict, by omega, fun m => run_go (quiet_of_phase (by simp [h.phase])) h.nores ?_, ?_, hi⟩
      · rw [phaseStep_dCheck h'.phase, dCheck]
        have : ¬ (worldTurn u).blk.addr ≤ (worldTurn u).walkRange.stop := by
          rw [State.walkRange, h'.cfg, h'.cfgs, h'.blk]; simp only [hi]; exact hle
        rw [if_neg this]
      · exact { h' with blk := by simp only [State.enter_blk, h'.blk] }

/-- D_BOUNDS and the walk run the body of rule R72's `for` loop up to its verdict. -/
theorem range_sim (s : State) (i : Fin 2) (hs : (s.cfg.range i).ok = true) (u v : State) (h : WalkSim s .dBounds u { v with blk := { v.blk with ri := i } }) :
   ∃ k u', k ≤ 4 * (s.cfg.range i).units + 2 ∧ (∀ m, seqRun (m + k) u = seqRun m u') ∧ 
     ∃ w, u'.blk.phase = .dVerdict ∧ WalkSim s .dVerdict u' w ∧ w.blk.ri = i ∧
      pseudoRange i v = record (.out (if w.blk.failed then .rangeFail (s.cfg.range i).start (s.cfg.range i).stop else .rangeOk)) (w.setBlk (w.blk.setFail i w.blk.failed)) := by
  have hcv : v.cfg = s.cfg := h.cfgs
  simp only [Range.ok, Bool.and_eq_true, decide_eq_true_eq] at hs
  have h' := h.world
  let w0 := worldTurn u
  let u1 := (record (.out (.bounds w0.walkRange.start w0.walkRange.stop)) w0).setBlk { w0.blk with failed := false, addr := w0.walkRange.start, phase := .dCheck }
  have hri : w0.walkRange = s.cfg.range i := by
    simp only [w0]; rw [State.walkRange, h'.cfg, h'.cfgs, h'.blk]
  have e1 : ∀ m, seqRun (m + 1) u = seqRun m u1 := fun m => run_go (quiet_of_phase (by simp [h.phase])) h.nores (by
    rw [phaseStep_dBounds h'.phase, dBounds, reportThen_of_accepts h'.room]; rfl)
  let r := v.cfg.range i
  let s1 := record (.out (.bounds r.start r.stop)) v
  let s2 := s1.setBlk { s1.blk with ri := i, failed := false, addr := r.start }
  have hsim : WalkSim s .dCheck u1 s2 := 
    ⟨h'.cfg, h'.cfgs, h'.vb, h'.mem, by simp [u1, s2, s1, hri, r, hcv]; exact h'.trace, by simp only [u1, s2, s1, State.setBlk_blk, hri, r, hcv, show w0.blk = _ from h'.blk, record_blk], h'.room, h'.nores, h'.period, h'.compare, h'.mode, h'.interp, h'.stage⟩
  have hst : s2.blk.addr = (s.cfg.range i).start := by simp [s2, r, hcv]
  obtain ⟨k, u', hk, hr, hsim', hri'⟩ := walk_sim s i hs.2 (s.cfg.range i).units u1 s2 hsim rfl (by
    rw [hst]; right; simp only [Range.units]; omega)
  refine ⟨k + 1, u', by omega, fun m => ?_, pseudoWalk (s.cfg.range i).units i s2, hsim'.phase, hsim', hri', ?_⟩
  · rw [show m + (k+1) = m + k + 1 by omega, e1, hr]
  · have hf : ∀ (b : Block) (i : Fin 2) (x : Bool), (b.setFail i x).failed = b.failed := by intro b i x; unfold Block.setFail; split <;> rfl
    simp only [pseudoRange, s2, s1, r, hcv, State.setBlk_blk, hf]

/-- One unit of a walk: write the sentinel, read it back (rules R75, R76). -/
def visit (a : Word) (v : State) : State :=
  let s1 := memWrite2 a v.cfg.sentinel v
  (memRead2 a s1).setBlk { v.blk with rd := memValue2 a s1 }

/-- One round of the loop of rule R72. -/
theorem pseudoWalk_succ (n : Nat) (i : Fin 2) (v : State) : pseudoWalk (n+1) i v =
   if v.blk.addr ≤ (v.cfg.range i).stop then
     if (visit v.blk.addr v).blk.rd ≠ v.cfg.sentinel then pseudoFail i (visit v.blk.addr v)
     else pseudoWalk n i ((visit v.blk.addr v).setBlk { (visit v.blk.addr v).blk with addr := v.blk.addr + 2#16 })
   else v := rfl

/-- Everything a walk of at most `n` units can do; `vs` are the values read back. -/
structure WalkOut (n : Nat) (i : Fin 2) (v w : State) (vs : List Word) : Prop where
  len : vs.length ≤ n
  pos : 1 ≤ n → 1 ≤ vs.length
  drop : ∀ x ∈ vs.dropLast, x = v.cfg.sentinel
  cfg : w.cfg = v.cfg
  ri : w.blk.ri = v.blk.ri
  fail0 : w.blk.fail0 = v.blk.fail0
  fail1 : w.blk.fail1 = v.blk.fail1
  other : ∀ j, j ≠ i → w.blk.failAddr j = v.blk.failAddr j
  stuck : w.mem.stuck = v.mem.stuck
  answers : (∀ x ∈ v.mem.answers, x = none) → ∀ x ∈ w.mem.answers, x = none
  wf : v.mem.wf = true → w.mem.wf = true
  txns : w.txns = v.txns ++ walkTxns v.cfg.sentinel v.blk.addr vs
  pass : w.blk.failed = false → vs.length = n ∧ w.reports = v.reports
  fail : w.blk.failed = true → 1 ≤ vs.length ∧ (w.blk.failAddr i).toNat = v.blk.addr.toNat + 2 * (vs.length - 1) ∧ w.reports = v.reports ++ [.failAddr (w.blk.failAddr i)]
  mem : v.mem.wf = true → ∀ x, w.mem.storedByte x = if v.blk.addr.toNat ≤ x ∧ x < v.blk.addr.toNat + 2 * vs.length then sentinelByte v.cfg v.blk.addr.toNat x else v.mem.storedByte x

/-- The bytes stored after one unit (rule R31). -/
theorem visit_stored (a : Word) (v : State) (h : v.mem.wf = true) (ha : a.toNat ≤ 0xFFFD) (x : Nat) : (visit a v).mem.storedByte x = if x = a.toNat then lowerByte v.cfg.byteOrder v.cfg.sentinel else if x = a.toNat + 1 then upperByte v.cfg.byteOrder v.cfg.sentinel else v.mem.storedByte x := by
  have : (visit a v).mem = (v.mem.storeUnit v.cfg.byteOrder a v.cfg.sentinel).afterRead := rfl
  rw [this, Memory.storedByte_afterRead, Memory.storedByte_storeUnit _ _ _ _ _ h]
  have e : (a + 1#16).toNat = a.toNat + 1 := by rw [BitVec.toNat_add]; simp; omega
  rw [e]
  by_cases h1 : x = a.toNat
  · have : x ≠ a.toNat + 1 := by omega
    simp [h1]
  · simp [h1]

/-- Every walk is a `WalkOut`. -/
theorem walk_out (i : Fin 2) (n : Nat) : ∀ (v : State), (v.cfg.range i).stop.toNat ≤ 0xFFFD → v.blk.failed = false →
   v.blk.addr.toNat + 2 * n ≤ (v.cfg.range i).stop.toNat + 2 → (v.cfg.range i).stop.toNat < v.blk.addr.toNat + 2 * n →
   ∃ vs, WalkOut n i v (pseudoWalk n i v) vs := by
  induction n with
  | zero =>
    intro v hs hf h1 h2
    exact ⟨[], by simp, by simp, by simp, rfl, rfl, rfl, rfl, fun _ _ => rfl, rfl, fun h => h, fun h => h, by simp [walkTxns, pseudoWalk], by simp [pseudoWalk], by simp [pseudoWalk, hf], by intro _ x; simp [pseudoWalk]⟩
  | succ n ih =>
    intro v hs hf h1 h2
    have hle : v.blk.addr ≤ (v.cfg.range i).stop := by rw [BitVec.le_def]; omega
    have ha : v.blk.addr.toNat ≤ 0xFFFD := by omega
    rw [pseudoWalk_succ, if_pos hle]
    by_cases hr : (visit v.blk.addr v).blk.rd ≠ v.cfg.sentinel
    · rw [if_pos hr]
      refine ⟨[(visit v.blk.addr v).blk.rd], by simp, by simp, by simp, rfl, ?_, ?_, ?_, ?_, rfl, ?_, ?_, ?_, ?_, ?_, ?_⟩
      · simp only [pseudoFail, State.setBlk_blk, Block.setFailAddr]; split <;> rfl
      · simp only [pseudoFail, State.setBlk_blk, Block.setFailAddr]; split <;> rfl
      · simp only [pseudoFail, State.setBlk_blk, Block.setFailAddr]; split <;> rfl
      · intro j hj
        simp only [pseudoFail, State.setBlk_blk, Block.setFailAddr, Block.failAddr]
        by_cases h0 : i = 0
        · subst h0; simp [hj]; rfl
        · have h0' : i = 1 := by omega
          have : j = 0 := by omega
          subst this; subst h0'; simp; rfl
      · intro h x hx; exact h x (List.mem_of_mem_tail hx)
      · intro h; exact Memory.wf_storeUnit _ _ _ _ h
      · simp [pseudoFail, visit, State.txns, List.filterMap_cons, PortEvent.txn?, walkTxns, List.filterMap_append]
      · intro h; exfalso; simp [pseudoFail] at h
      · intro _
        have : (pseudoFail i (visit v.blk.addr v)).blk.failAddr i = v.blk.addr := by
          simp only [pseudoFail, State.setBlk_blk, Block.setFailAddr, Block.failAddr]; split <;> rfl
        refine ⟨by simp, by simp [this], ?_⟩
        rw [this]
        simp [pseudoFail, visit, State.reports, List.filterMap_cons, PortEvent.report?, List.filterMap_append]
      · intro hm x
        have e : (pseudoFail i (visit v.blk.addr v)).mem = (visit v.blk.addr v).mem := rfl
        rw [e, visit_stored _ _ hm ha]
        simp only [List.length_singleton, sentinelByte]
        by_cases hx : x = v.blk.addr.toNat
        · subst hx; simp
        · by_cases hx' : x = v.blk.addr.toNat + 1
          · subst hx'; simp
          · have : ¬ (v.blk.addr.toNat ≤ x ∧ x < v.blk.addr.toNat + 2 * 1) := by omega
            simp only [hx, hx', if_false, if_neg this]
    · rw [if_neg hr]
      let v' := (visit v.blk.addr v).setBlk { (visit v.blk.addr v).blk with addr := v.blk.addr + 2#16 }
      have hav : v'.blk.addr.toNat = v.blk.addr.toNat + 2 := by
        show (v.blk.addr + 2#16).toNat = _
        rw [BitVec.toNat_add]; simp; omega
      obtain ⟨vs, o⟩ := ih v' hs hf (by rw [hav]; show _ ≤ (v.cfg.range i).stop.toNat + 2; omega) (by rw [hav]; show (v.cfg.range i).stop.toNat < _; omega)
      simp only [ne_eq, Decidable.not_not] at hr
      refine ⟨v.cfg.sentinel :: vs, by simp [o.len], by simp, ?_, o.cfg, o.ri, o.fail0, o.fail1, o.other, o.stuck, ?_, ?_, ?_, ?_, ?_, ?_⟩
      · intro x hx
        cases vs with
        | nil => simp at hx
        | cons y ys =>
          simp only [List.dropLast_cons_cons, List.mem_cons] at hx
          rcases hx with rfl | hx
          · rfl
          · exact o.drop x hx
      · intro h; exact o.answers fun x hx => h x (List.mem_of_mem_tail hx)
      · intro h; exact o.wf (Memory.wf_storeUnit _ _ _ _ h)
      · rw [o.txns]
        have : v'.txns = v.txns ++ [.write2 v.blk.addr v.cfg.sentinel, .read2 v.blk.addr v.cfg.sentinel] := by
          simp only [v', State.txns, State.setBlk_trace, visit, memRead2_trace, memWrite2_trace]
          have hr' : memValue2 v.blk.addr (memWrite2 v.blk.addr v.cfg.sentinel v) = v.cfg.sentinel := hr
          rw [hr']
          simp [List.filterMap_append, PortEvent.txn?]
        rw [this]
        show _ ++ walkTxns v.cfg.sentinel (v.blk.addr + 2#16) vs = _
        simp [walkTxns]
      · intro h
        obtain ⟨a, b⟩ := o.pass h
        refine ⟨by simp [a], b.trans ?_⟩
        simp [v', State.reports, visit, List.filterMap_append, List.filterMap_cons, PortEvent.report?]
      · intro h
        obtain ⟨a, b, c⟩ := o.fail h
        refine ⟨by simp, ?_, ?_⟩
        · simp only [v', hav, List.length_cons] at b ⊢
          rw [b]
          have : (v.blk.addr + 2#16).toNat = v.blk.addr.toNat + 2 := hav
          omega
        · refine c.trans ?_
          simp [v', State.reports, visit, List.filterMap_append, List.filterMap_cons, PortEvent.report?]
      · intro hm x
        rw [o.mem (Memory.wf_storeUnit _ _ _ _ hm)]
        rw [show v'.mem.storedByte x = (visit v.blk.addr v).mem.storedByte x from rfl, visit_stored _ _ hm ha, hav]
        simp only [List.length_cons, show v'.cfg = v.cfg from rfl]
        by_cases c1 : v.blk.addr.toNat + 2 ≤ x ∧ x < v.blk.addr.toNat + 2 + 2 * vs.length
        · have c2 : v.blk.addr.toNat ≤ x ∧ x < v.blk.addr.toNat + 2 * (vs.length + 1) := by omega
          rw [if_pos c1, if_pos c2]
          have : (x - (v.blk.addr.toNat + 2)) % 2 = (x - v.blk.addr.toNat) % 2 := by omega
          simp only [sentinelByte, this]
        · rw [if_neg c1]
          by_cases hx : x = v.blk.addr.toNat
          · subst hx; simp [sentinelByte]
          · by_cases hx' : x = v.blk.addr.toNat + 1
            · subst hx'; simp [sentinelByte]; omega
            · have : ¬ (v.blk.addr.toNat ≤ x ∧ x < v.blk.addr.toNat + 2 * (vs.length + 1)) := by omega
              simp only [hx, hx', if_false, if_neg this]

theorem setFail_failed (b : Block) (i : Fin 2) (x : Bool) : (b.setFail i x).failed = b.failed := by unfold Block.setFail; split <;> rfl
theorem setFail_failAddr (b : Block) (i j : Fin 2) (x : Bool) : (b.setFail i x).failAddr j = b.failAddr j := by unfold Block.setFail; split <;> rfl
theorem setFail_fail (b : Block) (i : Fin 2) (x : Bool) : (b.setFail i x).fail i = x := by
  unfold Block.setFail Block.fail; by_cases h : i = 0 <;> simp [h]
theorem setFail_fail_ne (b : Block) (i j : Fin 2) (x : Bool) (h : j ≠ i) : (b.setFail i x).fail j = b.fail j := by
  unfold Block.setFail Block.fail
  by_cases h0 : i = 0
  · subst h0; simp [h]
  · have : j = 0 := by omega
    simp [h0, this]

/-- Everything the walk of one range with its reports can do. -/
structure RangeOut (i : Fin 2) (v w : State) (vs : List Word) : Prop where
  len : vs.length ≤ (v.cfg.range i).units
  pos : 1 ≤ vs.length
  drop : ∀ x ∈ vs.dropLast, x = v.cfg.sentinel
  cfg : w.cfg = v.cfg
  otherF : ∀ j, j ≠ i → w.blk.fail j = v.blk.fail j
  other : ∀ j, j ≠ i → w.blk.failAddr j = v.blk.failAddr j
  stuck : w.mem.stuck = v.mem.stuck
  answers : (∀ x ∈ v.mem.answers, x = none) → ∀ x ∈ w.mem.answers, x = none
  wf : v.mem.wf = true → w.mem.wf = true
  txns : w.txns = v.txns ++ walkTxns v.cfg.sentinel (v.cfg.range i).start vs
  pass : w.blk.fail i = false → vs.length = (v.cfg.range i).units ∧ w.reports = v.reports ++ rangeReports (v.cfg.range i) none
  fail : w.blk.fail i = true → (w.blk.failAddr i).toNat = (v.cfg.range i).start.toNat + 2 * (vs.length - 1) ∧ w.reports = v.reports ++ rangeReports (v.cfg.range i) (some (w.blk.failAddr i))
  mem : v.mem.wf = true → ∀ x, w.mem.storedByte x = if (v.cfg.range i).start.toNat ≤ x ∧ x < (v.cfg.range i).start.toNat + 2 * vs.length then sentinelByte v.cfg (v.cfg.range i).start.toNat x else v.mem.storedByte x

/-- The machine at the start of the walk of range `i` (rule R73). -/
def walkStart (i : Fin 2) (v : State) : State :=
  (record (.out (.bounds (v.cfg.range i).start (v.cfg.range i).stop)) v).setBlk { v.blk with ri := i, failed := false, addr := (v.cfg.range i).start }

/-- Every range is a `RangeOut`. -/
theorem range_out (i : Fin 2) (v : State) (hok : (v.cfg.range i).ok = true) : ∃ vs, RangeOut i v (pseudoRange i v) vs := by
  simp only [Range.ok, Bool.and_eq_true, decide_eq_true_eq] at hok
  obtain ⟨vs, o⟩ := walk_out i (v.cfg.range i).units (walkStart i v) hok.2 rfl (by show (v.cfg.range i).start.toNat + _ ≤ (v.cfg.range i).stop.toNat + 2; simp only [Range.units]; omega)
    (by show (v.cfg.range i).stop.toNat < (v.cfg.range i).start.toNat + _; simp only [Range.units]; omega)
  let w := pseudoWalk (v.cfg.range i).units i (walkStart i v)
  have hw : pseudoRange i v = record (.out (if w.blk.failed then .rangeFail (v.cfg.range i).start (v.cfg.range i).stop else .rangeOk)) (w.setBlk (w.blk.setFail i w.blk.failed)) := by
    unfold pseudoRange; simp only [State.setBlk_blk, setFail_failed]; rfl
  have hpos : 1 ≤ (v.cfg.range i).units := by simp [Range.units]
  refine ⟨vs, ⟨o.len, o.pos hpos, o.drop, ?_, ?_, ?_, ?_, ?_, ?_, ?_, ?_, ?_, ?_⟩⟩ <;> rw [hw]
  · exact o.cfg
  · intro j hj
    simp only [record_blk, State.setBlk_blk, setFail_fail_ne _ _ _ _ hj]
    have h0 := o.fail0
    have h1 := o.fail1
    unfold Block.fail
    split
    · exact h0
    · exact h1
  · intro j hj
    simp only [record_blk, State.setBlk_blk, setFail_failAddr]
    exact o.other j hj
  · exact o.stuck
  · exact o.answers
  · exact o.wf
  · have := o.txns
    have e : (walkStart i v).txns = v.txns := by simp [State.txns, walkStart, PortEvent.txn?]
    rw [e] at this
    have e2 : ∀ r (u : State) b, (record (.out r) (u.setBlk b)).txns = u.txns := by intro r u b; simp [State.txns, PortEvent.txn?]
    rw [e2]; exact this
  · intro h
    simp only [record_blk, State.setBlk_blk, setFail_fail] at h
    obtain ⟨a, b⟩ := o.pass h
    refine ⟨a, ?_⟩
    have e : (walkStart i v).reports = v.reports ++ [.bounds (v.cfg.range i).start (v.cfg.range i).stop] := by simp [State.reports, walkStart, PortEvent.report?]
    rw [e] at b
    have e2 : ∀ r (u : State) b, (record (.out r) (u.setBlk b)).reports = u.reports ++ [r] := by intro r u b; simp [State.reports, PortEvent.report?]
    rw [e2]
    have b' : w.reports = _ := b
    rw [b', h]
    simp [rangeReports]
  · intro h
    simp only [record_blk, State.setBlk_blk, setFail_fail] at h
    obtain ⟨a, b, c⟩ := o.fail h
    simp only [record_blk, State.setBlk_blk, setFail_failAddr]
    refine ⟨b, ?_⟩
    have e : (walkStart i v).reports = v.reports ++ [.bounds (v.cfg.range i).start (v.cfg.range i).stop] := by simp [State.reports, walkStart, PortEvent.report?]
    rw [e] at c
    have e2 : ∀ r (u : State) b, (record (.out r) (u.setBlk b)).reports = u.reports ++ [r] := by intro r u b; simp [State.reports, PortEvent.report?]
    rw [e2]
    have b' : w.reports = _ := c
    rw [b', h]
    simp [rangeReports, w]
  · exact o.mem

theorem rangesOk_range {c : Config} (h : c.rangesOk = true) (i : Fin 2) : (c.range i).ok = true := by
  simp only [Config.rangesOk, Bool.and_eq_true] at h
  unfold Config.range; split; exacts [h.1.1, h.1.2]

/-- DIAG's two ranges in order. -/
theorem diag_out (s : State) (hok : s.cfg.rangesOk = true) : ∃ v0 v1, RangeOut 0 s (pseudoRange 0 s) v0 ∧ RangeOut 1 (pseudoRange 0 s) (pseudoDiag s) v1 := by
  obtain ⟨v0, o0⟩ := range_out 0 s (rangesOk_range hok 0)
  obtain ⟨v1, o1⟩ := range_out 1 (pseudoRange 0 s) (by rw [o0.cfg]; exact rangesOk_range hok 1)
  exact ⟨v0, v1, o0, o1⟩

/-- What a unit that holds the sentinel reads as under stuck-at faults (rule R45). -/
def unitRead (c : Config) (S : List StuckAt) (a : Nat) : Word :=
  joinUnit c.byteOrder (applyStuck S a (lowerByte c.byteOrder c.sentinel)) (applyStuck S (a + 1) (upperByte c.byteOrder c.sentinel))

/-- The value read back right after the write. -/
theorem visit_rd (a : Word) (v : State) (h : v.mem.wf = true) (ha : a.toNat ≤ 0xFFFD) (hans : ∀ x ∈ v.mem.answers, x = none) :
   (visit a v).blk.rd = unitRead v.cfg v.mem.stuck a.toNat := by
  have : (visit a v).blk.rd = memValue2 a (memWrite2 a v.cfg.sentinel v) := rfl
  have e : (a + 1#16).toNat = a.toNat + 1 := by rw [BitVec.toNat_add]; simp; omega
  rw [this, memValue2, memWrite2_mem, memWrite2_cfg, Memory.answer2_of_none _ _ _ (by simpa using hans), Memory.unitAnswered]
  simp only [Memory.byteAnswered, Memory.stuck_storeUnit, Memory.storedByte_storeUnit _ _ _ _ _ h, e, unitRead]
  have : a.toNat ≠ a.toNat + 1 := by omega
  simp

/-- A walk whose units all read back the sentinel passes. -/
theorem walk_good (i : Fin 2) (n : Nat) : ∀ v : State, v.mem.wf = true → (∀ x ∈ v.mem.answers, x = none) → v.blk.failed = false → (v.cfg.range i).stop.toNat ≤ 0xFFFD →
   v.blk.addr.toNat + 2 * n ≤ (v.cfg.range i).stop.toNat + 2 →
   (∀ k, k < n → unitRead v.cfg v.mem.stuck (v.blk.addr.toNat + 2 * k) = v.cfg.sentinel) → (pseudoWalk n i v).blk.failed = false := by
  induction n with
  | zero => intro v _ _ h _ _ _; exact h
  | succ n ih =>
    intro v h1 h2 h3 h4 h5 h6
    rw [pseudoWalk_succ]
    split
    · have ha : v.blk.addr.toNat ≤ 0xFFFD := by omega
      have := h6 0 (by omega)
      rw [if_neg (by rw [visit_rd _ _ h1 ha h2]; simpa using this)]
      have hav : (v.blk.addr + 2#16).toNat = v.blk.addr.toNat + 2 := by rw [BitVec.toNat_add]; simp; omega
      apply ih
      · exact Memory.wf_storeUnit _ _ _ _ h1
      · exact fun x hx => h2 x (List.mem_of_mem_tail hx)
      · exact h3
      · exact h4
      · show (v.blk.addr + 2#16).toNat + _ ≤ (v.cfg.range i).stop.toNat + 2; omega
      · intro k hk
        have := h6 (k + 1) (by omega)
        show unitRead v.cfg v.mem.stuck ((v.blk.addr + 2#16).toNat + 2 * k) = _
        rw [hav, show v.blk.addr.toNat + 2 + 2 * k = v.blk.addr.toNat + 2 * (k+1) by omega]; exact this
    · exact h3

/-- A walk fails at its first unit that reads back otherwise. -/
theorem walk_bad (i : Fin 2) (j : Nat) : ∀ (n : Nat) (v : State), j < n → v.mem.wf = true → (∀ x ∈ v.mem.answers, x = none) → v.blk.failed = false → (v.cfg.range i).stop.toNat ≤ 0xFFFD →
   v.blk.addr.toNat + 2 * n ≤ (v.cfg.range i).stop.toNat + 2 → 
   (∀ k, k < j → unitRead v.cfg v.mem.stuck (v.blk.addr.toNat + 2 * k) = v.cfg.sentinel) → unitRead v.cfg v.mem.stuck (v.blk.addr.toNat + 2 * j) ≠ v.cfg.sentinel → 
   (pseudoWalk n i v).blk.failed = true ∧ ((pseudoWalk n i v).blk.failAddr i).toNat = v.blk.addr.toNat + 2 * j := by
  induction j with
  | zero =>
    intro n v hj h1 h2 h3 h4 h5 h6 h7
    obtain ⟨m, rfl⟩ : ∃ m, n = m + 1 := ⟨n - 1, by omega⟩
    have ha : v.blk.addr.toNat ≤ 0xFFFD := by omega
    rw [pseudoWalk_succ, if_pos (by rw [BitVec.le_def]; omega), if_pos (by rw [visit_rd _ _ h1 ha h2]; simpa using h7)]
    refine ⟨rfl, ?_⟩
    simp only [pseudoFail, State.setBlk_blk, Block.setFailAddr, Block.failAddr]; split <;> rfl
  | succ j ih =>
    intro n v hj h1 h2 h3 h4 h5 h6 h7
    obtain ⟨m, rfl⟩ : ∃ m, n = m + 1 := ⟨n - 1, by omega⟩
    have ha : v.blk.addr.toNat ≤ 0xFFFD := by omega
    have := h6 0 (by omega)
    rw [pseudoWalk_succ, if_pos (by rw [BitVec.le_def]; omega), if_neg (by rw [visit_rd _ _ h1 ha h2]; simpa using this)]
    have hav : (v.blk.addr + 2#16).toNat = v.blk.addr.toNat + 2 := by rw [BitVec.toNat_add]; simp; omega
    obtain ⟨a, b⟩ := ih m ((visit v.blk.addr v).setBlk { (visit v.blk.addr v).blk with addr := v.blk.addr + 2#16 }) (by omega) (Memory.wf_storeUnit _ _ _ _ h1)
      (fun x hx => h2 x (List.mem_of_mem_tail hx)) h3 h4 (by show (v.blk.addr + 2#16).toNat + _ ≤ (v.cfg.range i).stop.toNat + 2; omega)
      (by 
        intro k hk
        have := h6 (k + 1) (by omega)
        show unitRead v.cfg v.mem.stuck ((v.blk.addr + 2#16).toNat + 2 * k) = _
        rw [hav, show v.blk.addr.toNat + 2 + 2 * k = v.blk.addr.toNat + 2 * (k+1) by omega]; exact this)
      (by 
        show unitRead v.cfg v.mem.stuck ((v.blk.addr + 2#16).toNat + 2 * j) ≠ _
        rw [hav, show v.blk.addr.toNat + 2 + 2 * j = v.blk.addr.toNat + 2 * (j+1) by omega]; exact h7)
    refine ⟨a, b.trans ?_⟩
    show (v.blk.addr + 2#16).toNat + _ = _
    omega

/-- The marks of a range are those of its walk. -/
theorem pseudoRange_fail (i : Fin 2) (v : State) : (pseudoRange i v).blk.fail i = (pseudoWalk (v.cfg.range i).units i (walkStart i v)).blk.failed ∧
   (pseudoRange i v).blk.failAddr i = (pseudoWalk (v.cfg.range i).units i (walkStart i v)).blk.failAddr i := by
  have hw : pseudoRange i v = record (.out (if (pseudoWalk (v.cfg.range i).units i (walkStart i v)).blk.failed then .rangeFail (v.cfg.range i).start (v.cfg.range i).stop else .rangeOk)) ((pseudoWalk (v.cfg.range i).units i (walkStart i v)).setBlk ((pseudoWalk (v.cfg.range i).units i (walkStart i v)).blk.setFail i (pseudoWalk (v.cfg.range i).units i (walkStart i v)).blk.failed)) := by
    unfold pseudoRange; simp only [State.setBlk_blk, setFail_failed]; rfl
  rw [hw]
  simp [setFail_fail, setFail_failAddr]

/-- A range whose units all read back the sentinel passes. -/
theorem range_good (i : Fin 2) (v : State) (hok : (v.cfg.range i).ok = true) (h1 : v.mem.wf = true) (h2 : ∀ x ∈ v.mem.answers, x = none)
   (h : ∀ k, k < (v.cfg.range i).units → unitRead v.cfg v.mem.stuck ((v.cfg.range i).start.toNat + 2 * k) = v.cfg.sentinel) : (pseudoRange i v).blk.fail i = false := by
  simp only [Range.ok, Bool.and_eq_true, decide_eq_true_eq] at hok
  rw [(pseudoRange_fail i v).1]
  exact walk_good i _ (walkStart i v) h1 h2 rfl hok.2 (by show (v.cfg.range i).start.toNat + _ ≤ (v.cfg.range i).stop.toNat + 2; simp only [Range.units]; omega) h

/-- A range fails at its first unit that reads back otherwise. -/
theorem range_bad (i : Fin 2) (v : State) (j : Nat) (hj : j < (v.cfg.range i).units) (hok : (v.cfg.range i).ok = true) (h1 : v.mem.wf = true) (h2 : ∀ x ∈ v.mem.answers, x = none)
   (h : ∀ k, k < j → unitRead v.cfg v.mem.stuck ((v.cfg.range i).start.toNat + 2 * k) = v.cfg.sentinel)
   (h' : unitRead v.cfg v.mem.stuck ((v.cfg.range i).start.toNat + 2 * j) ≠ v.cfg.sentinel) : (pseudoRange i v).blk.fail i = true ∧ ((pseudoRange i v).blk.failAddr i).toNat = (v.cfg.range i).start.toNat + 2 * j := by
  simp only [Range.ok, Bool.and_eq_true, decide_eq_true_eq] at hok
  rw [(pseudoRange_fail i v).1, (pseudoRange_fail i v).2]
  exact walk_bad i j _ (walkStart i v) hj h1 h2 rfl hok.2 (by show (v.cfg.range i).start.toNat + _ ≤ (v.cfg.range i).stop.toNat + 2; simp only [Range.units]; omega) h h'

/-- The two bytes of a unit are determined by its value. -/
theorem joinUnit_inj (o : ByteOrder) (a b c d : Byte) (h : joinUnit o a b = joinUnit o c d) : a = c ∧ b = d := by
  cases o <;> simp only [joinUnit] at h <;> have h' := congrArg BitVec.toNat h <;> simp only [BitVec.toNat_append] at h' <;>
   rw [← Nat.shiftLeft_add_eq_or_of_lt (BitVec.isLt _), ← Nat.shiftLeft_add_eq_or_of_lt (BitVec.isLt _)] at h' <;> simp only [Nat.shiftLeft_eq] at h' 
  · have := b.isLt; have := d.isLt; exact ⟨BitVec.eq_of_toNat_eq (by omega), BitVec.eq_of_toNat_eq (by omega)⟩
  · have := a.isLt; have := c.isLt; exact ⟨BitVec.eq_of_toNat_eq (by omega), BitVec.eq_of_toNat_eq (by omega)⟩

/-- A stuck-at fault outside a unit does not change it. -/
theorem unitRead_off (c : Config) (f : StuckAt) (a : Nat) (h1 : f.loc.toNat ≠ a) (h2 : f.loc.toNat ≠ a + 1) : unitRead c [f] a = c.sentinel := by
  simp [unitRead, applyStuck, h1, h2]

end Sys2Proof.Machine
end

