-- ==== Sys2Proof/Laws/WalkEnds.lean ====
section
/-! SUPPORT. A walk that goes on from anywhere ends, if the host accepts its reports: a bound on the steps
and on the reports that are left (spec/40_memory_walker.md rules R81, R83). -/

namespace Sys2Proof.Machine

/-- How many sequencer steps a walk still takes at most (spec/40_memory_walker.md rule R83). -/
def stepsLeft (s : State) : Nat :=
  let rem := s.walkRange.stop.toNat + 2 - s.blk.addr.toNat
  let later := if s.blk.ri = 0 then 131084 else 0
  match s.blk.phase with
  | .idle => if s.blk.cmdValid then 262200 else 0
  | .dBounds => later + 131074
  | .dCheck => later + 2 * rem + 2
  | .dWrite => later + 2 * rem + 1
  | .dRead => later + 2 * rem
  | .dCmp => later + 2 * rem - 1
  | .dVerdict => later + 1
  | _ => 0

/-- How many reports a walk still emits at most (rule R81). -/
def reportsLeft (s : State) : Nat :=
  let later := if s.blk.ri = 0 then 3 else 0
  match s.blk.phase with
  | .idle => if s.blk.cmdValid then 6 else 0
  | .dBounds => later + 3
  | .dCheck | .dWrite | .dRead | .dCmp => later + 2
  | .dVerdict => later + 1
  | _ => 0

theorem reportsLeft_le (s : State) : reportsLeft s ≤ 6 := by
  unfold reportsLeft
  dsimp only
  split <;> (try split) <;> omega

/-- What holds in a walk whose reports the host will all accept. -/
structure WalkGoesOn (s : State) : Prop where
  ok : s.cfg.rangesOk = true
  inv : WalkInv s
  due : (s.blk.phase.walking = true ∧ s.blk.cmdValid = false) ∨
    (s.blk.phase = .idle ∧ s.blk.cmdValid = true ∧ s.blk.cmdSel = selDiag)
  room : ∀ n, s.room = some n → reportsLeft s ≤ n
  noReset : s.noReset

/-- A turn of the world takes nothing away from the host's acceptance. -/
theorem worldTurn_room_le {s : State} {k : Nat} (h : ∀ n, s.room = some n → k ≤ n) :
    ∀ n, (worldTurn s).room = some n → k ≤ n := by
  intro n hn
  rcases worldTurn_spec s with e | ⟨a, w, -, e⟩
  · exact h n (e ▸ hn)
  · rw [e] at hn
    simp only [Activity.apply, State.setWorld, Option.map_eq_some_iff] at hn
    obtain ⟨m, hm, rfl⟩ := hn
    exact Nat.le_add_right_of_le (h m hm)

theorem WalkGoesOn.turn {s : State} (h : WalkGoesOn s) : WalkGoesOn (worldTurn s) where
  ok := by simpa using h.ok
  inv := by simpa [WalkInv, State.walkRange] using h.inv
  due := by simpa using h.due
  room := by simpa [reportsLeft] using worldTurn_room_le h.room
  noReset := worldTurn_noReset h.noReset

/-- The command is done: at rest but for `done`. -/
def Finished (s : State) : Prop :=
  s.blk.phase = .idle ∧ s.blk.cmdValid = false ∧ s.blk.done = true

theorem range_ok {c : Config} (h : c.rangesOk = true) (i : Fin 2) :
    (c.range i).start.toNat ≤ (c.range i).stop.toNat ∧ (c.range i).stop.toNat ≤ 0xFFFD := by
  simp only [Config.rangesOk, Bool.and_eq_true, Range.ok, decide_eq_true_eq] at h
  unfold Config.range
  split
  exacts [h.1.1, h.1.2]

/-- A report that the host accepts leaves enough for the rest. -/
theorem room_after {s : State} {k : Nat} (h : ∀ n, s.room = some n → k + 1 ≤ n) :
    s.room ≠ some 0 ∧ ∀ n, s.room.map (· - 1) = some n → k ≤ n := by
  refine ⟨fun e => absurd (h 0 e) (by omega), fun n hn => ?_⟩
  simp only [Option.map_eq_some_iff] at hn
  obtain ⟨m, hm, rfl⟩ := hn
  have := h m hm
  omega

/-- One step of such a walk: it goes on and comes nearer to its end, or ends. -/
theorem WalkGoesOn.phase {s : State} (h : WalkGoesOn s) :
    ∃ s1, phaseStep s = .go s1 ∧
      ((WalkGoesOn s1 ∧ stepsLeft s1 < stepsLeft s) ∨ Finished s1) := by
  obtain ⟨ok, inv, due, room, nr⟩ := h
  have hr := range_ok ok s.blk.ri
  rcases due with ⟨hw, hv⟩ | ⟨hp, hv, hs⟩
  · cases hp : s.blk.phase <;> simp [hp, Phase.walking] at hw
    case dBounds =>
      simp only [reportsLeft, hp] at room
      obtain ⟨r1, r2⟩ := room_after (k := (if s.blk.ri = 0 then 3 else 0) + 2) room
      have e := phaseStep_dBounds hp
      rw [dBounds, reportThen_of_room r1] at e
      refine ⟨_, e, .inl ⟨⟨ok, ?_, .inl ⟨rfl, hv⟩, r2, nr⟩, ?_⟩⟩
      · intro _ _
        show s.walkRange.start.toNat ≤ s.walkRange.start.toNat ∧
            (s.walkRange.start.toNat - s.walkRange.start.toNat) % 2 = 0 ∧
            s.walkRange.start.toNat ≤ s.walkRange.stop.toNat + 2 ∧ _
        rw [State.walkRange]
        exact ⟨Nat.le_refl _, by simp, by omega, by intro h; simp [Phase.inBody] at h⟩
      · have : stepsLeft s = (if s.blk.ri = 0 then 131084 else 0) + 131074 := by
          simp only [stepsLeft, hp]
        rw [this]
        show (if s.blk.ri = 0 then 131084 else 0) +
            2 * ((s.cfg.range s.blk.ri).stop.toNat + 2 - (s.cfg.range s.blk.ri).start.toNat) + 2 < _
        omega
    case dCheck =>
      obtain ⟨i1, i2, i3, -⟩ := inv (by simp [hp, Phase.inLoop]) ok
      have hl : stepsLeft s = (if s.blk.ri = 0 then 131084 else 0) +
          2 * (s.walkRange.stop.toNat + 2 - s.blk.addr.toNat) + 2 := by simp only [stepsLeft, hp]
      simp only [reportsLeft, hp] at room
      have e := phaseStep_dCheck hp
      rw [dCheck] at e
      refine ⟨_, e, .inl ?_⟩
      by_cases hle : s.blk.addr ≤ s.walkRange.stop
      · rw [if_pos hle]
        refine ⟨⟨ok, fun _ _ => ⟨i1, i2, i3, fun _ => hle⟩, .inl ⟨rfl, hv⟩, room, nr⟩, ?_⟩
        rw [hl]
        show (if s.blk.ri = 0 then 131084 else 0) +
            2 * (s.walkRange.stop.toNat + 2 - s.blk.addr.toNat) + 1 < _
        omega
      · rw [if_neg hle]
        refine ⟨⟨ok, by intro h; simp [Phase.inLoop] at h, .inl ⟨rfl, hv⟩, ?_, nr⟩, ?_⟩
        · intro n hn
          have := room n hn
          show (if s.blk.ri = 0 then 3 else 0) + 1 ≤ n
          omega
        · rw [hl]
          show (if s.blk.ri = 0 then 131084 else 0) + 1 < _
          omega
    case dWrite =>
      obtain ⟨i1, i2, i3, i4⟩ := inv (by simp [hp, Phase.inLoop]) ok
      have i4 := i4 (by simp [hp, Phase.inBody])
      have hl : stepsLeft s = (if s.blk.ri = 0 then 131084 else 0) +
          2 * (s.walkRange.stop.toNat + 2 - s.blk.addr.toNat) + 1 := by simp only [stepsLeft, hp]
      simp only [reportsLeft, hp] at room
      have e := phaseStep_dWrite hp
      rw [dWrite] at e
      refine ⟨_, e, .inl ⟨⟨ok, fun _ _ => ⟨i1, i2, i3, fun _ => i4⟩, .inl ⟨rfl, hv⟩, room, nr⟩, ?_⟩⟩
      rw [hl]
      show (if s.blk.ri = 0 then 131084 else 0) +
          2 * (s.walkRange.stop.toNat + 2 - s.blk.addr.toNat) < _
      omega
    case dRead =>
      obtain ⟨i1, i2, i3, i4⟩ := inv (by simp [hp, Phase.inLoop]) ok
      have i4 := i4 (by simp [hp, Phase.inBody])
      have hl : stepsLeft s = (if s.blk.ri = 0 then 131084 else 0) +
          2 * (s.walkRange.stop.toNat + 2 - s.blk.addr.toNat) := by simp only [stepsLeft, hp]
      simp only [reportsLeft, hp] at room
      have e := phaseStep_dRead hp
      rw [dRead] at e
      refine ⟨_, e, .inl ⟨⟨ok, fun _ _ => ⟨i1, i2, i3, fun _ => i4⟩, .inl ⟨rfl, hv⟩, room, nr⟩, ?_⟩⟩
      rw [hl]
      show (if s.blk.ri = 0 then 131084 else 0) +
          2 * (s.walkRange.stop.toNat + 2 - s.blk.addr.toNat) - 1 < _
      omega
    case dCmp =>
      obtain ⟨i1, i2, i3, i4⟩ := inv (by simp [hp, Phase.inLoop]) ok
      have i4 := i4 (by simp [hp, Phase.inBody])
      have hl : stepsLeft s = (if s.blk.ri = 0 then 131084 else 0) +
          2 * (s.walkRange.stop.toNat + 2 - s.blk.addr.toNat) - 1 := by simp only [stepsLeft, hp]
      simp only [reportsLeft, hp] at room
      by_cases hf : verifyFails s.blk.rd s.cfg.sentinel = true
      · obtain ⟨r1, r2⟩ := room_after (k := (if s.blk.ri = 0 then 3 else 0) + 1) room
        have e := phaseStep_dCmp hp
        rw [dCmp, if_pos hf, reportThen_of_room r1] at e
        refine ⟨_, e, .inl ⟨⟨ok, by intro h; simp [Phase.inLoop] at h, .inl ⟨rfl, ?_⟩, ?_, nr⟩, ?_⟩⟩
        · simp only [State.setBlk_blk, Block.setFailAddr]; split <;> exact hv
        · intro n hn
          have := r2 n hn
          have hl : ∀ u : State, u.blk.phase = .dVerdict → u.blk.ri = s.blk.ri →
              reportsLeft u = (if s.blk.ri = 0 then 3 else 0) + 1 := by
            intro u h1 h2
            simp only [reportsLeft, h1, h2]
          rw [hl _ (by simp) (by simp only [State.setBlk_blk, Block.setFailAddr]; split <;> rfl)]
          exact this
        · rw [hl]
          have : ∀ u : State, u.blk.phase = .dVerdict → u.blk.ri = s.blk.ri → stepsLeft u =
              (if s.blk.ri = 0 then 131084 else 0) + 1 := by
            intro u h1 h2; simp only [stepsLeft, h1, h2]
          rw [this _ (by simp) (by simp only [State.setBlk_blk, Block.setFailAddr]; split <;> rfl)]
          omega
      · have e := phaseStep_dCmp hp
        rw [dCmp, if_neg hf] at e
        rw [State.walkRange] at i1 i2 i3 i4
        have e2 : (s.blk.addr + 2#16).toNat = s.blk.addr.toNat + 2 := by
          rw [BitVec.toNat_add]
          simp
          omega
        refine ⟨_, e, .inl ⟨⟨ok, fun _ _ => ?_, .inl ⟨rfl, hv⟩, room, nr⟩, ?_⟩⟩
        · show (s.cfg.range s.blk.ri).start.toNat ≤ (s.blk.addr + 2#16).toNat ∧
            ((s.blk.addr + 2#16).toNat - (s.cfg.range s.blk.ri).start.toNat) % 2 = 0 ∧
            (s.blk.addr + 2#16).toNat ≤ (s.cfg.range s.blk.ri).stop.toNat + 2 ∧ _
          rw [e2]
          exact ⟨by omega, by omega, by omega, by intro h; simp [Phase.inBody] at h⟩
        · rw [hl]
          show (if s.blk.ri = 0 then 131084 else 0) +
              2 * ((s.cfg.range s.blk.ri).stop.toNat + 2 - (s.blk.addr + 2#16).toNat) + 2 < _
          rw [e2, State.walkRange]
          omega
    case dVerdict =>
      simp only [reportsLeft, hp] at room
      obtain ⟨r1, r2⟩ := room_after (k := (if s.blk.ri = 0 then 3 else 0)) room
      have e := phaseStep_dVerdict hp
      rw [dVerdict, reportThen_of_room
        (s := s.setBlk (s.blk.setFail s.blk.ri s.blk.failed)) r1] at e
      have hl : stepsLeft s = (if s.blk.ri = 0 then 131084 else 0) + 1 := by
          simp only [stepsLeft, hp]
      by_cases h0 : s.blk.ri = 0
      · simp only [h0, State.setRoom_blk, State.setBlk_blk, record_blk, Block.setFail, if_true] at e r2 hl
        refine ⟨_, e, .inl ⟨⟨ok, by intro h; simp [Phase.inLoop] at h, .inl ⟨rfl, hv⟩, r2, nr⟩, ?_⟩⟩
        rw [hl]
        show (if (1 : Fin 2) = 0 then 131084 else 0) + 131074 < _
        simp
      · refine ⟨_, e, .inr ?_⟩
        simp [h0, Block.setFail, Finished, hv]
  · have e := phaseStep_idle hp hv
    rw [acceptCommand_diag hs] at e
    refine ⟨_, e, .inl ⟨⟨ok, by intro h; simp [Phase.inLoop] at h, .inl ⟨rfl, rfl⟩, ?_, nr⟩, ?_⟩⟩
    · intro n hn
      have := room n hn
      simpa [reportsLeft, hp, hv] using this
    · simp [stepsLeft, hp, hv]

/-- Such a walk ends within its bound, finished. -/
theorem WalkGoesOn.ends {n : Nat} {s : State} (h : WalkGoesOn s) (hn : stepsLeft s + 1 ≤ n) :
    Finished (seqRun n s) := by
  induction n generalizing s with
  | zero => omega
  | succ n ih =>
    have hq : s.quiet = false := by
      rcases h.due with ⟨hw, -⟩ | ⟨-, hv, -⟩
      · apply quiet_of_phase
        intro hp
        simp [hp, Phase.walking] at hw
      · simp [State.quiet, hv]
    have ht : stepsLeft (worldTurn s) = stepsLeft s := by simp [stepsLeft, State.walkRange]
    obtain ⟨s1, e, ⟨h1, h2⟩ | h1⟩ := h.turn.phase
    · rw [run_go hq h.noReset e]
      exact ih h1 (by omega)
    · rw [run_go hq h.noReset e, seqRun_of_quiet (by simp [State.quiet, h1.1, h1.2.1])]
      exact h1

/-- No walk takes more steps than the sequencer is given. -/
theorem stepsLeft_lt (s : State) : stepsLeft s + 1 ≤ seqFuel := by
  have := s.walkRange.stop.isLt
  unfold stepsLeft seqFuel
  dsimp only
  split <;> (try split) <;> omega

end Sys2Proof.Machine
end

