-- ==== Sys2Proof/Tests/Slice0.lean ====
section
/-! SUPPORT. The model's own tests. Expected results are the worked examples and vectors of
spec/95_test_vectors.md (named E<n> and V-<x><n> there), or the spec's encodings written out by hand; the
witnesses at the end show, for each statement with hypotheses, a concrete state that meets them. -/

open Sys2Proof Sys2Proof.Machine

namespace Sys2Proof.Tests

/-! ### WellFormed refuses ill-formed terms (spec/30_encoding.md rule R53) -/

theorem test_wf_terminator_stored : Line.charsStorable ⟨[0x30#8, 0x0D#8], some .lf⟩ = false := by decide
theorem test_wf_line_feed_stored :
    (Instr.angle ⟨[0x0A#8, 0x30#8, 0x30#8, 0x30#8], none⟩).wf = false := by decide
theorem test_wf_five_characters :
    (Instr.peek ⟨[0x30#8, 0x30#8, 0x30#8, 0x30#8, 0x30#8], none⟩).wf = false := by decide
theorem test_wf_short_line_without_terminator :
    Line.lengthFits ⟨[0x30#8, 0x30#8, 0x30#8], none⟩ = false := by decide
theorem test_wf_full_line_with_terminator :
    Line.lengthFits ⟨[0x30#8, 0x30#8, 0x30#8, 0x30#8], some .cr⟩ = false := by decide
theorem test_wf_poke_second_line :
    (Instr.poke ⟨[], some .cr⟩ ⟨[0x30#8], none⟩).wf = false := by decide

/-! ### Decoding words written out from rules R51 to R53 -/

/-- `'1'` is 0011 0001. -/
theorem test_decode_diag : decodeTableWord 8 0b00110001 = some .diag := by decide
/-- `'2' "0084"`: 0011 0010, then the characters, first character in the next byte (program P1). -/
theorem test_decode_peek : decodeTableWord 40 0x3438303032 =
    some (.peek ⟨[0x30#8, 0x30#8, 0x38#8, 0x34#8], none⟩) := by decide
/-- `'3' "0001" "7F" CR` (V-E4). -/
theorem test_decode_poke : decodeTableWord 64 0x0D46373130303033 =
    some (.poke ⟨[0x30#8, 0x30#8, 0x30#8, 0x31#8], none⟩ ⟨[0x37#8, 0x46#8], some .cr⟩) := by decide
/-- `'4' "090" CR` is 0x34 0x30 0x39 0x30 0x0D (rule R60). -/
theorem test_decode_angle : decodeTableWord 40 0x0D30393034 =
    some (.angle ⟨[0x30#8, 0x39#8, 0x30#8], some .cr⟩) := by decide
/-- `'5'` is 0011 0101. -/
theorem test_decode_exit : decodeTableWord 8 0b00110101 = some .exit := by decide
/-- `'4' "1234" CR`: the CR is not part of the command (V-F2). -/
theorem test_decode_leftover_terminator :
    decode [0x34#8, 0x31#8, 0x32#8, 0x33#8, 0x34#8, 0x0D#8] =
      .ok (.angle ⟨[0x31#8, 0x32#8, 0x33#8, 0x34#8], none⟩, [0x0D#8]) := by decide
/-- V-E1: `'0'`, `'6'`, CR, 0xFF are invalid. -/
theorem test_decode_invalid : decode [0x30#8] = .error (.invalidSelector 0x30#8) ∧
    decode [0x36#8] = .error (.invalidSelector 0x36#8) ∧
    decode [0x0D#8] = .error (.invalidSelector 0x0D#8) ∧
    decode [0xFF#8] = .error (.invalidSelector 0xFF#8) := by decide
theorem test_decode_unfinished : decode [] = .error .noSelector ∧
    decode [0x32#8, 0x30#8] = .error .lineUnfinished := by decide

/-- V-F1. -/
theorem test_digits : ([0x30#8, 0x39#8, 0x41#8, 0x46#8, 0x61#8, 0x66#8, 0x47#8, 0x67#8, 0x2F#8, 0x3A#8,
    0x40#8, 0x60#8, 0xFF#8].map fun c => (digitToValue c).toNat) =
      [0, 9, 10, 15, 10, 15, 0, 0, 0, 0, 0, 0, 0] := by decide
/-- V-F2: `"12g4"`, `"9 0"`, the empty line. -/
theorem test_fold : foldLine ⟨[0x31#8, 0x32#8, 0x67#8, 0x34#8], none⟩ = 0x1204#16 ∧
    foldLine ⟨[0x39#8, 0x20#8, 0x30#8], some .cr⟩ = 0x0900#16 ∧
    foldLine ⟨[], some .cr⟩ = 0#16 := by decide
/-- V-F3: 0xBEEF is rendered `BEEF`, 0x00C0 `00C0`. -/
theorem test_hex : valueToHexDigits 0xBEEF#16 = [0x42#8, 0x45#8, 0x45#8, 0x46#8] ∧
    valueToHexDigits 0x00C0#16 = [0x30#8, 0x30#8, 0x43#8, 0x30#8] := by decide
/-- Rule R62: RANGE_OK is "OK", and the range 0080 to 0087 is rendered in digits. -/
theorem test_rendered : Report.rendered .rangeOk = [[0x4F#8, 0x4B#8]] ∧
    Report.rendered (.bounds 0x0080#16 0x0087#16) =
      [[0x30#8, 0x30#8, 0x38#8, 0x30#8], [0x30#8, 0x30#8, 0x38#8, 0x37#8]] := by decide
/-- Section 2.3 of the vectors: the boundary rows and V-C2. -/
theorem test_clamped : ([0x0001#16, 0x0002#16, 0x0090#16, 0x0178#16, 0x0179#16, 0x1234#16, 0x00F0#16,
    0xFFFF#16].map clampedOf) = [90, 126, 187, 248, 320, 320, 229, 320] := by decide

/-! ### One step on small states -/

/-- The outcome is a next state of which `p` holds. -/
def nextThat (o : Host.Outcome State Fault Refusal) (p : State → Bool) : Bool :=
  match o with
  | .next t => p t
  | _ => false

theorem next_of_nextThat {o : Host.Outcome State Fault Refusal} {p : State → Bool}
    (h : nextThat o p = true) : ∃ t, o = .next t ∧ p t = true := by
  cases o with
  | next t => exact ⟨t, rfl, h⟩
  | fault r => exact nomatch h
  | refused r => exact nomatch h

/-- A turn that only tells whether a cycle completes. -/
def beat (c : Bool) : Activity := { cycleDone := c, cnt := 0, accepts := 0, typed := [] }

/-- A rest state with the illustrative configuration (D37) and the indicator set; a cycle completes in the
fourth turn to come, after the counter reset of an adopting ANGLE (whose effect on the indicator is a free
value) and before its first poll. -/
def flagged : State :=
  { State.reset with
    pwm := { Pwm.reset with cycleFlag := true }
    world := [.run (beat false), .run (beat false), .run (beat false), .run (beat true)] }

/-- A rest state with `prev_duty = 200` and the indicator set. -/
def duty200 : State := { flagged with blk := Block.reset 200#16 }

/-- A rest state with one stuck-at fault. -/
def stuckAt (f : StuckAt) : State := { State.reset with mem := { Memory.reset with stuck := [f] } }

/-- A rest state whose memory holds one byte. -/
def holding (a : Nat) (b : Byte) : State :=
  { State.reset with mem := { Memory.reset with cells := [(a, b)] } }

/-- A rest state with another configuration. -/
def configured (c : Config) : State := State.resetWith c

/-- A line of four characters. -/
def full (a b c d : Byte) : Line := ⟨[a, b, c, d], none⟩

/-- V-W1: reports, marks and the bytes left in memory, the spill byte 0x0105 included. -/
theorem test_diag_fault_free : nextThat (exec .diag State.reset) (fun t =>
    decide (t.reports = [.bounds 0x80#16 0x87#16, .rangeOk, .bounds 0x100#16 0x104#16, .rangeOk]) &&
    !t.blk.fail0 && !t.blk.fail1 && decide (t.txns.length = 14) &&
    decide (t.mem.cells = [(0x80, 0x55#8), (0x81, 0xAA#8), (0x82, 0x55#8), (0x83, 0xAA#8),
      (0x84, 0x55#8), (0x85, 0xAA#8), (0x86, 0x55#8), (0x87, 0xAA#8), (0x100, 0x55#8), (0x101, 0xAA#8),
      (0x102, 0x55#8), (0x103, 0xAA#8), (0x104, 0x55#8), (0x105, 0xAA#8)])) = true := by decide

/-- V-W4: bit 0 of location 0x0083 stuck at 1; the unit's address is reported. -/
theorem test_diag_second_byte_stuck : nextThat (exec .diag (stuckAt ⟨0x83#16, 1#8, 1#8⟩)) (fun t =>
    decide (t.reports = [.bounds 0x80#16 0x87#16, .failAddr 0x82#16, .rangeFail 0x80#16 0x87#16,
      .bounds 0x100#16 0x104#16, .rangeOk]) &&
    decide (t.diagResult 0 = (true, 0x82#16)) && !t.blk.fail1 &&
    decide (lookupCell t.mem.cells 0x84 = none)) = true := by decide

/-- V-E2: PEEK of 0x0080 holding 0x55 reports 0x0055. -/
theorem test_peek : nextThat (exec (.peek (full 0x30#8 0x30#8 0x38#8 0x30#8)) (holding 0x80 0x55#8))
    (fun t => decide (t.reports = [.peekValue 0x0055#16])) = true := by decide

/-- V-E6: data "1234" writes 0x34 at 0x0090. -/
theorem test_poke_low_byte : nextThat (exec (.poke (full 0x30#8 0x30#8 0x39#8 0x30#8)
      (full 0x31#8 0x32#8 0x33#8 0x34#8)) State.reset)
    (fun t => decide (t.mem.cells = [(0x90, 0x34#8)]) &&
      decide (t.reports = [.pokeDone 0x0034#16 0x0090#16])) = true := by decide

/-- V-E7: "1290" is written at 0x0090 with the 8-bit address, rejected with the 16-bit one. -/
theorem test_poke_address_width : nextThat (exec (.poke (full 0x31#8 0x32#8 0x39#8 0x30#8)
      (full 0x30#8 0x30#8 0x41#8 0x35#8))
      (configured { Config.illustrative with pokeAddrBits := .eight }))
    (fun t => decide (t.mem.cells = [(0x90, 0xA5#8)])) = true ∧
    nextThat (exec (.poke (full 0x31#8 0x32#8 0x39#8 0x30#8) (full 0x30#8 0x30#8 0x41#8 0x35#8))
      State.reset)
    (fun t => decide (t.mem.cells = []) && decide (t.reports = [.outOfRange])) = true := by decide

/-- E7 and V-P3: typed "090" with `prev_duty = 0`. -/
theorem test_angle_090 : nextThat (exec (.angle ⟨[0x30#8, 0x39#8, 0x30#8], some .cr⟩) flagged) (fun t =>
    decide (t.blk.prevDuty = 187#16) && t.blk.adopt && !t.pwm.cycleFlag &&
    decide (t.trace = [.pwm .counterReset, .pwm (.writePeriod 2500#16), .pwm (.writeCompare 188#16),
      .pwm (.writeMode .edgeAligned), .pwm (.poll true), .pwm .clearFlag, .out (.angleEcho 0x0090#16),
      .done])) = true := by decide

/-- Section 2.4 of the vectors: from 200, clamped 203 (113 degrees) holds, 204 (114 degrees) adopts. -/
theorem test_angle_deadband :
    nextThat (exec (.angle ⟨[0x31#8, 0x31#8, 0x33#8], some .cr⟩) duty200) (fun t =>
      decide (t.blk.prevDuty = 200#16) && decide (t.pwm.compare = 201#16) && !t.blk.adopt) = true ∧
    nextThat (exec (.angle ⟨[0x31#8, 0x31#8, 0x34#8], some .cr⟩) duty200) (fun t =>
      decide (t.blk.prevDuty = 204#16) && decide (t.pwm.compare = 205#16) && t.blk.adopt) = true := by
  decide

/-- EXIT: no report, the loop ends (rule R148). -/
theorem test_exit : nextThat (exec .exit State.reset)
    (fun t => decide (t.env.interp = .exit) && decide (t.trace = [])) = true := by decide

/-- V-E5 at the serial level: prompts, echoes, OUT_OF_RANGE, both lines consumed. -/
theorem test_step_poke_rejected : nextThat
    (step (State.reset.withFetchWord 72 0x354130303030303133)) (fun t =>
      decide (t.reports = [.prompt, .localEcho 0x31#8, .localEcho 0x30#8, .localEcho 0x30#8,
        .localEcho 0x30#8, .prompt, .localEcho 0x30#8, .localEcho 0x30#8, .localEcho 0x41#8,
        .localEcho 0x35#8, .outOfRange]) && decide (t.env.rx = [])) = true := by decide

/-- Program P4: `'9'` is reported and nothing else happens. -/
theorem test_step_invalid : nextThat (step (State.reset.withFetchWord 8 0x39)) (fun t =>
    decide (t.reports = [.invalidSelector 0x0039#16]) && decide (t.env.interp = .showMenu)) = true := by
  decide

/-! ### Witnesses: the hypotheses of the statements can be met -/

/-- The empty line and a full line. -/
theorem witness_DecodeEncodeRoundTrip :
    (Instr.poke ⟨[], some .cr⟩ (full 0x30#8 0x30#8 0x38#8 0x30#8)).wf = true ∧
    (Instr.peek ⟨[0x31#8, 0x32#8, 0x33#8], some .lf⟩).wf = true ∧
    (Instr.angle (full 0x31#8 0x32#8 0x33#8 0x34#8)).wf = true := by decide

/-- The shortest and the longest command of each format. -/
theorem witness_CommandLengthsByFormat :
    decode [0x31#8] = .ok (.diag, []) ∧ decode [0x35#8] = .ok (.exit, []) ∧
    decode [0x32#8, 0x0A#8] = .ok (.peek ⟨[], some .lf⟩, []) ∧
    decode [0x34#8, 0x31#8, 0x32#8, 0x33#8, 0x0D#8] =
      .ok (.angle ⟨[0x31#8, 0x32#8, 0x33#8], some .cr⟩, []) ∧
    decode [0x33#8, 0x0D#8, 0x0D#8] = .ok (.poke ⟨[], some .cr⟩ ⟨[], some .cr⟩, []) ∧
    decode [0x33#8, 0x30#8, 0x30#8, 0x39#8, 0x30#8, 0x30#8, 0x30#8, 0x41#8, 0x35#8] =
      .ok (.poke (full 0x30#8 0x30#8 0x39#8 0x30#8) (full 0x30#8 0x30#8 0x41#8 0x35#8), []) := by decide

theorem witness_DecodedBytesAreTheEncoding :
    decode [0x34#8, 0x0A#8, 0x35#8] = .ok (.angle ⟨[], some .lf⟩, [0x35#8]) := by decide

/-- Either side of the five selectors, and the first and last of them. -/
theorem witness_OtherSelectorsRejectedByName :
    decode [0x30#8] = .error (.invalidSelector 0x30#8) ∧
    decode [0x36#8] = .error (.invalidSelector 0x36#8) ∧
    decode [0x31#8] = .ok (.diag, []) ∧ decode [0x35#8] = .ok (.exit, []) := by decide

theorem witness_ReportsRenderAsTheRuleSays : Report.outOfRange ≠ .rangeOk ∧
    Report.failAddr 0x82#16 ≠ .rangeOk := by decide

theorem witness_FoldIsPositional :
    (⟨[], some .cr⟩ : Line).chars.length ≤ 4 ∧
    (full 0x31#8 0x32#8 0x33#8 0x34#8).chars.length ≤ 4 := by decide

/-- Each row of the map at its ends: 1, 2, 178, 179 degrees. -/
theorem witness_ClampedDutyByDegrees :
    bcd2dec 0x0001#16 ≤ 1 ∧ 2 ≤ bcd2dec 0x0002#16 ∧ bcd2dec 0x0178#16 ≤ 178 ∧
    179 ≤ bcd2dec 0x0179#16 := by decide

/-- Two operands that differ in the fourth digit only; reset values next to the forbidden ones. -/
theorem witness_ConvertKeepsAttainable :
    (0x1234#16).extractLsb' 0 12 = (0x0234#16).extractLsb' 0 12 ∧
    PrevDutyResetOk 0#16 ∧ PrevDutyResetOk 86#16 ∧ PrevDutyResetOk 90#16 ∧ ¬ PrevDutyResetOk 88#16 := by
  decide

theorem witness_WaitIsOnTheIndicator :
    flagged.pwm.cycleFlag = true ∧ State.reset.pwm.cycleFlag = false := by decide

/-- A rest state with a stale indicator and a silent world, at `prev_duty = 90`. -/
def stale : State :=
  { State.resetWith { Config.illustrative with prevDutyReset := 90#16 } with
    pwm := { Pwm.reset with cycleFlag := true } }

/-- An adopting command (187 counts against 0) that a cycle after its pulse ends, and a command that holds
(90 against 90) and finds the stale indicator. -/
theorem witness_AngleCompletes :
    (flagged.atRest ∧ flagged.hostAccepts ∧ flagged.noReset ∧
      adopts (clampedOf (foldLine ⟨[0x39#8, 0x30#8], some .cr⟩)) flagged.blk.prevDuty.toNat = true ∧
      flagged.indicatorAtPoll true = true) ∧
    stale.atRest ∧ stale.hostAccepts ∧ stale.noReset ∧
      adopts (clampedOf (foldLine ⟨[], some .cr⟩)) stale.blk.prevDuty.toNat = false ∧
      stale.indicatorAtPoll false = true := by decide

/-- A world that types and completes no cycle. -/
def typing : State :=
  { State.reset with world := [.run { cycleDone := false, cnt := 7, accepts := 0, typed := [0x31#8] }] }

/-- A clear indicator and no cycle, for a command that adopts and for one that holds; and for the last
clause. -/
theorem witness_AngleStandsWhileNoCycleCompletes :
    typing.atRest ∧ typing.noReset ∧ typing.indicatorAtPoll true = false ∧
    typing.indicatorAtPoll false = false ∧ typing.noCycle ∧ typing.pwm.cycleFlag = false := by decide

/-- ANGLE standing in `A_WAIT`; the cycle completes in the third turn. -/
def waiting : State :=
  { State.reset with
    blk := { Block.reset 0#16 with phase := .aWait }
    env := { Env.reset [] with interp := .dispatch, stage := .block }
    world := [.run (beat false), .run (beat false), .run (beat true)] }

theorem witness_WaitEndsWithTheCycle :
    waiting.blk.phase = .aWait ∧ SessionInv waiting ∧ waiting.hostAccepts ∧
    waiting.pwm.cycleFlag = false ∧ (∀ q ∈ [beat false, beat false], q.cycleDone = false) ∧
    (beat true).cycleDone = true ∧ Turn.reset ∉ ([] : List Turn) ∧
    waiting.world = [beat false, beat false].map Turn.run ++ Turn.run (beat true) :: [] := by
  unfold SessionInv; decide

/-- The same with a peripheral that completes no cycle. -/
def waitingForEver : State := { waiting with world := [.run (beat false)] }

/-- Both cases: a cycle to come (and an indicator set already), and none. -/
theorem witness_PwmLiveDecidesTheWait :
    (waiting.blk.phase = .aWait ∧ SessionInv waiting ∧ waiting.noReset ∧ waiting.PwmLive ∧
      waiting.hostAccepts) ∧
    ({ waiting with pwm := flagged.pwm, world := [] } : State).PwmLive ∧
    waitingForEver.blk.phase = .aWait ∧ SessionInv waitingForEver ∧ waitingForEver.noReset ∧
      ¬ waitingForEver.PwmLive := by
  unfold SessionInv; decide

/-- Rest states whose compare register agrees with `prev_duty`; the second ANGLE changes it. -/
def agreeing : State :=
  { duty200 with pwm := { Pwm.reset with compare := 201#16, cycleFlag := true } }

/-- A turn in which the host accepts `n` more output events. -/
def accepting (n : Nat) : Activity := { beat false with accepts := n }

/-- An ANGLE at its echo, the port programmed, whose host has accepted nothing and accepts one event. -/
def echoing : State :=
  { State.reset with
    blk := { Block.reset 200#16 with phase := .aEcho, duty := 200#16 }
    pwm := { Pwm.reset with period := 2500#16, compare := 201#16, mode := .edgeAligned }
    env := { Env.reset [] with interp := .dispatch, stage := .block }
    room := some 0
    world := [.run (accepting 1)] }

/-- An ANGLE that runs to its end, one that stands in `A_WAIT`, and a step in which one goes on to its
end. -/
theorem witness_AngleLeavesThePortProgrammed :
    (agreeing.atRest ∧ agreeing.pwm.compare = agreeing.blk.prevDuty + 1#16 ∧
      ∃ t, exec (.angle ⟨[], some .cr⟩) agreeing = .next t ∧
        (decide (t.env.interp = .showMenu) && decide (t.pwm.compare ≠ agreeing.pwm.compare)) = true) ∧
    (State.reset.atRest ∧ ∃ t, exec (.angle ⟨[], some .cr⟩) State.reset = .next t ∧
      decide (t.blk.phase.written = 3) = true) ∧
    (resetNext echoing = false ∧ SessionInv echoing ∧ PortInv echoing ∧ echoing.angleDue = true ∧
      echoing.blk.phase.written = 3) ∧
    ∃ t, step echoing = .next t ∧ decide (t.env.interp = .showMenu) = true :=
  ⟨⟨by decide, by decide, next_of_nextThat (by decide)⟩, ⟨by decide, next_of_nextThat (by decide)⟩,
    by unfold SessionInv PortInv; decide, next_of_nextThat (by decide)⟩

/-- ANGLE ends in a next state when it runs to its end, when it waits, and in a step in which it goes on. -/
theorem witness_AngleFrame :
    flagged.atRest ∧ State.reset.atRest ∧
    (∃ t, exec (.angle ⟨[], some .cr⟩) flagged = .next t ∧ decide (t.blk.phase = .idle) = true) ∧
    (∃ t, exec (.angle ⟨[], some .cr⟩) State.reset = .next t ∧ decide (t.blk.phase = .aWait) = true) ∧
    (resetNext waiting = false ∧ SessionInv waiting ∧ waiting.angleDue = true) ∧
    ∃ t, step waiting = .next t ∧ decide (t.blk.phase = .aWait) = true :=
  ⟨by decide, by decide, next_of_nextThat (by decide), next_of_nextThat (by decide),
    by unfold SessionInv; decide, next_of_nextThat (by decide)⟩

/-- A block in the middle of a walk, at the last unit of range 1, with what was read back. -/
def walking (rd : Word) (i : Fin 2) : State :=
  { State.reset with blk := { Block.reset 0#16 with phase := .dCmp, ri := i, addr := 0x104#16, rd := rd } }

theorem witness_WalkerPhasesFollowTheRules :
    (walking 0x55AA#16 1).hostAccepts ∧
    (walking 0x55AA#16 1).blk.rd = (walking 0x55AA#16 1).cfg.sentinel ∧
    (walking 0x552A#16 0).blk.rd ≠ (walking 0x552A#16 0).cfg.sentinel ∧
    (walking 0x55AA#16 0).blk.ri = 0 ∧ (walking 0x55AA#16 1).blk.ri = 1 := by decide

theorem witness_DiagPerformsThePseudocode :
    State.reset.atRest ∧ State.reset.hostAccepts ∧ State.reset.noReset ∧
    State.reset.cfg.rangesOk = true := by decide

/-- A faulty memory that answers anything to the first two reads. -/
theorem witness_DiagReportsHaveOneShape :
    let s := { State.reset with mem := { Memory.reset with answers := [none, some 0#16] } }
    s.atRest ∧ s.hostAccepts ∧ s.noReset ∧ s.cfg.rangesOk = true := by decide

/-- One unit a range, and a peripheral that completes a cycle meanwhile. -/
theorem witness_DiagTransactionsInOrder :
    let s := { configured { Config.illustrative with
        range0 := ⟨0x200#16, 0x200#16⟩, range1 := ⟨0x81#16, 0x82#16⟩ } with world := [.run (beat true)] }
    s.atRest ∧ s.hostAccepts ∧ s.noReset ∧ s.cfg.rangesOk = true := by decide

theorem witness_DiagPassesFaultFreeMemory :
    State.reset.atRest ∧ State.reset.hostAccepts ∧ State.reset.noReset ∧
    State.reset.cfg.rangesOk = true ∧ State.reset.mem.wf = true ∧ State.reset.mem.FaultFree :=
  ⟨by decide, by decide, by decide, by decide, by decide, rfl, fun _ h => nomatch h⟩

/-- V-W5: the spill byte stuck, so that `fail[1]` is set and `fail[0]` is not; V-W2 for range 0. -/
theorem witness_DiagMemoryAfter :
    (∃ t, exec .diag (stuckAt ⟨0x105#16, 0x80#8, 0#8⟩) = .next t ∧
      (!t.blk.fail0 && t.blk.fail1 && decide (t.blk.failAddr1 = 0x104#16)) = true) ∧
    ∃ t, exec .diag (stuckAt ⟨0x84#16, 1#8, 0#8⟩) = .next t ∧
      (t.blk.fail0 && !t.blk.fail1 && decide (t.blk.failAddr0 = 0x84#16)) = true :=
  ⟨next_of_nextThat (by decide), next_of_nextThat (by decide)⟩

/-- A stuck cell at the first location of range 0 and at the spill byte of range 1. -/
theorem witness_DiagFindsTheStuckCell :
    (let f : StuckAt := ⟨0x80#16, 1#8, 0#8⟩
     (stuckAt f).atRest ∧ (stuckAt f).hostAccepts ∧ (stuckAt f).noReset ∧
     (stuckAt f).cfg.rangesOk = true ∧ (stuckAt f).mem.wf = true ∧ (stuckAt f).mem.stuck = [f] ∧
     (∀ x ∈ (stuckAt f).mem.answers, x = none) ∧
     ((stuckAt f).cfg.range 0).touches f.loc.toNat = true ∧
     f.apply (sentinelByte (stuckAt f).cfg 0x80 f.loc.toNat) ≠
       sentinelByte (stuckAt f).cfg 0x80 f.loc.toNat) ∧
    (let f : StuckAt := ⟨0x105#16, 0x80#8, 0#8⟩
     ((stuckAt f).cfg.range 1).touches f.loc.toNat = true ∧
     f.apply (sentinelByte (stuckAt f).cfg 0x100 f.loc.toNat) ≠
       sentinelByte (stuckAt f).cfg 0x100 f.loc.toNat) :=
  ⟨⟨by decide, by decide, by decide, by decide, by decide, rfl, (fun _ h => nomatch h), by decide,
    by decide⟩, by decide⟩

/-- The same block in a session that waits for it. -/
def walkingOn (rd : Word) (i : Fin 2) : State :=
  { walking rd i with env := { Env.reset [] with interp := .dispatch, stage := .block } }

/-- DIAG ends in a next state, and so does a step in which it goes on from the last unit of range 1;
location 0x0088 is outside both ranges. -/
theorem witness_DiagFrame :
    State.reset.atRest ∧ State.reset.mem.wf = true ∧ State.reset.cfg.walked 0x88 = false ∧
    State.reset.cfg.walked 0x106 = false ∧
    (∃ t, exec .diag State.reset = .next t ∧ decide (t.blk.phase = .idle) = true) ∧
    (resetNext (walkingOn 0x55AA#16 1) = false ∧ SessionInv (walkingOn 0x55AA#16 1) ∧
      WalkInv (walkingOn 0x55AA#16 1) ∧ (walkingOn 0x55AA#16 1).walkDue = true ∧
      (walkingOn 0x55AA#16 1).mem.wf = true) ∧
    ∃ t, step (walkingOn 0x55AA#16 1) = .next t ∧
      (decide (t.blk.phase = .idle) && decide (t.env.interp = .showMenu)) = true :=
  ⟨by decide, by decide, by decide, by decide, next_of_nextThat (by decide),
    by unfold SessionInv WalkInv; decide, next_of_nextThat (by decide)⟩

/-- V-W9: each way to be ill-formed is refused, and the nearest accepted configuration is not. -/
theorem witness_IllFormedRangesRefused :
    ({ Config.illustrative with range0 := ⟨0x90#16, 0x80#16⟩ } : Config).rangesOk = false ∧
    ({ Config.illustrative with range1 := ⟨0x90#16, 0x80#16⟩ } : Config).rangesOk = false ∧
    ({ Config.illustrative with range0 := ⟨0xFF00#16, 0xFFFE#16⟩ } : Config).rangesOk = false ∧
    ({ Config.illustrative with range1 := ⟨0xFF00#16, 0xFFFE#16⟩ } : Config).rangesOk = false ∧
    ({ Config.illustrative with
      range0 := ⟨0x80#16, 0x84#16⟩, range1 := ⟨0x85#16, 0x88#16⟩ } : Config).rangesOk = false ∧
    ({ Config.illustrative with range0 := ⟨0x80#16, 0x90#16⟩ } : Config).rangesOk = true ∧
    ({ Config.illustrative with range0 := ⟨0xFF00#16, 0xFFFD#16⟩ } : Config).rangesOk = true ∧
    ({ Config.illustrative with
      range0 := ⟨0x80#16, 0x83#16⟩, range1 := ⟨0x84#16, 0x88#16⟩ } : Config).rangesOk = true := by decide

/-- A command offered on the block's port. -/
def offered (sel : Byte) : State :=
  { State.reset with blk := { Block.reset 0#16 with cmdValid := true, cmdSel := sel } }

/-- The three selectors of the environment, and an invalid one on either side. -/
theorem witness_PortTurnsOtherSelectorsAway :
    (offered 0x32#8).blk.phase = .idle ∧ (offered 0x32#8).hostAccepts ∧
    (offered 0x32#8).blk.cmdSel = 0x32#8 ∧ (offered 0x33#8).blk.cmdSel = 0x33#8 ∧
    (offered 0x35#8).blk.cmdSel = 0x35#8 ∧ (offered 0x30#8).blk.cmdSel.toNat < 0x31 ∧
    0x35 < (offered 0x36#8).blk.cmdSel.toNat := by decide

/-- DIAG and ANGLE offered in IDLE, and a busy block that goes on. -/
theorem witness_CommandsAcceptedOnlyInIdle :
    (offered 0x31#8).blk.phase = .idle ∧ (offered 0x31#8).blk.cmdValid = true ∧
    (offered 0x31#8).blk.cmdSel = 0x31#8 ∧ (offered 0x34#8).blk.cmdSel = 0x34#8 ∧
    waiting.busy = true ∧ (walking 0x55AA#16 1).busy = true ∧
    seqStep waiting = .stop (pwmPoll (worldTurn waiting)) :=
  ⟨by decide, by decide, by decide, by decide, by decide, by decide, rfl⟩

theorem witness_PeekReportsTheByte :
    State.reset.cfg.isUnmapped (foldLine (full 0x30#8 0x30#8 0x38#8 0x30#8)) = false ∧
    State.reset.cfg.readHasSideEffect (foldLine (full 0x30#8 0x30#8 0x38#8 0x30#8)) = false ∧
    State.reset.hostAccepts ∧ State.reset.mem.FaultFree :=
  ⟨by decide, by decide, by decide, rfl, fun _ h => nomatch h⟩

/-- A platform with one unmapped address and one device register. -/
def mapped : State :=
  State.resetWith { Config.illustrative with
    unmapped := [⟨0x2000#16, 0x2000#16⟩], sideEffectReads := [⟨0x2001#16, 0x2001#16⟩] }

theorem witness_PeekOfUnmappedFaults :
    mapped.cfg.isUnmapped (foldLine (full 0x32#8 0x30#8 0x30#8 0x30#8)) = true := by decide

theorem witness_PeekOfDeviceReadFaults :
    mapped.cfg.isUnmapped (foldLine (full 0x32#8 0x30#8 0x30#8 0x31#8)) = false ∧
    mapped.cfg.readHasSideEffect (foldLine (full 0x32#8 0x30#8 0x30#8 0x31#8)) = true := by decide

/-- Each of the three outcomes. -/
theorem witness_CommandsStopOnlyWhereNamed :
    mapped.atRest ∧ (configured { Config.illustrative with range0 := ⟨0x90#16, 0x80#16⟩ }).atRest := by
  decide

/-- Both ends of the interval and both whitelisted addresses. -/
theorem witness_PokeWritesAnAllowedByte :
    State.reset.hostAccepts ∧ State.reset.mem.wf = true ∧
    State.reset.cfg.pokeAllowed (foldPokeAddress .sixteen (full 0x30#8 0x30#8 0x38#8 0x30#8)) = true ∧
    State.reset.cfg.pokeAllowed (foldPokeAddress .sixteen (full 0x30#8 0x30#8 0x46#8 0x46#8)) = true ∧
    foldPokeAddress .sixteen (full 0x30#8 0x30#8 0x30#8 0x30#8) = State.reset.cfg.pokeWl0 ∧
    foldPokeAddress .sixteen (full 0x30#8 0x30#8 0x30#8 0x31#8) = State.reset.cfg.pokeWl1 := by decide

/-- V-E5: the nearest rejected addresses, 0x007F and 0x0100. -/
theorem witness_PokeRejectsEveryOtherAddress :
    State.reset.cfg.pokeAllowed (foldPokeAddress .sixteen (full 0x30#8 0x30#8 0x37#8 0x46#8)) = false ∧
    State.reset.cfg.pokeAllowed (foldPokeAddress .sixteen (full 0x30#8 0x31#8 0x30#8 0x30#8)) = false := by
  decide

/-- A mapped PEEK, a POKE that writes, a POKE to 0x0100 that is rejected while the host accepts
nothing, and EXIT. -/
theorem witness_EnvironmentCommandsFrame :
    State.reset.mem.wf = true ∧
    State.reset.cfg.pokeAllowed (foldPokeAddress .sixteen (full 0x30#8 0x31#8 0x30#8 0x30#8)) = false ∧
    (∃ t, exec (.poke (full 0x30#8 0x31#8 0x30#8 0x30#8) ⟨[], some .cr⟩)
        ({ State.reset with room := some 0 } : State) = .next t ∧
      decide (t.env.stage = .answer .outOfRange) = true) ∧
    (∃ t, exec (.peek (full 0x30#8 0x30#8 0x38#8 0x30#8)) (holding 0x80 0x55#8) = .next t ∧
      decide (t.env.interp = .showMenu) = true) ∧
    (∃ t, exec (.poke ⟨[], some .cr⟩ ⟨[], some .cr⟩) State.reset = .next t ∧
      decide (t.env.interp = .showMenu) = true) ∧
    ∃ t, exec .exit State.reset = .next t ∧ decide (t.env.interp = .exit) = true :=
  ⟨by decide, by decide, next_of_nextThat (by decide), next_of_nextThat (by decide),
    next_of_nextThat (by decide), next_of_nextThat (by decide)⟩

/-- A memory with listed bytes at both ends of the address space. -/
theorem witness_WritesPlaceTheirBytes :
    ({ State.reset with mem := { Memory.reset with cells := [(0, 1#8), (65535, 2#8)] } } :
      State).mem.wf = true := by decide

/-- No scripted answer left, no stuck-at fault (ReadsAssembleTheBytes). -/
theorem witness_ReadsAssembleTheBytes :
    (∀ x ∈ ({ Memory.reset with answers := [none] } : Memory).answers, x = none) ∧
    ({ Memory.reset with answers := [none] } : Memory).stuck = [] :=
  ⟨fun _ h => List.mem_singleton.1 h, rfl⟩

theorem witness_ReadAfterWrite :
    (holding 0xFFFF 0x12#8).mem.wf = true ∧ (holding 0xFFFF 0x12#8).mem.FaultFree :=
  ⟨by decide, rfl, fun _ h => nomatch h⟩

theorem witness_FaultyMemoryAnswers :
    (stuckAt ⟨0x84#16, 1#8, 0#8⟩).mem.stuck = [⟨0x84#16, 1#8, 0#8⟩] ∧
    ({ Memory.reset with answers := [some 0x54AA#16, none] } : Memory).answers =
      some 0x54AA#16 :: [none] := by decide

/-- A session that awaits a selector, with bytes on the transport. -/
def typed (rx : List Byte) : State :=
  { State.reset with env := { Env.reset rx with interp := .awaitSelector } }

/-- A session that reads an operand line of the command `sel`, after the bytes `received`. -/
def reading (sel : Byte) (received : List Byte) (prompted : Bool) (room : Option Nat) : State :=
  { State.reset with
    room := room
    env := { Env.reset [] with
      interp := .dispatch, sel := sel, received := received, prompted := prompted } }

/-- The same with bytes on the transport. -/
def arriving (sel : Byte) (received : List Byte) (prompted : Bool) (rx : List Byte) : State :=
  let s := reading sel received prompted none
  { s with env := { s.env with rx := rx } }

/-- POKE 9, A with a terminator after each line. -/
def pokeNineA : Instr := .poke ⟨[0x39#8], some .cr⟩ ⟨[0x41#8], some .lf⟩

/-- All bytes at once; the selector alone, and all but the last byte; then the rest of a command in one
piece, with a byte behind it, when the prompt is still due and in the second line, and in two pieces, the
first of them empty. -/
theorem witness_StepRunsTheDecodedCommand :
    ((typed [0x34#8, 0x0D#8, 0x35#8]).env.interp = .awaitSelector ∧
      resetNext (typed [0x34#8, 0x0D#8, 0x35#8]) = false ∧
      (worldTurn (typed [0x34#8, 0x0D#8, 0x35#8])).room = none ∧
      (Instr.angle ⟨[], some .cr⟩).wf = true ∧
      (worldTurn (typed [0x34#8, 0x0D#8, 0x35#8])).env.rx =
        encode (.angle ⟨[], some .cr⟩) ++ [0x35#8]) ∧
    (pokeNineA.wf = true ∧
      encode pokeNineA = 0x33#8 :: ([] ++ [0x39#8, 0x0D#8, 0x41#8, 0x0A#8]) ∧
      (worldTurn (typed [0x33#8])).env.rx = 0x33#8 :: [] ∧
      encode pokeNineA = 0x33#8 :: ([0x39#8, 0x0D#8, 0x41#8] ++ [0x0A#8]) ∧
      (worldTurn (typed [0x33#8, 0x39#8, 0x0D#8, 0x41#8])).env.rx =
        0x33#8 :: [0x39#8, 0x0D#8, 0x41#8]) ∧
    (let s := arriving 0x33#8 [] false [0x39#8, 0x0D#8, 0x41#8, 0x0A#8, 0x31#8]
     s.env.interp = .dispatch ∧ s.env.stage = .operands ∧ resetNext s = false ∧
      (worldTurn s).room = none ∧
      (worldTurn s).env.rx = [0x39#8, 0x0D#8, 0x41#8, 0x0A#8] ++ [0x31#8]) ∧
    (let s := arriving 0x33#8 [0x39#8, 0x0D#8, 0x41#8] true [0x0A#8]
     encode pokeNineA = s.env.sel :: (s.env.received ++ [0x0A#8]) ∧
      (worldTurn s).env.rx = [0x0A#8] ++ []) ∧
    (let s := arriving 0x33#8 [0x39#8] true []
     encode pokeNineA = s.env.sel :: (s.env.received ++ [0x0D#8, 0x41#8, 0x0A#8]) ∧
      (worldTurn s).env.rx = []) ∧
    (let s := arriving 0x33#8 [0x39#8] true [0x0D#8]
     [0x0D#8, 0x41#8, 0x0A#8] = [0x0D#8] ++ [0x41#8, 0x0A#8] ∧
      (worldTurn s).env.rx = [0x0D#8]) := by decide

/-- Rules R53, R131, R145, R150: the first character of POKE's address line is echoed and kept, and the
step waits for the next. -/
theorem test_poke_typed_character_by_character : nextThat (step (typed [0x33#8, 0x39#8])) (fun t =>
    decide (t.env.interp = .dispatch) && decide (t.env.received = [0x39#8]) &&
    decide (t.reports = [.prompt, .localEcho 0x39#8]) && t.env.prompted) = true := by decide

/-- A byte just below and a byte just above the selectors. -/
theorem witness_InvalidSelectorOnlyReported :
    resetNext (typed [0x30#8]) = false ∧ (worldTurn (typed [0x30#8])).room = none ∧
    (0x30#8).toNat < 0x31 ∧ (worldTurn (typed [0x30#8])).env.rx = 0x30#8 :: [] ∧
    0x35 < (0x36#8).toNat ∧ (worldTurn (typed [0x36#8])).env.rx = 0x36#8 :: [] := by decide

theorem witness_MenuThenSelector :
    State.reset.env.interp = .showMenu ∧ resetNext State.reset = false ∧
    (worldTurn State.reset).room = none := by decide

/-- The wait for a selector; and in an operand line a prompt that is due and accepted (with and without
an end to what the host accepts), one that is due and not accepted, and none due (POKE's second line
half read; ANGLE). -/
theorem witness_WaitingForAByteChangesNothing :
    ((typed []).env.interp = .awaitSelector ∧ resetNext (typed []) = false ∧
      (worldTurn (typed [])).env.rx = []) ∧
    decode [0x32#8] = .error .lineUnfinished ∧ decode [0x34#8, 0x39#8] = .error .lineUnfinished ∧
    decode [0x33#8, 0x39#8, 0x30#8, 0x0D#8, 0x41#8] = .error .lineUnfinished ∧
    (∀ s ∈ [reading 0x32#8 [] false none, reading 0x32#8 [] false (some 1),
        reading 0x33#8 [] false (some 0), reading 0x33#8 [0x39#8, 0x30#8, 0x0D#8, 0x41#8] true none,
        reading 0x34#8 [0x39#8] false none],
      resetNext s = false ∧ (worldTurn s).env.rx = [] ∧ s.env.interp = .dispatch ∧
        s.env.stage = .operands ∧ decode (s.env.sel :: s.env.received) = .error .lineUnfinished) ∧
    (worldTurn (reading 0x32#8 [] false none)).room ≠ some 0 ∧
    (worldTurn (reading 0x32#8 [] false (some 1))).room ≠ some 0 ∧
    (worldTurn (reading 0x33#8 [] false (some 0))).room = some 0 := by decide

/-- Rule R78: while the report of the verdict waits, the range is marked already and nothing is reported. -/
theorem test_verdict_marks_before_its_report :
    (let s : State := { walking 0#16 0 with room := some 0 }
     match dVerdict { s with blk := { s.blk with failed := true } } with
     | .go _ => false
     | .stop t => t.blk.fail0 && !t.blk.fail1 && decide (t.reports = [] ∧ t.blk.ri = 0)) = true := by
  decide

/-- A host that accepts nothing, while an answer waits, while a unit of either range has failed, while an
invalid selector stands on the port, while PEEK's prompt is due, and while a POKE character is to be
echoed. -/
theorem witness_ReportsWaitForTheHost :
    ({ walking 0#16 0 with room := some 0 } : State).room = some 0 ∧
    ({ walking 0#16 0 with room := some 0 } : State).blk.rd ≠ State.reset.cfg.sentinel ∧
    ({ walking 0#16 0 with room := some 0 } : State).blk.ri = 0 ∧
    ({ walking 0#16 1 with room := some 0 } : State).blk.ri = 1 ∧
    ({ State.reset with
      room := some 0, env := { Env.reset [] with stage := .answer .outOfRange } } : State).env.stage =
        .answer .outOfRange ∧
    ({ offered 0x30#8 with room := some 0 } : State).blk.cmdSel.toNat < 0x31 ∧
    0x35 < ({ offered 0x36#8 with room := some 0 } : State).blk.cmdSel.toNat ∧
    (reading 0x32#8 [] false (some 0)).room = some 0 ∧
    decode [0x32#8] = .error .lineUnfinished ∧ decode [0x33#8, 0x39#8] = .error .lineUnfinished ∧
    (reading 0x33#8 [0x39#8] true (some 0)).env.prompted = true ∧
    (0x30#8 : Byte) ≠ 0x0A#8 ∧ (0x30#8 : Byte) ≠ 0x0D#8 := by decide

/-- The menu, and the answer of a handler, with a host that has accepted nothing and accepts one event. -/
def pending (interp : Interp) (stage : Stage) : State :=
  { State.reset with
    env := { Env.reset [] with interp := interp, stage := stage }
    room := some 0
    world := [.run (accepting 1)] }

/-- Each place, with a host that accepts one more event. -/
theorem witness_ReportsWaitForTheHost_goesOn :
    (∀ s ∈ [pending .showMenu .operands, pending .dispatch (.answer .outOfRange)],
      resetNext s = false ∧ s.room = some 0 ∧ (worldTurn s).room ≠ some 0) ∧
    ({ walking 0#16 0 with room := some 1 } : State).room ≠ some 0 ∧
    ({ walking 0#16 0 with room := some 1 } : State).blk.rd ≠ State.reset.cfg.sentinel ∧
    ({ offered 0x30#8 with room := some 1 } : State).blk.cmdSel.toNat < 0x31 ∧
    0x35 < ({ offered 0x36#8 with room := some 1 } : State).blk.cmdSel.toNat ∧
    ({ offered 0x36#8 with room := some 1 } : State).blk.phase = .idle ∧
    (reading 0x32#8 [] false (some 1)).room ≠ some 0 ∧
    (reading 0x32#8 [] false (some 1)).env.prompted = false ∧
    (reading 0x33#8 [0x39#8] true (some 1)).env.sel = 0x33#8 := by decide

/-- A DIAG at the failing last unit of range 1, whose host has accepted nothing and accepts six events. -/
def failing : State := { walkingOn 0#16 1 with room := some 0, world := [.run (accepting 6)] }

theorem witness_ReportsWaitForTheHost_completes :
    (SessionInv echoing ∧ echoing.blk.phase = .aEcho ∧ resetNext echoing = false ∧
      (worldTurn echoing).room ≠ some 0) ∧
    SessionInv failing ∧ failing.walkDue = true ∧ WalkInv failing ∧ failing.cfg.rangesOk = true ∧
    failing.noReset ∧ (∀ n, (worldTurn failing).room = some n → 6 ≤ n) ∧
    ∃ t, step failing = .next t ∧ decide (t.reports.length = 2) = true :=
  ⟨by unfold SessionInv; decide, by unfold SessionInv; decide, by decide, by unfold WalkInv; decide,
    by decide, by decide, fun _ h => Nat.le_of_eq (Option.some.inj h), next_of_nextThat (by decide)⟩

theorem witness_ExitOnlyByTheQuitSelector :
    ∃ t, step (typed [0x35#8]) = .next t ∧ decide (t.env.interp = .exit) = true :=
  next_of_nextThat (by decide)

/-- The state `Exit`. -/
def ended : State := { State.reset with env := { Env.reset [] with interp := .exit, sel := 0x35#8 } }

theorem witness_NothingAfterExit : ended.env.interp = .exit ∧ resetNext ended = false := by decide

/-- A step that runs a command, for the statements about every step (ConfigurationNeverWritten). -/
theorem witness_ConfigurationNeverWritten :
    ∃ t, step (typed [0x31#8]) = .next t ∧ decide (t.reports.length = 4) = true :=
  next_of_nextThat (by decide)

/-- DIAG, a step in which DIAG goes on, a step in which ANGLE adopts (the pulse is in the history), and
one that does nothing of the kind. -/
theorem witness_OnlyAngleWritesPrevDuty :
    ((∀ l, Instr.diag ≠ .angle l) ∧ duty200.atRest ∧
      ∃ t, exec .diag duty200 = .next t ∧ decide (t.blk.prevDuty = 200#16) = true) ∧
    (resetNext (walkingOn 0x55AA#16 0) = false ∧ SessionInv (walkingOn 0x55AA#16 0) ∧
      (walkingOn 0x55AA#16 0).walkDue = true ∧
      ∃ t, step (walkingOn 0x55AA#16 0) = .next t ∧ decide (t.blk.phase = .idle) = true) ∧
    (∃ t, step (typed [0x34#8, 0x0D#8]) = .next t ∧
      (decide (.pwm .counterReset ∈ t.trace) && decide (t.blk.prevDuty = 90#16)) = true) ∧
    ∃ t, step (typed []) = .next t ∧ decide (t.trace = []) = true :=
  ⟨⟨fun _ => Instr.noConfusion, by decide, next_of_nextThat (by decide)⟩,
    ⟨by decide, by unfold SessionInv; decide, by decide, next_of_nextThat (by decide)⟩,
    next_of_nextThat (by decide), next_of_nextThat (by decide)⟩

/-- A step that keeps the indicator, a step that clears it, and one with no cycle. -/
theorem witness_IndicatorIsSticky :
    flagged.pwm.cycleFlag = true ∧
    (∃ t, step flagged = .next t ∧ t.pwm.cycleFlag = true) ∧
    (∃ t, step ({ flagged with env := { Env.reset [0x34#8, 0x0D#8] with interp := .awaitSelector } }) =
      .next t ∧ (!t.pwm.cycleFlag) = true) ∧
    typing.noCycle ∧ typing.pwm.cycleFlag = false ∧
    ∃ t, step typing = .next t ∧ (!t.pwm.cycleFlag) = true :=
  ⟨by decide, next_of_nextThat (by decide), next_of_nextThat (by decide), by decide, by decide,
    next_of_nextThat (by decide)⟩

theorem witness_StepKeepsMemoryCanonical :
    (typed [0x31#8]).mem.wf = true ∧
    ∃ t, step (typed [0x31#8]) = .next t ∧ decide (t.mem.cells.length = 14) = true :=
  ⟨by decide, next_of_nextThat (by decide)⟩

/-- Both sides of the invariant: waiting for a selector, and waiting for the block. -/
theorem witness_StepKeepsTheSingleThread :
    SessionInv (typed [0x31#8]) ∧ SessionInv waiting ∧
    ∃ t, step waiting = .next t ∧ decide (t.blk.phase = .aWait) = true :=
  ⟨by unfold SessionInv; decide, by unfold SessionInv; decide, next_of_nextThat (by decide)⟩

/-- A walk that goes on at the last unit of range 1. -/
theorem witness_StepKeepsTheWalkInRange :
    WalkInv (walkingOn 0x55AA#16 1) ∧ (walkingOn 0x55AA#16 1).blk.phase.inBody = true ∧
    (walkingOn 0x55AA#16 1).cfg.rangesOk = true ∧
    ∃ t, step (walkingOn 0x55AA#16 1) = .next t ∧ decide (t.blk.phase = .idle) = true :=
  ⟨by unfold WalkInv; decide, by decide, by decide, next_of_nextThat (by decide)⟩

/-- ANGLE at its echo, and one step of it. -/
theorem witness_AngleLeavesThePortProgrammed_kept :
    PortInv echoing ∧ echoing.blk.phase.written = 3 ∧
    ∃ t, step echoing = .next t ∧ decide (t.blk.phase = .idle) = true :=
  ⟨by unfold PortInv; decide, by decide, next_of_nextThat (by decide)⟩

theorem witness_StepKeepsTheDutyAttainable :
    DutyInv (typed [0x34#8, 0x0D#8]) ∧
    ∃ t, step (typed [0x34#8, 0x0D#8]) = .next t ∧ decide (t.blk.prevDuty = 90#16) = true :=
  ⟨⟨by decide, by decide, by decide, fun _ h => nomatch h⟩, next_of_nextThat (by decide)⟩

theorem witness_ResetEstablishesTheInvariants : PrevDutyResetOk Config.illustrative.prevDutyReset := by
  decide

/-- A reset while ANGLE waits. -/
theorem witness_ResetInTheMiddle :
    resetNext ({ waiting with world := [.reset, .run (beat true)] } : State) = true := by decide

end Sys2Proof.Tests
end

/-! SUPPORT. What one phase of the sequencer can do, one constructor per way, and what every way leaves
unchanged: the frames of DIAG and ANGLE and the invariants of the whole machine are read off it. -/

namespace Sys2Proof.Machine

/-! ### The moves of a phase -/

/-- The state a phase can lead to, one constructor per way (spec/10_state.md rule R12's table); `room` is
what is left of the host's credit after a report. `phaseStep_moves` ties it to the model. -/
inductive PhaseMove (s : State) : State → Prop where
  | stands : PhaseMove s s
  | takesDiag (hp : s.blk.phase = .idle) (hv : s.blk.cmdValid = true) (hs : s.blk.cmdSel = selDiag) :
      PhaseMove s (s.takeOffer.setBlk { s.takeOffer.blk with ri := 0, phase := .dBounds })
  | takesAngle (hp : s.blk.phase = .idle) (hv : s.blk.cmdValid = true)
      (hs : s.blk.cmdSel = selAngle) :
      PhaseMove s (s.takeOffer.setBlk { s.takeOffer.blk with p := s.blk.cmdArg, phase := .aConvert })
  | turnsAway (hp : s.blk.phase = .idle) (hv : s.blk.cmdValid = true)
      (hd : s.blk.cmdSel ≠ selDiag) (ha : s.blk.cmdSel ≠ selAngle) : PhaseMove s s.takeOffer.finish
  | reportsInvalid (hp : s.blk.phase = .idle) (hv : s.blk.cmdValid = true)
      (hd : s.blk.cmdSel ≠ selDiag) (ha : s.blk.cmdSel ≠ selAngle) (r : Report)
      (room : Option Nat) :
      PhaseMove s ((record (.out r) s).setRoom room).takeOffer.finish
  | bounds (hp : s.blk.phase = .dBounds) (r : Report) (room : Option Nat) :
      PhaseMove s (((record (.out r) s).setRoom room).setBlk
        { s.blk with failed := false, addr := s.walkRange.start, phase := .dCheck })
  | check (hp : s.blk.phase = .dCheck) :
      PhaseMove s (s.enter (if s.blk.addr ≤ s.walkRange.stop then .dWrite else .dVerdict))
  | write (hp : s.blk.phase = .dWrite) :
      PhaseMove s ((memWrite2 s.blk.addr s.cfg.sentinel s).enter .dRead)
  | read (hp : s.blk.phase = .dRead) :
      PhaseMove s ((memRead2 s.blk.addr s).setBlk
        { s.blk with rd := memValue2 s.blk.addr s, phase := .dCmp })
  | advances (hp : s.blk.phase = .dCmp) :
      PhaseMove s (s.setBlk { s.blk with addr := s.blk.addr + 2#16, phase := .dCheck })
  | fails (hp : s.blk.phase = .dCmp) (r : Report) (room : Option Nat) :
      PhaseMove s (((record (.out r) s).setRoom room).setBlk
        { s.blk.setFailAddr s.blk.ri s.blk.addr with failed := true, phase := .dVerdict })
  | marks (hp : s.blk.phase = .dVerdict) :
      PhaseMove s (s.setBlk (s.blk.setFail s.blk.ri s.blk.failed))
  | nextRange (hp : s.blk.phase = .dVerdict) (hi : s.blk.ri = 0) (r : Report) (room : Option Nat) :
      PhaseMove s (((record (.out r) s).setRoom room).setBlk
        { s.blk.setFail 0 s.blk.failed with ri := 1, phase := .dBounds })
  | endsWalk (hp : s.blk.phase = .dVerdict) (hi : s.blk.ri ≠ 0) (r : Report) (room : Option Nat) :
      PhaseMove s (((record (.out r) s).setRoom room).setBlk
        (s.blk.setFail s.blk.ri s.blk.failed)).finish
  | converts (hp : s.blk.phase = .aConvert) : PhaseMove s (converted s)
  | period (hp : s.blk.phase = .aPeriod) :
      PhaseMove s ((pwmWritePeriod Config.pwmPeriod s).enter .aCompare)
  | compare (hp : s.blk.phase = .aCompare) :
      PhaseMove s ((pwmWriteCompare (compareValue s.blk.duty) s).enter .aMode)
  | mode (hp : s.blk.phase = .aMode) : PhaseMove s ((pwmWriteMode .edgeAligned s).enter .aWait)
  | waits (hp : s.blk.phase = .aWait) (hf : s.pwm.cycleFlag = false) : PhaseMove s (pwmPoll s)
  | polls (hp : s.blk.phase = .aWait) (hf : s.pwm.cycleFlag = true) :
      PhaseMove s ((pwmPoll s).enter .aClear)
  | clears (hp : s.blk.phase = .aClear) : PhaseMove s ((pwmClearFlag s).enter .aEcho)
  | echoes (hp : s.blk.phase = .aEcho) (r : Report) (room : Option Nat) :
      PhaseMove s ((record (.out r) s).setRoom room).finish

/-- Every phase makes one of these moves. -/
theorem phaseStep_moves (s : State) : PhaseMove s (phaseStep s).state := by
  rcases phaseStep_cases s with e | ⟨hp, hv, hs, e⟩ | ⟨hp, hv, hs, e⟩ |
    ⟨hp, hv, hd, ha, e | ⟨r, room, e⟩⟩ | ⟨hp, r, room, e⟩ | ⟨hp, e⟩ | ⟨hp, e⟩ | ⟨hp, e⟩ |
    ⟨hp, e | ⟨r, room, e⟩⟩ | ⟨hp, e | ⟨r, room, e⟩⟩ | ⟨hp, e⟩ | ⟨hp, e⟩ | ⟨hp, e⟩ | ⟨hp, e⟩ |
    ⟨hp, e⟩ | ⟨hp, e⟩ | ⟨hp, r, room, e⟩ <;> rw [e]
  · exact .stands
  · exact .takesDiag hp hv hs
  · exact .takesAngle hp hv hs
  · exact .turnsAway hp hv hd ha
  · exact .reportsInvalid hp hv hd ha r room
  · exact .bounds hp r room
  · exact .check hp
  · exact .write hp
  · exact .read hp
  · exact .advances hp
  · exact .fails hp r room
  · exact .marks hp
  · split
    · rename_i hi; exact .nextRange hp hi r room
    · rename_i hi; exact .endsWalk hp hi r room
  · exact .converts hp
  · exact .period hp
  · exact .compare hp
  · exact .mode hp
  · split
    · rename_i hf; exact .polls hp hf
    · rename_i hf; exact .waits hp (Bool.eq_false_iff.2 hf)
  · exact .clears hp
  · exact .echoes hp r room

/-- A sequencer step stands, or is the turn of the world and a move. -/
theorem seqStep_moves (s : State) :
    (seqStep s).state = s ∨ PhaseMove (worldTurn s) (seqStep s).state := by
  unfold seqStep
  split
  · exact .inl rfl
  · exact .inr (phaseStep_moves _)

/-- What a turn of the world, every move and the return to the menu keep, a run of the block keeps. -/
theorem runBlock_keeps {Q : State → Prop} {s t : State} (hw : ∀ u, Q u → Q (worldTurn u))
    (hm : ∀ u v, PhaseMove u v → Q u → Q v) (hc : ∀ u, Q u → Q (collectDone u))
    (h : runBlock s = .next t) (hs : Q s) : Q t := by
  obtain ⟨-, rfl⟩ := runBlock_next h
  exact hc _ (seqRun_keeps (seqStep_keeps hw fun u => hm u _ (phaseStep_moves u)) _ _ hs)

/-! ### What every move leaves unchanged -/

section
variable {s t : State}

/-- Recording a failing address touches `fail_addr` and nothing else (spec/40_memory_walker.md rule R77). -/
theorem setFailAddr_eq (b : Block) (i : Fin 2) (v : Word) :
    b.setFailAddr i v = { b with
      failAddr0 := if i = 0 then v else b.failAddr0
      failAddr1 := if i = 0 then b.failAddr1 else v } := by
  unfold Block.setFailAddr
  split <;> rfl

theorem PhaseMove.cfg_eq (h : PhaseMove s t) : t.cfg = s.cfg := by
  cases h with
  | converts => exact converted_cfg s
  | _ => rfl

theorem PhaseMove.env_eq (h : PhaseMove s t) : t.env = s.env := by
  cases h with
  | converts => exact converted_env s
  | _ => rfl

/-- A move leaves memory alone, stores the sentinel in one unit, or has one read answered. -/
theorem PhaseMove.mem_cases (h : PhaseMove s t) :
    t.mem = s.mem ∨
      (s.blk.phase = .dWrite ∧
        t.mem = s.mem.storeUnit s.cfg.byteOrder s.blk.addr s.cfg.sentinel) ∨
      t.mem = s.mem.afterRead := by
  cases h with
  | write hp => exact .inr (.inl ⟨hp, rfl⟩)
  | read => exact .inr (.inr rfl)
  | converts => exact .inl (converted_mem s)
  | _ => exact .inl rfl

/-- While the block is busy no move touches the offer. -/
theorem PhaseMove.offer_eq (h : PhaseMove s t) (hb : s.blk.phase ≠ .idle) :
    t.blk.cmdValid = s.blk.cmdValid ∧ t.blk.cmdSel = s.blk.cmdSel ∧
      t.blk.cmdArg = s.blk.cmdArg := by
  cases h with
  | takesDiag hp | takesAngle hp | turnsAway hp | reportsInvalid hp => exact absurd hp hb
  | fails => simp [setFailAddr_eq]
  | marks | nextRange | endsWalk => simp [setFail_eq]
  | converts => unfold converted; split <;> exact ⟨rfl, rfl, rfl⟩
  | _ => exact ⟨rfl, rfl, rfl⟩

end

end Sys2Proof.Machine

/-! SUPPORT. The canonical form of memory, the configuration, the offer and the reset. -/

namespace Sys2Proof.Machine

/-- A move keeps the canonical form of memory (log 7). -/
theorem PhaseMove.wf {s t : State} (h : PhaseMove s t) (hs : s.mem.wf = true) : t.mem.wf = true := by
  rcases h.mem_cases with e | ⟨-, e⟩ | e <;> rw [e]
  · exact hs
  · exact Memory.wf_storeUnit _ _ _ _ hs
  · exact hs

theorem partsKeep_wf : PartsKeep fun s => s.mem.wf = true where
  world s h := by simpa using h
  env _ _ h := h
  output _ _ _ h := h
  offer _ _ _ h := h
  collect _ h := h
  phase s h := (phaseStep_moves s).wf h
  read _ _ h := h
  write _ _ _ h := Memory.wf_storeByte _ _ _ h

/-- Settles O55: every part of a step keeps the canonical form, and a reset leaves memory alone. -/
theorem stepKeepsMemoryCanonical : Obligations.StepKeepsMemoryCanonical :=
  fun _ _ h hs => partsKeep_wf.step h (fun _ => hs) hs

theorem partsKeep_cfg (c : Config) : PartsKeep fun s => s.cfg = c where
  world s h := by simpa using h
  env _ _ h := h
  output _ _ _ h := h
  offer _ _ _ h := h
  collect _ h := h
  phase s h := (phaseStep_moves s).cfg_eq.trans h
  read _ _ h := h
  write _ _ _ h := h

/-- Settles O52: no part of a step writes the configuration, and a reset keeps it. -/
theorem configurationNeverWritten : Obligations.ConfigurationNeverWritten :=
  fun s _ h => (partsKeep_cfg s.cfg).step h (fun _ => rfl) rfl

/-- Settles O32: the two acceptances are those of `acceptCommand`, and a busy block makes a move that
leaves the offer alone. -/
theorem commandsAcceptedOnlyInIdle : Obligations.CommandsAcceptedOnlyInIdle := by
  refine ⟨fun s hp hv hs => ?_, fun s hp hv hs => ?_, fun s s1 hb h => ?_⟩
  · rw [phaseStep_idle hp hv, acceptCommand_diag hs]; rfl
  · rw [phaseStep_idle hp hv, acceptCommand_angle hs]; rfl
  · have e : (seqStep s).state = s1 := by rcases h with h | h <;> rw [h] <;> rfl
    rcases seqStep_moves s with hm | hm <;> rw [e] at hm
    · simp [hm]
    · have hp : s.blk.phase ≠ .idle := by simpa [State.busy] using hb
      simpa using hm.offer_eq (by simpa using hp)

/-- Settles O60: a pending reset is the step, and `warmReset` states each field. -/
theorem resetInTheMiddle : Obligations.ResetInTheMiddle :=
  fun s h => ⟨warmReset s, by simp [step, h], rfl, rfl, rfl, rfl, rfl, rfl, rfl, rfl⟩

/-- The duties after reset: `prev_duty` is the reset value, and nothing has been programmed. -/
theorem dutyInv_resetWith (cfg : Config) (h : PrevDutyResetOk cfg.prevDutyReset) :
    DutyInv (State.resetWith cfg) :=
  ⟨h, .inr rfl, by simp [State.resetWith, Block.reset, Phase.syncing], by simp [State.resetWith]⟩

/-- Settles O59: reset leaves an idle block with an empty history, where no invariant asks for more. -/
theorem resetEstablishesTheInvariants : Obligations.ResetEstablishesTheInvariants := by
  refine ⟨fun cfg => ⟨rfl, rfl, rfl, rfl, rfl, rfl, rfl, ?session, ?walk, ?port,
    dutyInv_resetWith cfg⟩, rfl, dutyInv_resetWith _ (by decide)⟩
  case session => simp [SessionInv, State.atRest, State.resetWith, Env.reset, Block.reset]
  case walk => intro hl; cases hl
  case port => simp [PortInv, State.resetWith, Block.reset, Phase.syncing, Phase.written]

end Sys2Proof.Machine

/-! SUPPORT. The duties: what A_CONVERT hands on, and the invariant of spec/10_state.md rule R26. -/

namespace Sys2Proof.Machine

/-- BCD2DEC reads the three low nibbles only (spec/41_angle_to_duty.md rule R90). -/
theorem bcd2dec_congr {p q : Word} (h : p.toNat % 4096 = q.toNat % 4096) :
    bcd2dec p = bcd2dec q := by
  have e0 : p.toNat % 16 = q.toNat % 16 := by omega
  have e1 : p.toNat / 16 % 16 = q.toNat / 16 % 16 := by omega
  have e2 : p.toNat / 256 % 16 = q.toNat / 256 % 16 := by omega
  simp only [bcd2dec, e0, e1, e2]

theorem clampedOf_congr {p q : Word} (h : p.extractLsb' 0 12 = q.extractLsb' 0 12) :
    clampedOf p = clampedOf q := by
  have hn := congrArg BitVec.toNat h
  simp only [BitVec.extractLsb'_toNat, Nat.shiftRight_zero] at hn
  simp only [clampedOf, bcd2dec_congr hn]

/-- From a legal `prev_duty` the comparator hands on an attainable one (rules R26, R94, R95). -/
theorem converted_attainable {s : State} (h : PrevDutyResetOk s.blk.prevDuty) :
    Attainable (converted s).blk.prevDuty.toNat := by
  rw [converted_prevDuty]
  split
  · rw [ofNat_clampedOf_toNat]; exact attainable_clampedOf _
  · rename_i ha
    exact attainable_of_hold _ h _ (attainable_clampedOf _) (by simpa using ha)

theorem converted_duty_eq (s : State) : (converted s).blk.duty = (converted s).blk.prevDuty := by
  rw [converted_duty, converted_prevDuty]

theorem converted_txns (s : State) : (converted s).txns = s.txns := by
  rw [State.txns, converted_trace]
  split <;> simp [State.txns, PortEvent.txn?]

theorem converted_reports (s : State) : (converted s).reports = s.reports := by
  rw [State.reports, converted_trace]
  split <;> simp [State.reports, PortEvent.report?]

/-- Settles O13: the conversion goes on to `converted`, whose parts the lemmas above state. -/
theorem convertKeepsAttainable : Obligations.ConvertKeepsAttainable := by
  refine ⟨fun p q => clampedOf_congr, fun s => ⟨converted s, aConvert_eq s, converted_adopt s, ?_,
    converted_duty_eq s, converted_mem s, converted_txns s, converted_reports s, fun h => ?_⟩⟩
  · rw [converted_prevDuty, converted_adopt]
  · rw [converted_duty_eq]
    exact ⟨converted_attainable h, converted_attainable h⟩

/-- The duties stand while their registers and the reset value do, no PWM_SYNC begins, and what joins the
history keeps the promise of the compare values. -/
theorem DutyInv.of_frame {s t : State} (h : DutyInv s) (hc : t.cfg = s.cfg)
    (hv : t.blk.prevDuty = s.blk.prevDuty) (hd : t.blk.duty = s.blk.duty)
    (hp : t.blk.phase.syncing = true → s.blk.phase.syncing = true)
    (ht : ∃ new, t.trace = s.trace ++ new ∧ ∀ e ∈ new, comparePromise e) : DutyInv t := by
  obtain ⟨hreset, hprev, hduty, htrace⟩ := h
  obtain ⟨new, et, hnew⟩ := ht
  unfold DutyInv
  rw [hc, hv, hd, et]
  exact ⟨hreset, hprev, fun hs => hduty (hp hs),
    fun e he => (List.mem_append.1 he).elim (htrace e) (hnew e)⟩

/-- `prev_duty` is a value the comparator may hold against (rule R26). -/
theorem DutyInv.prevDuty_ok {s : State} (h : DutyInv s) : PrevDutyResetOk s.blk.prevDuty := by
  obtain ⟨hreset, ha | e, -, -⟩ := h
  · exact .inl ha
  · rw [e]; exact hreset

/-- A conversion establishes what PWM_SYNC relies on. -/
theorem DutyInv.converted {s : State} (h : DutyInv s) : DutyInv (converted s) := by
  have ha := converted_attainable h.prevDuty_ok
  obtain ⟨hreset, -, -, htrace⟩ := h
  refine ⟨by rwa [converted_cfg], .inl ha,
    fun _ => ⟨by rwa [converted_duty_eq], converted_duty_eq s⟩, fun e he => ?_⟩
  rw [converted_trace, List.mem_append] at he
  rcases he with he | he
  · exact htrace e he
  · split at he
    · rw [List.mem_singleton.1 he]; trivial
    · cases he

/-- The compare value of an attainable duty does not wrap (spec/42_pwm_sync.md rule R114). -/
theorem attainable_compareValue {d : Word} (h : Attainable d.toNat) :
    Attainable ((compareValue d).toNat - 1) := by
  have hd : d.toNat ≤ 320 := by unfold Attainable at h; omega
  have e : (compareValue d).toNat - 1 = d.toNat := by
    simp only [compareValue, Config.compareAdj, BitVec.toNat_add, BitVec.toNat_ofNat]
    omega
  rwa [e]

/-- A move that is no conversion writes neither duty and starts no PWM_SYNC. -/
theorem PhaseMove.duties {s t : State} (h : PhaseMove s t) (hn : s.blk.phase ≠ .aConvert) :
    t.blk.prevDuty = s.blk.prevDuty ∧ t.blk.duty = s.blk.duty ∧
      (t.blk.phase.syncing = true → s.blk.phase.syncing = true) := by
  cases h with
  | converts hp => exact absurd hp hn
  | check =>
    refine ⟨rfl, rfl, fun hs => ?_⟩
    simp only [State.enter_blk] at hs
    split at hs <;> cases hs
  | fails => exact ⟨by simp [setFailAddr_eq], by simp [setFailAddr_eq], fun hs => nomatch hs⟩
  | marks => simp [setFail_eq]
  | nextRange => exact ⟨by simp [setFail_eq], by simp [setFail_eq], fun hs => nomatch hs⟩
  | endsWalk => exact ⟨by simp [setFail_eq], by simp [setFail_eq], fun hs => nomatch hs⟩
  | period hp | compare hp | mode hp | polls hp | clears hp => simp [hp, Phase.syncing]
  | stands | waits => exact ⟨rfl, rfl, id⟩
  | _ => exact ⟨rfl, rfl, fun hs => nomatch hs⟩

/-- The history only grows, and a compare value joins it only in `A_COMPARE`, as the successor of
`duty`. -/
theorem PhaseMove.trace_grows {s t : State} (h : PhaseMove s t) :
    ∃ new, t.trace = s.trace ++ new ∧ ∀ v, .pwm (.writeCompare v) ∈ new →
      s.blk.phase = .aCompare ∧ v = compareValue s.blk.duty := by
  cases h with
  | converts =>
    refine ⟨_, converted_trace s, fun v hv => ?_⟩
    split at hv <;> simp at hv
  | compare hp => exact ⟨[_], rfl, by simp [hp]⟩
  | turnsAway => exact ⟨[.done], rfl, by simp⟩
  | reportsInvalid _ _ _ _ r | endsWalk _ _ r | echoes _ r =>
    exact ⟨[.out r, .done], by simp, by simp⟩
  | stands | takesDiag | takesAngle | check | advances | marks => exact ⟨[], by simp, by simp⟩
  | _ => exact ⟨[_], rfl, by simp⟩

/-- Where the comparator stands, a move converts or nothing happens. -/
theorem PhaseMove.eq_converted {s t : State} (h : PhaseMove s t) (hp : s.blk.phase = .aConvert) :
    t = converted s ∨ t = s := by
  cases h with
  | stands => exact .inr rfl
  | converts => exact .inl rfl
  | _ => simp_all

theorem comparePromise_of_writeCompare {e : PortEvent}
    (h : ∀ v, e = .pwm (.writeCompare v) → Attainable (v.toNat - 1)) : comparePromise e := by
  unfold comparePromise
  split
  · exact h _ rfl
  · trivial

/-- A move keeps the duties: the conversion hands on an attainable one, `A_COMPARE` writes its successor,
and no other move touches them. -/
theorem PhaseMove.dutyInv {s t : State} (h : PhaseMove s t) (hs : DutyInv s) : DutyInv t := by
  by_cases hp : s.blk.phase = .aConvert
  · rcases h.eq_converted hp with rfl | rfl
    · exact hs.converted
    · exact hs
  · obtain ⟨hprev, hduty, hsync⟩ := h.duties hp
    obtain ⟨new, htrace, hnew⟩ := h.trace_grows
    refine hs.of_frame h.cfg_eq hprev hduty hsync ⟨new, htrace, fun e he => ?_⟩
    refine comparePromise_of_writeCompare fun v hv => ?_
    obtain ⟨hc, rfl⟩ := hnew v (hv ▸ he)
    obtain ⟨-, -, hsynced, -⟩ := hs
    exact attainable_compareValue (hsynced (by simp [hc, Phase.syncing])).1

theorem partsKeep_dutyInv : PartsKeep DutyInv where
  world s h := h.of_frame (by simp) (by simp) (by simp) (by simp) ⟨[], by simp, by simp⟩
  env s e h := h.of_frame rfl rfl rfl id ⟨[], by simp, by simp⟩
  output s r room h := h.of_frame rfl rfl rfl id ⟨[.out r], rfl, by simp [comparePromise]⟩
  offer s sel arg h := h.of_frame rfl rfl rfl id ⟨[], by simp, by simp⟩
  collect s h := h.of_frame rfl rfl rfl id ⟨[], by simp, by simp⟩
  phase s h := (phaseStep_moves s).dutyInv h
  read s a h := h.of_frame rfl rfl rfl id ⟨[_], rfl, by simp [comparePromise]⟩
  write s a d h := h.of_frame rfl rfl rfl id ⟨[_], rfl, by simp [comparePromise]⟩

/-- A reset puts `prev_duty` back to its reset value and empties the history. -/
theorem DutyInv.warmReset {s : State} (h : DutyInv s) : DutyInv (warmReset s) :=
  (dutyInv_resetWith s.cfg h.1).of_frame rfl rfl rfl id ⟨[], rfl, by simp⟩

/-- Settles O58: `DutyInv` is kept by every part of a step and holds after a reset. -/
theorem stepKeepsTheDutyAttainable : Obligations.StepKeepsTheDutyAttainable :=
  fun _ _ h hs => partsKeep_dutyInv.step h (fun _ => hs.warmReset) hs

end Sys2Proof.Machine

/-! SUPPORT. Who writes `prev_duty`, and the frames of DIAG and of ANGLE: each unit's part of the state is
named, and no move of the other unit touches it. -/

namespace Sys2Proof.Machine

/-! ### The history tells who wrote prev_duty -/

/-- From `s` to `t` the history has grown, and `prev_duty` stands unless a counter reset has joined it. -/
def PulseTells (s t : State) : Prop :=
  ∃ new, t.trace = s.trace ++ new ∧
    (.pwm .counterReset ∉ new → t.blk.prevDuty = s.blk.prevDuty)

theorem PulseTells.refl (s : State) : PulseTells s s := ⟨[], by simp, fun _ => rfl⟩

theorem PulseTells.trans {s t u : State} (h : PulseTells s t) (g : PulseTells t u) :
    PulseTells s u := by
  obtain ⟨new, ht, hv⟩ := h
  obtain ⟨more, hu, gv⟩ := g
  refine ⟨new ++ more, by rw [hu, ht, List.append_assoc], fun hn => ?_⟩
  rw [List.mem_append, not_or] at hn
  exact (gv hn.2).trans (hv hn.1)

/-- `prev_duty` and the history stand. -/
theorem PulseTells.of_eq {s t : State} (ht : t.trace = s.trace)
    (hv : t.blk.prevDuty = s.blk.prevDuty) : PulseTells s t := ⟨[], by simp [ht], fun _ => hv⟩

/-- The comparator pulses the counter reset when it adopts (spec/41_angle_to_duty.md rules R95, R96). -/
theorem pulseTells_converted (s : State) : PulseTells s (converted s) := by
  refine ⟨_, converted_trace s, fun hn => ?_⟩
  rw [converted_prevDuty]
  split
  · rename_i ha; simp [ha] at hn
  · rfl

theorem PhaseMove.pulseTells {s t : State} (h : PhaseMove s t) : PulseTells s t := by
  by_cases hp : s.blk.phase = .aConvert
  · rcases h.eq_converted hp with rfl | rfl
    · exact pulseTells_converted s
    · exact .refl _
  · obtain ⟨hprev, -, -⟩ := h.duties hp
    obtain ⟨new, htrace, -⟩ := h.trace_grows
    exact ⟨new, htrace, fun _ => hprev⟩

theorem partsKeep_pulseTells (s0 : State) : PartsKeep (PulseTells s0) where
  world s h := h.trans (.of_eq (by simp) (by simp))
  env _ _ h := h.trans (.of_eq rfl rfl)
  output _ _ _ h := h.trans ⟨[_], rfl, fun _ => rfl⟩
  offer _ _ _ h := h.trans (.of_eq rfl rfl)
  collect _ h := h.trans (.of_eq rfl rfl)
  phase s h := h.trans (phaseStep_moves s).pulseTells
  read _ _ h := h.trans ⟨[_], rfl, fun _ => rfl⟩
  write _ _ _ h := h.trans ⟨[_], rfl, fun _ => rfl⟩

/-! ### The parts of the state that a unit of the block leaves alone -/

/-- The operand registers of the environment. -/
def State.operandPart (s : State) :=
  (s.env.sel, s.env.received, s.env.prompted, s.env.opAddr, s.env.opData)

/-- What ANGLE works on and DIAG does not: the converter, the PWM port but for the indicator and the
counter, and the history of the port. -/
def State.converterPart (s : State) :=
  (s.blk.prevDuty, s.blk.p, s.blk.deg, s.blk.prod, s.blk.raw, s.blk.clamped, s.blk.adopt, s.blk.duty,
    s.pwm.period, s.pwm.compare, s.pwm.mode, s.pwmActions)

/-- What DIAG works on and ANGLE does not: memory, its transactions, and the walker. -/
def State.walkerPart (s : State) :=
  (s.mem, s.txns, s.blk.ri, s.blk.addr, s.blk.rd, s.blk.failed, s.blk.fail0, s.blk.fail1,
    s.blk.failAddr0, s.blk.failAddr1)

section
variable {s t : State}

/-- A block with no ANGLE stands in no phase of ANGLE and has none on offer. -/
theorem angleDue_eq_false_iff : s.angleDue = false ↔
    s.blk.phase.converting = false ∧ (s.blk.cmdValid = true → s.blk.cmdSel ≠ selAngle) := by
  simp [State.angleDue]

theorem walkDue_eq_false_iff : s.walkDue = false ↔
    s.blk.phase.walking = false ∧ (s.blk.cmdValid = true → s.blk.cmdSel ≠ selDiag) := by
  simp [State.walkDue]

/-- Where no ANGLE is due, no move touches the converter or the PWM port, nor makes an ANGLE due. -/
theorem PhaseMove.converter_frame (h : PhaseMove s t) (ha : s.angleDue = false) :
    t.converterPart = s.converterPart ∧ t.pwm.cycleFlag = s.pwm.cycleFlag ∧ t.angleDue = false := by
  obtain ⟨hphase, hoffer⟩ := angleDue_eq_false_iff.1 ha
  rw [angleDue_eq_false_iff]
  cases h with
  | stands => exact ⟨rfl, rfl, hphase, hoffer⟩
  | takesAngle _ hv hs => exact absurd hs (hoffer hv)
  | converts hp | period hp | compare hp | mode hp | waits hp | polls hp | clears hp | echoes hp =>
    rw [hp] at hphase; cases hphase
  | check =>
    refine ⟨rfl, rfl, ?_, hoffer⟩
    simp only [State.enter_blk]; split <;> rfl
  | marks => simpa [State.converterPart, State.pwmActions, setFail_eq] using ⟨hphase, hoffer⟩
  | takesDiag | turnsAway | reportsInvalid =>
    simp [State.converterPart, State.pwmActions, PortEvent.pwmAction?, Phase.converting,
      Phase.syncing]
  | _ =>
    simpa [State.converterPart, State.pwmActions, PortEvent.pwmAction?, Phase.converting,
      Phase.syncing, setFail_eq, setFailAddr_eq] using hoffer

theorem converted_cmdSel (s : State) : (converted s).blk.cmdSel = s.blk.cmdSel := by
  unfold converted; split <;> rfl

theorem converted_walkerPart (s : State) : (converted s).walkerPart = s.walkerPart := by
  simp only [State.walkerPart, converted_txns, converted_mem]
  unfold converted; split <;> rfl

/-- Where no walk is due, no move touches memory or the walker, nor makes a walk due. -/
theorem PhaseMove.walker_frame (h : PhaseMove s t) (hw : s.walkDue = false) :
    t.walkerPart = s.walkerPart ∧ t.walkDue = false := by
  obtain ⟨hphase, hoffer⟩ := walkDue_eq_false_iff.1 hw
  rw [walkDue_eq_false_iff]
  cases h with
  | stands => exact ⟨rfl, hphase, hoffer⟩
  | takesDiag _ hv hs => exact absurd hs (hoffer hv)
  | bounds hp | check hp | write hp | read hp | advances hp | fails hp | marks hp | nextRange hp
  | endsWalk hp => rw [hp] at hphase; cases hphase
  | converts =>
    refine ⟨converted_walkerPart s, by rw [converted_phase]; rfl, ?_⟩
    rw [converted_cmdValid, converted_cmdSel]; exact hoffer
  | waits => simpa [State.walkerPart, State.txns, PortEvent.txn?] using ⟨hphase, hoffer⟩
  | takesAngle | turnsAway | reportsInvalid =>
    simp [State.walkerPart, State.txns, PortEvent.txn?, Phase.walking]
  | _ => simpa [State.walkerPart, State.txns, PortEvent.txn?, Phase.walking] using hoffer

/-! ### What a run of the block leaves alone -/

theorem worldTurn_operandPart (s : State) : (worldTurn s).operandPart = s.operandPart := by
  simp [State.operandPart]

theorem worldTurn_converterPart (s : State) : (worldTurn s).converterPart = s.converterPart := by
  simp [State.converterPart, State.pwmActions]

theorem worldTurn_walkerPart (s : State) : (worldTurn s).walkerPart = s.walkerPart := by
  simp [State.walkerPart, State.txns]

/-- The return to the menu moves the interpreter and takes `done` back (log 34): a part that shows neither
stands. -/
theorem collectDone_part {α : Type} (part : State → α) (s : State)
    (h : part ((s.setBlk { s.blk with done := false }).setEnv
      { s.env with interp := .showMenu, stage := .operands }) = part s) :
    part (collectDone s) = part s := by
  unfold collectDone
  split
  · exact h
  · rfl

theorem runBlock_cfg (h : runBlock s = .next t) : t.cfg = s.cfg :=
  (partsKeep_cfg s.cfg).runBlock h rfl

/-- The block touches no operand register of the environment. -/
theorem runBlock_operandPart (h : runBlock s = .next t) : t.operandPart = s.operandPart := by
  refine runBlock_keeps (Q := fun u => u.operandPart = s.operandPart) (fun u hu => ?_)
    (fun u v hm hu => ?_) (fun u hu => ?_) h rfl
  · rw [worldTurn_operandPart, hu]
  · rw [← hu, State.operandPart, hm.env_eq, State.operandPart]
  · rw [← hu]; exact collectDone_part State.operandPart u rfl

/-- From `s` to `u` no ANGLE has been due, and the converter and the PWM port stand. -/
def ConverterStands (s u : State) : Prop :=
  u.angleDue = false ∧ u.converterPart = s.converterPart ∧
    (s.pwm.cycleFlag = true → u.pwm.cycleFlag = true)

theorem runBlock_converterStands (h : runBlock s = .next t) (ha : s.angleDue = false) :
    ConverterStands s t := by
  refine runBlock_keeps (Q := ConverterStands s) (fun u hu => ?_) (fun u v hm hu => ?_)
    (fun u hu => ?_) h ⟨ha, rfl, id⟩ <;> obtain ⟨hdue, hpart, hflag⟩ := hu
  · exact ⟨by simpa [State.angleDue] using hdue, (worldTurn_converterPart u).trans hpart,
      fun hf => worldTurn_flag (hflag hf)⟩
  · obtain ⟨epart, eflag, edue⟩ := hm.converter_frame hdue
    exact ⟨edue, epart.trans hpart, fun hf => eflag.trans (hflag hf)⟩
  · exact ⟨(collectDone_part State.angleDue u rfl).trans hdue,
      (collectDone_part State.converterPart u rfl).trans hpart,
      fun hf => (collectDone_part (·.pwm.cycleFlag) u rfl).trans (hflag hf)⟩

/-- From `s` to `u` no walk has been due, and memory and the walker stand. -/
def WalkerStands (s u : State) : Prop := u.walkDue = false ∧ u.walkerPart = s.walkerPart

theorem runBlock_walkerStands (h : runBlock s = .next t) (hw : s.walkDue = false) :
    WalkerStands s t := by
  refine runBlock_keeps (Q := WalkerStands s) (fun u hu => ?_) (fun u v hm hu => ?_)
    (fun u hu => ?_) h ⟨hw, rfl⟩ <;> obtain ⟨hdue, hpart⟩ := hu
  · exact ⟨by simpa [State.walkDue] using hdue, (worldTurn_walkerPart u).trans hpart⟩
  · obtain ⟨epart, edue⟩ := hm.walker_frame hdue
    exact ⟨edue, epart.trans hpart⟩
  · exact ⟨(collectDone_part State.walkDue u rfl).trans hdue,
      (collectDone_part State.walkerPart u rfl).trans hpart⟩

/-! ### Every byte outside the walked locations -/

/-- Every move keeps the walk pointer in its range (spec/20_memory.md rules R34, R35). -/
theorem PhaseMove.walkInv (h : PhaseMove s t) (hs : WalkInv s) : WalkInv t := by
  intro hl hok
  rw [h.cfg_eq] at hok
  have hr := range_ok hok s.blk.ri
  cases h with
  | stands => exact hs hl hok
  | marks hp => simp [setFail_eq, hp, Phase.inLoop] at hl
  | waits hp => simp [hp, Phase.inLoop] at hl
  | converts => rw [converted_phase] at hl; cases hl
  | bounds =>
    refine ⟨Nat.le_refl _, by simp [State.walkRange], ?_, fun hb => nomatch hb⟩
    show (s.cfg.range s.blk.ri).start.toNat ≤ (s.cfg.range s.blk.ri).stop.toNat + 2
    omega
  | check hp =>
    obtain ⟨hlo, heven, hhi, -⟩ := hs (by rw [hp]; rfl) hok
    refine ⟨hlo, heven, hhi, fun hb => ?_⟩
    simp only [State.enter_blk] at hb
    split at hb
    · rename_i hle; exact hle
    · cases hb
  | write hp | read hp =>
    obtain ⟨hlo, heven, hhi, hin⟩ := hs (by rw [hp]; rfl) hok
    exact ⟨hlo, heven, hhi, fun _ => hin (by rw [hp]; rfl)⟩
  | advances hp =>
    obtain ⟨hlo, heven, hhi, hin⟩ := hs (by rw [hp]; rfl) hok
    have hin := hin (by rw [hp]; rfl)
    have e : (s.blk.addr + 2#16).toNat = s.blk.addr.toNat + 2 := by
      rw [State.walkRange] at hin
      simp only [BitVec.toNat_add, BitVec.toNat_ofNat]
      omega
    simp only [State.walkRange] at hlo heven hin
    simp [State.walkRange, Phase.inBody, e]
    omega
  | _ => cases hl

/-- A location between the start of a range and its last byte is one of the walked locations. -/
theorem walked_of_mem_range (c : Config) (i : Fin 2) {x : Nat} (hlo : (c.range i).start.toNat ≤ x)
    (hhi : x ≤ (c.range i).last + 1) : c.walked x = true := by
  have h : (c.range i).touches x = true := decide_eq_true ⟨hlo, hhi⟩
  unfold Config.range at h
  split at h <;> simp [Config.walked, h]

/-- Both bytes of the unit that `D_WRITE` stores lie in the walked locations (rule R35). -/
theorem walked_of_walkInv (hs : WalkInv s) (hp : s.blk.phase = .dWrite)
    (hok : s.cfg.rangesOk = true) :
    s.cfg.walked s.blk.addr.toNat = true ∧ s.cfg.walked (s.blk.addr + 1#16).toNat = true := by
  obtain ⟨hlo, heven, -, hin⟩ := hs (by rw [hp]; rfl) hok
  have hin := hin (by rw [hp]; rfl)
  have hr := range_ok hok s.blk.ri
  simp only [State.walkRange] at hlo heven hin
  have e : (s.blk.addr + 1#16).toNat = s.blk.addr.toNat + 1 := by
    simp only [BitVec.toNat_add, BitVec.toNat_ofNat]
    omega
  have hlast : s.blk.addr.toNat ≤ (s.cfg.range s.blk.ri).last := by unfold Range.last; omega
  rw [e]
  exact ⟨walked_of_mem_range s.cfg s.blk.ri hlo (by omega),
    walked_of_mem_range s.cfg s.blk.ri (by omega) (by omega)⟩

/-- From `s` to `u` the stuck-at faults and every byte outside the walked locations stand. -/
def UnwalkedStands (s u : State) : Prop :=
  u.mem.stuck = s.mem.stuck ∧
    ∀ x, s.cfg.walked x = false → u.mem.storedByte x = s.mem.storedByte x

/-- A move of a walk in its ranges stores in the walked locations only (rules R35, R80). -/
theorem PhaseMove.unwalked (h : PhaseMove s t) (hok : s.cfg.rangesOk = true) (hi : WalkInv s)
    (hwf : s.mem.wf = true) : UnwalkedStands s t := by
  rcases h.mem_cases with e | ⟨hp, e⟩ | e
  · exact ⟨by rw [e], fun x _ => by rw [e]⟩
  · obtain ⟨h0, h1⟩ := walked_of_walkInv hi hp hok
    refine ⟨by rw [e]; rfl, fun x hx => ?_⟩
    rw [e, Memory.storedByte_storeUnit _ _ _ _ _ hwf, if_neg, if_neg]
    · rintro rfl; rw [h0] at hx; cases hx
    · rintro rfl; rw [h1] at hx; cases hx
  · exact ⟨by rw [e]; rfl, fun x _ => by rw [e]; rfl⟩

/-- What a run of the block on well-formed ranges keeps of a walk that began at `s`. -/
def WalkStaysInside (s u : State) : Prop :=
  u.cfg = s.cfg ∧ WalkInv u ∧ u.mem.wf = true ∧ UnwalkedStands s u

theorem runBlock_unwalkedStands (h : runBlock s = .next t) (hok : s.cfg.rangesOk = true)
    (hi : WalkInv s) (hwf : s.mem.wf = true) : UnwalkedStands s t := by
  suffices WalkStaysInside s t by
    obtain ⟨-, -, -, hstands⟩ := this
    exact hstands
  refine runBlock_keeps (fun u hu => ?_) (fun u v hm hu => ?_) (fun u hu => ?_) h
    ⟨rfl, hi, hwf, rfl, fun _ _ => rfl⟩ <;> obtain ⟨hc, hinv, hmem, hstuck, hbytes⟩ := hu
  · exact ⟨by simp [hc], by simpa [WalkInv, State.walkRange] using hinv, by simpa using hmem,
      by simpa using hstuck, by simpa using hbytes⟩
  · obtain ⟨estuck, ebytes⟩ := hm.unwalked (by rwa [hc]) hinv hmem
    exact ⟨hm.cfg_eq.trans hc, hm.walkInv hinv, hm.wf hmem, estuck.trans hstuck,
      fun x hx => (ebytes x (by rwa [hc])).trans (hbytes x hx)⟩
  · exact (collectDone_part (WalkStaysInside s) u rfl).mpr ⟨hc, hinv, hmem, hstuck, hbytes⟩

end

/-! ### Commands from rest and steps that go on -/

section
variable {s t : State}

/-- PEEK, POKE and EXIT touch no register of the block. -/
theorem exec_handler_blk {i : Instr} (hd : i ≠ .diag) (ha : ∀ l, i ≠ .angle l)
    (h : exec i s = .next t) : t.blk = s.blk := by
  cases i with
  | diag => exact absurd rfl hd
  | angle l => exact absurd rfl (ha l)
  | peek l =>
    simp only [exec, execPeek] at h
    split at h
    · cases h
    · split at h
      · cases h
      · cases h; exact (answer_keeps _ _).1
  | poke la ld =>
    simp only [exec, execPoke] at h
    split at h <;> cases h <;> exact (answer_keeps _ _).1
  | exit => cases h; rfl

/-- No phase is both DIAG's and ANGLE's. -/
theorem converting_eq_false_of_walking {p : Phase} (h : p.walking = true) :
    p.converting = false := by
  cases p with
  | dBounds | dCheck | dWrite | dRead | dCmp | dVerdict => rfl
  | _ => cases h

/-- `u` is `s` with a command running, or `s` with a command just presented. -/
def RunsFrom (s u : State) : Prop := u = s ∨ ∃ sel arg, u = present sel arg s

/-- A part of the state that shows nothing of what `present` writes is the same at the start of the run. -/
theorem RunsFrom.part_eq {α : Type} {s u : State} (h : RunsFrom s u) (part : State → α)
    (hp : ∀ sel arg, part (present sel arg s) = part s) : part u = part s := by
  obtain rfl | ⟨sel, arg, rfl⟩ := h
  · rfl
  · exact hp sel arg

/-- DIAG from rest, and a step in which a DIAG that waited goes on, is a run of the block with a walk due
and no ANGLE. -/
theorem diag_runs (h : (s.atRest ∧ exec .diag s = .next t) ∨
    (resetNext s = false ∧ SessionInv s ∧ s.walkDue = true ∧ step s = .next t)) :
    ∃ u, RunsFrom s u ∧ runBlock u = .next t ∧ u.walkDue = true ∧ u.angleDue = false := by
  rcases h with ⟨⟨hp, -, -⟩, h⟩ | ⟨hr, hi, hw, h⟩
  · refine ⟨_, .inr ⟨selDiag, s.blk.cmdArg, rfl⟩, h, by simp [State.walkDue, present], ?_⟩
    refine angleDue_eq_false_iff.2 ⟨?_, fun _ => ?_⟩
    · simp [present, hp, Phase.converting, Phase.syncing]
    · simp [present]; decide
  · obtain ⟨hrun, hdue⟩ := step_of_walkDue hr hi hw h
    refine ⟨s, .inl rfl, hrun, hw, angleDue_eq_false_iff.2 ?_⟩
    rcases hdue with ⟨hwalk, hv⟩ | ⟨hp, -, hs⟩
    · exact ⟨converting_eq_false_of_walking hwalk, by simp [hv]⟩
    · exact ⟨by rw [hp]; rfl, fun _ => by rw [hs]; decide⟩

/-- ANGLE from rest, and a step in which an ANGLE that waited goes on, is a run of the block with no walk
due. -/
theorem angle_runs {l : Line} (h : (s.atRest ∧ exec (.angle l) s = .next t) ∨
    (resetNext s = false ∧ SessionInv s ∧ s.angleDue = true ∧ step s = .next t)) :
    ∃ u, RunsFrom s u ∧ runBlock u = .next t ∧ u.walkDue = false := by
  rcases h with ⟨⟨hp, -, -⟩, h⟩ | ⟨hr, hi, ha, h⟩
  · refine ⟨_, .inr ⟨selAngle, foldLine l, rfl⟩, h, walkDue_eq_false_iff.2 ?_⟩
    refine ⟨?_, fun _ => ?_⟩
    · simp [present, hp, Phase.walking]
    · simp [present]; decide
  · obtain ⟨hrun, -, -, -, hdue⟩ := step_of_angleDue hr hi ha h
    refine ⟨s, .inl rfl, hrun, walkDue_eq_false_iff.2 ?_⟩
    rcases hdue with ⟨hconv, hv⟩ | ⟨hp, -, hs⟩
    · refine ⟨Bool.eq_false_iff.2 fun hw => ?_, by simp [hv]⟩
      rw [converting_eq_false_of_walking hw] at hconv; cases hconv
    · exact ⟨by rw [hp]; rfl, fun _ => by rw [hs]; decide⟩

/-- A run with no ANGLE due leaves the converter and the PWM port as they were. -/
theorem RunsFrom.converterPart_eq {u : State} (hu : RunsFrom s u) (h : runBlock u = .next t)
    (ha : u.angleDue = false) : t.converterPart = s.converterPart := by
  obtain ⟨-, hpart, -⟩ := runBlock_converterStands h ha
  exact hpart.trans (hu.part_eq State.converterPart fun _ _ => rfl)

end

/-- Settles O53: a DIAG leaves the converter's part, the handlers leave the block, and over any step a
changed `prev_duty` shows in the history. -/
theorem onlyAngleWritesPrevDuty : Obligations.OnlyAngleWritesPrevDuty := by
  refine ⟨fun i s t hi hs h => ?_, fun s t hr hi hw h => ?_, fun s t hr h => ?_⟩
  · by_cases hd : i = .diag
    · subst hd
      obtain ⟨u, hu, hrun, -, ha⟩ := diag_runs (.inl ⟨hs, h⟩)
      exact congrArg Prod.fst (hu.converterPart_eq hrun ha)
    · rw [exec_handler_blk hd hi h]
  · obtain ⟨u, hu, hrun, -, ha⟩ := diag_runs (.inr ⟨hr, hi, hw, h⟩)
    have hpart := hu.converterPart_eq hrun ha
    simp only [State.converterPart, Prod.mk.injEq] at hpart
    simp only [hpart, and_self]
  · exact (partsKeep_pulseTells s).step h (fun hr' => by rw [hr] at hr'; cases hr') (.refl s)

/-- Settles O29: DIAG is a run of the block with no ANGLE due, whose moves leave the converter's part and
the operand registers alone and store inside the walked locations only. -/
theorem diagFrame : Obligations.DiagFrame := by
  intro s t hwf h
  have hinv : WalkInv s := by
    rcases h with ⟨⟨hp, -⟩, -⟩ | ⟨-, -, hi, -⟩
    · intro hl; rw [hp] at hl; cases hl
    · exact hi
  obtain ⟨u, hu, hrun, hw, ha⟩ := diag_runs (s := s) (t := t)
    (h.imp_right fun ⟨hr, hi, _, hw, h⟩ => ⟨hr, hi, hw, h⟩)
  have hcfg : u.cfg = s.cfg := hu.part_eq State.cfg fun _ _ => rfl
  have hmem : u.mem = s.mem := hu.part_eq State.mem fun _ _ => rfl
  have hconv := hu.converterPart_eq hrun ha
  have hoperand := (runBlock_operandPart hrun).trans (hu.part_eq State.operandPart fun _ _ => rfl)
  obtain ⟨hok, -⟩ := runBlock_next hrun
  have hflag : s.pwm.cycleFlag = true → t.pwm.cycleFlag = true := by
    obtain ⟨-, -, hf⟩ := runBlock_converterStands hrun ha
    exact fun h => hf ((hu.part_eq (·.pwm.cycleFlag) fun _ _ => rfl).trans h)
  obtain ⟨hstuck, hbytes⟩ := runBlock_unwalkedStands hrun (hok hw)
    ((hu.part_eq WalkInv fun _ _ => rfl).mpr hinv) (by rwa [hmem])
  rw [hmem] at hstuck
  have hanswered : ∀ x, s.cfg.walked x = false → t.mem.byteAnswered x = s.mem.byteAnswered x := by
    intro x hx
    rw [Memory.byteAnswered, hstuck, hbytes x (by rwa [hcfg]), hmem, Memory.byteAnswered]
  simp only [State.converterPart, State.operandPart, Prod.mk.injEq] at hconv hoperand
  simp only [hconv, hoperand, (runBlock_cfg hrun).trans hcfg, hstuck, true_and]
  exact ⟨hflag, hanswered⟩

/-- Settles O21: ANGLE is a run of the block with no walk due, whose moves leave memory, the walker and the
operand registers alone. -/
theorem angleFrame : Obligations.AngleFrame := by
  intro l s t h
  obtain ⟨u, hu, hrun, hw⟩ := angle_runs h
  obtain ⟨-, hpart⟩ := runBlock_walkerStands hrun hw
  have hwalker := hpart.trans (hu.part_eq State.walkerPart fun _ _ => rfl)
  have hoperand := (runBlock_operandPart hrun).trans (hu.part_eq State.operandPart fun _ _ => rfl)
  have hcfg := (runBlock_cfg hrun).trans (hu.part_eq State.cfg fun _ _ => rfl)
  simp only [State.walkerPart, State.operandPart, Prod.mk.injEq] at hwalker hoperand
  simp only [hwalker, hoperand, hcfg, and_self, implies_true]

end Sys2Proof.Machine

/-! SUPPORT. The memory rules of spec/20_memory.md: the bytes of a unit, a read that is answered from the
cells, and which range configurations are well-formed. -/

namespace Sys2Proof.Machine

/-! ### The bytes of a unit -/

/-- The second location of a unit wraps at the top of memory (rule R31). -/
theorem toNat_word_add_one (a : Word) : (a + 1#16).toNat = (a.toNat + 1) % 65536 := by
  rw [BitVec.toNat_add]; rfl

/-- The less significant byte of a unit. -/
theorem extract_low (v : Word) : v.extractLsb' 0 8 = BitVec.ofNat 8 (v.toNat % 256) := by
  apply BitVec.eq_of_toNat_eq
  simp [BitVec.extractLsb'_toNat]

/-- The more significant byte of a unit. -/
theorem extract_high (v : Word) : v.extractLsb' 8 8 = BitVec.ofNat 8 (v.toNat / 256) := by
  apply BitVec.eq_of_toNat_eq
  simp [BitVec.extractLsb'_toNat, Nat.shiftRight_eq_div_pow]

/-- The value of two bytes put together, the more significant first. -/
theorem toNat_append_bytes (high low : Byte) :
    (high ++ low).toNat = high.toNat * 256 + low.toNat := by
  rw [BitVec.toNat_append, ← Nat.shiftLeft_add_eq_or_of_lt low.isLt, Nat.shiftLeft_eq]

/-! ### What a location answers -/

/-- Without a stuck-at fault a location answers the byte it stores (rule R45). -/
theorem Memory.byteAnswered_of_noStuck {m : Memory} (h : m.stuck = []) (x : Nat) :
    m.byteAnswered x = m.storedByte x := by
  rw [Memory.byteAnswered, h, applyStuck_nil]

/-- A fault-free memory answers a 2-byte read with the two bytes it stores. -/
theorem Memory.answer2_of_faultFree {m : Memory} (h : m.FaultFree) (o : ByteOrder) (a : Word) :
    m.answer2 o a = joinUnit o (m.storedByte a.toNat) (m.storedByte (a + 1#16).toNat) := by
  obtain ⟨hstuck, hanswers⟩ := h
  rw [Memory.answer2_of_none m o a hanswers, Memory.unitAnswered,
    Memory.byteAnswered_of_noStuck hstuck, Memory.byteAnswered_of_noStuck hstuck]

/-- Settles O41: `storeUnit` stores the two bytes of the unit and `storeByte` the one. -/
theorem writesPlaceTheirBytes : Obligations.WritesPlaceTheirBytes := by
  intro s a v b x hwf
  constructor
  · rw [memWrite2_mem, Memory.storedByte_storeUnit _ _ _ _ _ hwf, toNat_word_add_one]
    cases s.cfg.byteOrder <;> simp only [upperByte, lowerByte, extract_low, extract_high]
  · rw [memWrite1_mem, Memory.storedByte_storeByte _ _ _ _ hwf]

/-- Settles O43: a fault-free memory answers the two bytes just stored, and joined they are the unit. -/
theorem readAfterWrite : Obligations.ReadAfterWrite := by
  intro s a v b hwf hfree
  constructor
  · have hfree' : (s.mem.storeUnit s.cfg.byteOrder a v).FaultFree := hfree
    rw [memValue2, memWrite2_cfg, memWrite2_mem, Memory.answer2_of_faultFree hfree',
      Memory.storedByte_storeUnit _ _ _ _ _ hwf, Memory.storedByte_storeUnit _ _ _ _ _ hwf,
      if_neg (word_add_one_ne a).symm, if_pos rfl, if_pos rfl, joinUnit_bytes]
  · obtain ⟨hstuck, hanswers⟩ : (s.mem.storeByte a.toNat b).FaultFree := hfree
    rw [memValue1, memWrite1_mem, Memory.answer1_of_none _ _ hanswers,
      Memory.byteAnswered_of_noStuck hstuck, Memory.storedByte_storeByte _ _ _ _ hwf, if_pos rfl]

/-- Settles O42: with no scripted answer the cells answer, and the byte order says which byte is the
high one. -/
theorem readsAssembleTheBytes : Obligations.ReadsAssembleTheBytes := by
  intro s a hanswers
  refine ⟨?_, Memory.answer1_of_none _ _ hanswers, fun h x => Memory.byteAnswered_of_noStuck h x⟩
  rw [memValue2, Memory.answer2_of_none _ _ _ hanswers, Memory.unitAnswered, toNat_word_add_one]
  cases s.cfg.byteOrder <;> simp only [joinUnit, toNat_append_bytes]

/-- Settles O44: the one fault acts at its own location only, and a read takes the first entry of the
script. -/
theorem faultyMemoryAnswers : Obligations.FaultyMemoryAnswers := by
  refine ⟨fun m f x h => ?_, fun s a v rest h => ⟨?_, ?_⟩⟩
  · rw [Memory.byteAnswered, h]
    by_cases hx : x = f.loc.toNat
    · simp [applyStuck, StuckAt.apply, hx]
    · simp [applyStuck, hx, Ne.symm hx]
  · rw [memValue2, Memory.answer2, h]
  · rw [memRead2_mem, Memory.answers_afterRead, h]; rfl

/-! ### The pointer of the walk -/

theorem partsKeep_walkInv : PartsKeep WalkInv where
  world s h := by simpa [WalkInv, State.walkRange] using h
  env _ _ h := h
  output _ _ _ h := h
  offer _ _ _ h := h
  collect _ h := h
  phase s h := (phaseStep_moves s).walkInv h
  read _ _ h := h
  write _ _ _ h := h

/-- Settles O57: every move of a phase keeps the pointer in its range, no other part of a step touches it,
and a reset ends the walk. -/
theorem stepKeepsTheWalkInRange : Obligations.StepKeepsTheWalkInRange :=
  fun _ _ h hs => partsKeep_walkInv.step h (fun _ hl => nomatch hl) hs

/-! ### Which range configurations DIAG has a meaning for -/

/-- The locations a walk of one range touches (rule R35). -/
theorem touches_iff (r : Range) (x : Nat) :
    r.touches x = true ↔ r.start.toNat ≤ x ∧ x ≤ r.last + 1 := decide_eq_true_iff

/-- What rule R36 (c) asks of two ranges: no location is touched by both walks. -/
theorem touches_disjoint_iff {r0 r1 : Range} :
    (r0.last + 1 < r1.start.toNat ∨ r1.last + 1 < r0.start.toNat) ↔
      ∀ x, ¬ (r0.touches x = true ∧ r1.touches x = true) := by
  simp only [touches_iff, Range.last]
  refine ⟨fun h x => by omega, fun h => ?_⟩
  have hmax := h (max r0.start.toNat r1.start.toNat)
  omega

/-- The well-formed configurations, as rule R36 (a) to (c) says it. -/
theorem rangesOk_iff (c : Config) : c.rangesOk = true ↔
    (c.range0.start.toNat ≤ c.range0.stop.toNat ∧ c.range0.stop.toNat ≤ 0xFFFD) ∧
    (c.range1.start.toNat ≤ c.range1.stop.toNat ∧ c.range1.stop.toNat ≤ 0xFFFD) ∧
    ∀ x, ¬ (c.range0.touches x = true ∧ c.range1.touches x = true) := by
  rw [← touches_disjoint_iff]
  simp [Config.rangesOk, Range.ok, and_assoc]

/-- DIAG is refused on ill-formed ranges and runs the block on all others. -/
theorem exec_diag_eq (s : State) : exec .diag s =
    if s.cfg.rangesOk then .next (collectDone (seqRun seqFuel (present selDiag s.blk.cmdArg s)))
    else .refused .illFormedRanges := by
  cases h : s.cfg.rangesOk <;> simp [exec, execDiag, runBlock, State.walkDue, present, h]

theorem exec_diag_refused_iff (s : State) :
    exec .diag s = .refused .illFormedRanges ↔ s.cfg.rangesOk = false := by
  rw [exec_diag_eq]
  cases s.cfg.rangesOk <;> simp

/-- Settles O30: DIAG is refused when `rangesOk` fails, which is when a part of rule R36 does. -/
theorem illFormedRangesRefused : Obligations.IllFormedRangesRefused := by
  intro s
  rw [exec_diag_refused_iff, ← Bool.not_eq_true, rangesOk_iff]
  constructor
  · rintro (h | h | h | h | ⟨x, hx⟩) ⟨hr0, hr1, hdisjoint⟩
    iterate 4 · omega
    · exact hdisjoint x hx
  · intro h
    by_contra hnone
    simp only [not_or, not_exists, Nat.not_lt] at hnone
    obtain ⟨hle0, hle1, htop0, htop1, hdisjoint⟩ := hnone
    exact h ⟨⟨hle0, htop0⟩, ⟨hle1, htop1⟩, hdisjoint⟩

/-! ### Where a command can stop -/

/-- A run of the block with no walk due is never refused. -/
theorem runBlock_of_noWalk {s : State} (h : s.walkDue = false) :
    runBlock s = .next (collectDone (seqRun seqFuel s)) := by
  simp [runBlock, h]

/-- ANGLE presented to a block at rest makes no walk due. -/
theorem walkDue_present_angle {s : State} (hs : s.atRest) (arg : Word) :
    (present selAngle arg s).walkDue = false := by
  obtain ⟨hphase, -, -⟩ := hs
  refine walkDue_eq_false_iff.2 ⟨?_, fun _ => (by decide : selAngle ≠ selDiag)⟩
  simp [present, hphase, Phase.walking]

/-- Settles O36: each command's meaning stops on its own named condition only. -/
theorem commandsStopOnlyWhereNamed : Obligations.CommandsStopOnlyWhereNamed := by
  intro i s hs
  cases i with
  | diag =>
    cases hok : s.cfg.rangesOk with
    | true => exact .inl ⟨_, by rw [exec_diag_eq, if_pos hok]⟩
    | false => exact .inr (.inl ⟨rfl, rfl, (exec_diag_refused_iff s).2 hok⟩)
  | peek l =>
    by_cases hunmapped : s.cfg.isUnmapped (foldLine l) = true
    · exact .inr (.inr ⟨l, rfl, .inl ⟨hunmapped, if_pos hunmapped⟩⟩)
    · by_cases heffect : s.cfg.readHasSideEffect (foldLine l) = true
      · exact .inr (.inr ⟨l, rfl, .inr ⟨Bool.eq_false_iff.2 hunmapped, heffect,
          (if_neg hunmapped).trans (if_pos heffect)⟩⟩)
      · exact .inl ⟨_, (if_neg hunmapped).trans (if_neg heffect)⟩
  | poke la ld =>
    by_cases hallowed : s.cfg.pokeAllowed (foldPokeAddress s.cfg.pokeAddrBits la) = true
    · exact .inl ⟨_, if_pos hallowed⟩
    · exact .inl ⟨_, if_neg hallowed⟩
  | angle l => exact .inl ⟨_, runBlock_of_noWalk (walkDue_present_angle hs _)⟩
  | exit => exact .inl ⟨_, rfl⟩

end Sys2Proof.Machine

/-! SUPPORT. A whole DIAG from rest: the run of the block is the pseudocode of spec/40_memory_walker.md rule
R72, so its transactions, bytes, marks and reports are those of `RangeOut`, range 0 before range 1. -/

namespace Sys2Proof.Machine

/-! ### The verdict of a range, and the phases from one range to the next -/

/-- What `D_VERDICT` does while the host accepts, before it goes on: mark, then report (rule R78). -/
def marked (s : State) : State :=
  record (.out s.verdict) (s.setBlk (s.blk.setFail s.blk.ri s.blk.failed))

/-- From `D_VERDICT` the block goes on to range 1 after range 0, and else is done (rule R78). -/
def afterVerdict (i : Fin 2) (s : State) : State :=
  if i = 0 then s.setBlk { s.blk with ri := 1, phase := .dBounds } else s.finish

theorem phaseStep_dVerdict_of_accepts {s : State} (hp : s.blk.phase = .dVerdict) (hr : s.room = none) :
    phaseStep s = .go (afterVerdict s.blk.ri (marked s)) := by
  have hr' : (s.setBlk (s.blk.setFail s.blk.ri s.blk.failed)).room = none := hr
  rw [phaseStep_dVerdict hp, dVerdict, reportThen_of_accepts hr']
  simp [afterVerdict, marked, State.verdict, setFail_eq, State.walkRange]

/-- Marking and reporting keep the correspondence with the pseudocode. -/
theorem WalkSim.marked {s u v : State} (h : WalkSim s .dVerdict u v) :
    WalkSim s .dVerdict (marked u) (marked v) where
  __ := h
  vb := by simpa [Machine.marked, setFail_eq] using h.vb
  trace := by simp [Machine.marked, State.verdict, State.walkRange, h.trace, h.blk, h.cfg]
  blk := by simp [Machine.marked, setFail_eq, h.blk]

/-- A block at `D_BOUNDS` runs the body of rule R72's `for` loop, within the bound of rule R83. -/
theorem range_run {s : State} {i : Fin 2} (hok : (s.cfg.range i).ok = true) {u v : State}
    (h : WalkSim s .dBounds u { v with blk := { v.blk with ri := i } }) :
    ∃ k u', k ≤ 4 * (s.cfg.range i).units + 3 ∧ WalkSim s .dVerdict u' (pseudoRange i v) ∧
      ∀ m, seqRun (m + k) u = seqRun m (afterVerdict i u') := by
  obtain ⟨k, u', hk, hrun, w, hp, hsim, hri, hw⟩ := range_sim s i hok u v h
  have hturn := hsim.world
  have hstep : phaseStep (worldTurn u') = .go (afterVerdict i (marked (worldTurn u'))) := by
    rw [phaseStep_dVerdict_of_accepts hturn.phase hturn.room, hturn.blk, hri]
  have hpseudo : pseudoRange i v = marked w := by
    rw [hw, marked, State.verdict, State.walkRange, hsim.cfgs, hri]
  refine ⟨k + 1, marked (worldTurn u'), by omega, hpseudo ▸ hturn.marked, fun m => ?_⟩
  rw [show m + (k + 1) = m + 1 + k by omega, hrun,
    run_go (quiet_of_phase (by simp [hp])) hsim.nores hstep]

/-! ### DIAG is the pseudocode -/

/-- What a DIAG from `s` leaves in `t` when it has run the pseudocode of rule R72 to its end. -/
structure RunsPseudoDiag (s t : State) : Prop where
  exec : exec .diag s = .next t
  mem : t.mem = (pseudoDiag s).mem
  trace : t.trace = (pseudoDiag s).trace ++ [.done]
  blk : t.blk = { (pseudoDiag s).blk with cmdSel := selDiag }
  cfg : t.cfg = s.cfg
  period : t.pwm.period = s.pwm.period
  compare : t.pwm.compare = s.pwm.compare
  mode : t.pwm.mode = s.pwm.mode
  interp : t.env.interp = .showMenu
  stage : t.env.stage = .operands
  room : t.room = none
  rest : t.atRest

/-- The block has taken DIAG's offer and stands in `D_BOUNDS` of range 0 (rules R58, R72). -/
def diagTaken (s : State) : State :=
  (worldTurn (present selDiag s.blk.cmdArg s)).setBlk
    { s.blk with cmdValid := false, done := false, cmdSel := selDiag, ri := 0, phase := .dBounds }

theorem seqRun_present_diag {s : State} (hs : s.atRest) (hn : s.noReset) (m : Nat) :
    seqRun (m + 1) (present selDiag s.blk.cmdArg s) = seqRun m (diagTaken s) := by
  obtain ⟨hphase, -, -⟩ := hs
  refine run_go (quiet_of_valid rfl) hn ?_
  rw [phaseStep_idle (by simpa [present] using hphase) (by simp [present]),
    acceptCommand_diag (by simp [present])]
  simp [diagTaken, present, State.takeOffer, State.setBlk]

theorem walkSim_diagTaken {s : State} (hs : s.atRest) (hr : s.hostAccepts) (hn : s.noReset) :
    WalkSim s .dBounds (diagTaken s) { s with blk := { s.blk with ri := 0 } } := by
  obtain ⟨hphase, hvalid, hdone⟩ := hs
  exact {
    cfg := by simp [diagTaken, present]
    cfgs := rfl
    vb := ⟨hphase, hdone, hvalid⟩
    mem := by simp [diagTaken, present]
    trace := by simp [diagTaken, present]
    blk := by simp [diagTaken, hvalid, hdone]
    room := worldTurn_room (s := present selDiag s.blk.cmdArg s) hr
    nores := worldTurn_noReset (s := present selDiag s.blk.cmdArg s) hn
    period := by simp [diagTaken, present]
    compare := by simp [diagTaken, present]
    mode := by simp [diagTaken, present]
    interp := by simp [diagTaken, present]
    stage := by simp [diagTaken, present] }

/-- The whole run: the offer is taken, then range 0, then range 1, and the block is done. -/
theorem seqRun_diag {s : State} (hs : s.atRest) (hr : s.hostAccepts) (hn : s.noReset)
    (hok : s.cfg.rangesOk = true) :
    ∃ u, WalkSim s .dVerdict u (pseudoDiag s) ∧
      seqRun seqFuel (present selDiag s.blk.cmdArg s) = u.finish := by
  obtain ⟨k0, u0, hk0, hsim0, hrun0⟩ :=
    range_run (rangesOk_range hok 0) (walkSim_diagTaken hs hr hn)
  have hnext : WalkSim s .dBounds (afterVerdict 0 u0)
      { pseudoRange 0 s with blk := { (pseudoRange 0 s).blk with ri := 1 } } :=
    { hsim0 with blk := by simp [afterVerdict, hsim0.blk] }
  obtain ⟨k1, u1, hk1, hsim1, hrun1⟩ := range_run (rangesOk_range hok 1) hnext
  have hquiet : u1.finish.quiet = true := by
    simp [State.quiet, hsim1.blk, hsim1.vb]
  have hfuel : k1 + k0 + 1 ≤ seqFuel := by
    have h0 := range_ok hok 0
    have h1 := range_ok hok 1
    simp only [Range.units] at hk0 hk1
    simp only [seqFuel]
    omega
  obtain ⟨m, hm⟩ : ∃ m, seqFuel = m + k1 + k0 + 1 := ⟨seqFuel - (k1 + k0 + 1), by omega⟩
  refine ⟨u1, hsim1, ?_⟩
  calc seqRun seqFuel (present selDiag s.blk.cmdArg s)
      = seqRun (m + k1 + k0 + 1) (present selDiag s.blk.cmdArg s) := by rw [hm]
    _ = seqRun (m + k1 + k0) (diagTaken s) := seqRun_present_diag hs hn _
    _ = seqRun (m + k1) (afterVerdict 0 u0) := hrun0 _
    _ = seqRun m u1.finish := hrun1 _
    _ = u1.finish := seqRun_of_quiet hquiet

/-- DIAG on well-formed ranges runs the pseudocode of rule R72 to its end, whatever the memory answers. -/
theorem exec_diag_runs {s : State} (hs : s.atRest) (hr : s.hostAccepts) (hn : s.noReset)
    (hok : s.cfg.rangesOk = true) : ∃ t, RunsPseudoDiag s t := by
  obtain ⟨u, hsim, hrun⟩ := seqRun_diag hs hr hn hok
  obtain ⟨hphase, hdone, hvalid⟩ := hsim.vb
  have hcollect : collectDone u.finish = (u.finish.setBlk { u.finish.blk with done := false }).setEnv
      { u.finish.env with interp := .showMenu, stage := .operands } := if_pos rfl
  refine ⟨collectDone u.finish, ?_⟩
  have hexec : exec .diag s = .next (collectDone u.finish) := by rw [exec_diag_eq, if_pos hok, hrun]
  rw [hcollect] at hexec ⊢
  exact {
    exec := hexec
    mem := hsim.mem
    trace := by simp [hsim.trace]
    blk := by simp [hsim.blk, ← hphase, ← hdone]
    cfg := hsim.cfg.trans hsim.cfgs
    period := hsim.period
    compare := hsim.compare
    mode := hsim.mode
    interp := rfl
    stage := rfl
    room := hsim.room
    rest := ⟨rfl, by simp [hsim.blk, hvalid], rfl⟩ }

section
variable {s t : State}

theorem RunsPseudoDiag.reports_eq (h : RunsPseudoDiag s t) : t.reports = (pseudoDiag s).reports := by
  simp [State.reports, h.trace, PortEvent.report?]

theorem RunsPseudoDiag.txns_eq (h : RunsPseudoDiag s t) : t.txns = (pseudoDiag s).txns := by
  simp [State.txns, h.trace, PortEvent.txn?]

theorem RunsPseudoDiag.fail_eq (h : RunsPseudoDiag s t) (i : Fin 2) :
    t.blk.fail i = (pseudoDiag s).blk.fail i := by
  simp [Block.fail, h.blk]

theorem RunsPseudoDiag.failAddr_eq (h : RunsPseudoDiag s t) (i : Fin 2) :
    t.blk.failAddr i = (pseudoDiag s).blk.failAddr i := by
  simp [Block.failAddr, h.blk]

end

/-! ### What the two ranges leave -/

/-- Settles O28: each range adds the transactions of its walk, `RangeOut` bounding their number. -/
theorem diagTransactionsInOrder : Obligations.DiagTransactionsInOrder := by
  intro s hs hr hn hok
  obtain ⟨t, ht⟩ := exec_diag_runs hs hr hn hok
  obtain ⟨v0, v1, o0, o1⟩ := diag_out s hok
  refine ⟨t, v0, v1, ht.exec, ?_, o0.drop, ?_, o0.pos, o0.len, o1.pos, ?_⟩
  · rw [ht.txns_eq, o1.txns, o0.txns, o0.cfg]; rfl
  · have hdrop := o1.drop
    rwa [o0.cfg] at hdrop
  · have hlen := o1.len
    rwa [o0.cfg] at hlen

/-- With no stuck-at fault a unit that holds the sentinel reads as the sentinel. -/
theorem unitRead_noStuck (c : Config) (a : Nat) : unitRead c [] a = c.sentinel := by
  simp [unitRead]

/-- In a fault-free memory every range passes. -/
theorem range_passes {i : Fin 2} {v : State} (hok : (v.cfg.range i).ok = true) (hwf : v.mem.wf = true)
    (hfree : v.mem.FaultFree) : (pseudoRange i v).blk.fail i = false := by
  obtain ⟨hstuck, hanswers⟩ := hfree
  exact range_good i v hok hwf hanswers fun k _ => by rw [hstuck, unitRead_noStuck]

/-- Settles O25: both ranges pass, and a range that passes reports BOUNDS and RANGE_OK. -/
theorem diagPassesFaultFreeMemory : Obligations.DiagPassesFaultFreeMemory := by
  intro s hs hr hn hok hwf hfree
  obtain ⟨t, ht⟩ := exec_diag_runs hs hr hn hok
  obtain ⟨v0, v1, o0, o1⟩ := diag_out s hok
  have hpass0 : (pseudoRange 0 s).blk.fail 0 = false := range_passes (rangesOk_range hok 0) hwf hfree
  have hfree' : (pseudoRange 0 s).mem.FaultFree :=
    ⟨o0.stuck.trans hfree.1, o0.answers hfree.2⟩
  have hpass1 : (pseudoDiag s).blk.fail 1 = false :=
    range_passes (by rw [o0.cfg]; exact rangesOk_range hok 1) (o0.wf hwf) hfree'
  obtain ⟨-, hreports0⟩ := o0.pass hpass0
  obtain ⟨-, hreports1⟩ := o1.pass hpass1
  refine ⟨t, ht.exec, ?_, ?_, ?_, ht.interp⟩
  · rw [ht.reports_eq, hreports1, hreports0, o0.cfg]; rfl
  · exact (ht.fail_eq 0).trans ((o1.otherF 0 (by decide)).trans hpass0)
  · exact (ht.fail_eq 1).trans hpass1

/-- Where the written part of a range ends: after the failing unit, or after the last unit (rule R80). -/
def writtenEnd (r : Range) (failed : Bool) (failAddr : Word) : Nat :=
  if failed then failAddr.toNat + 2 else r.last + 2

/-- A walk has written the units it has read back. -/
theorem RangeOut.writtenEnd_eq {i : Fin 2} {v w : State} {vs : List Word} (o : RangeOut i v w vs) :
    writtenEnd (v.cfg.range i) (w.blk.fail i) (w.blk.failAddr i) =
      (v.cfg.range i).start.toNat + 2 * vs.length := by
  have hpos := o.pos
  cases hf : w.blk.fail i with
  | true =>
    obtain ⟨haddr, -⟩ := o.fail hf
    simp only [writtenEnd, if_true, haddr]
    omega
  | false =>
    obtain ⟨hlen, -⟩ := o.pass hf
    simp only [writtenEnd, hlen, Range.units, Range.last, Bool.false_eq_true, if_false]
    omega

/-- The location lies in one of the first `n` units of the range. -/
abbrev inUnits (r : Range) (n x : Nat) : Prop := r.start.toNat ≤ x ∧ x < r.start.toNat + 2 * n

/-- What a walk has written lies in the locations its range touches (rule R35). -/
theorem RangeOut.touches_of_inUnits {i : Fin 2} {v w : State} {vs : List Word}
    (o : RangeOut i v w vs) {x : Nat} (hx : inUnits (v.cfg.range i) vs.length x) :
    (v.cfg.range i).touches x = true := by
  have hlen := o.len
  rw [touches_iff, Range.last]
  rw [Range.units] at hlen
  omega

/-- The bytes stored after both ranges: neither walk touches what the other has written (rule R36 (c)). -/
theorem diag_storedByte {s : State} {v0 v1 : List Word} (o0 : RangeOut 0 s (pseudoRange 0 s) v0)
    (o1 : RangeOut 1 (pseudoRange 0 s) (pseudoDiag s) v1) (hok : s.cfg.rangesOk = true)
    (hwf : s.mem.wf = true) (x : Nat) :
    (∀ i, inUnits (s.cfg.range i) (![v0, v1] i).length x →
      (pseudoDiag s).mem.storedByte x = sentinelByte s.cfg (s.cfg.range i).start.toNat x) ∧
    ((∀ i, ¬ inUnits (s.cfg.range i) (![v0, v1] i).length x) →
      (pseudoDiag s).mem.storedByte x = s.mem.storedByte x) := by
  obtain ⟨-, -, hdisjoint⟩ := (rangesOk_iff s.cfg).1 hok
  have hstored0 := o0.mem hwf x
  have hstored1 := o1.mem (o0.wf hwf) x
  have htouches1 := o1.touches_of_inUnits (x := x)
  rw [o0.cfg] at hstored1 htouches1
  refine ⟨Fin.forall_fin_two.2 ⟨fun (hin0 : inUnits _ v0.length x) => ?_,
    fun (hin1 : inUnits _ v1.length x) => ?_⟩, fun hout => ?_⟩
  · have hout1 : ¬ inUnits (s.cfg.range 1) v1.length x := fun hin1 =>
      hdisjoint x ⟨o0.touches_of_inUnits hin0, htouches1 hin1⟩
    rw [hstored1, if_neg hout1, hstored0, if_pos hin0]
  · rw [hstored1, if_pos hin1]
  · have hout0 : ¬ inUnits (s.cfg.range 0) v0.length x := hout 0
    have hout1 : ¬ inUnits (s.cfg.range 1) v1.length x := hout 1
    rw [hstored1, if_neg hout1, hstored0, if_neg hout0]

/-- Settles O26: what each range has written ends where its mark says. -/
theorem diagMemoryAfter : Obligations.DiagMemoryAfter := by
  intro s hs hr hn hok hwf
  obtain ⟨t, ht⟩ := exec_diag_runs hs hr hn hok
  obtain ⟨v0, v1, o0, o1⟩ := diag_out s hok
  have hend : ∀ i, writtenEnd (s.cfg.range i) (t.blk.fail i) (t.blk.failAddr i) =
      (s.cfg.range i).start.toNat + 2 * (![v0, v1] i).length := by
    refine Fin.forall_fin_two.2 ⟨?_, ?_⟩
    · rw [ht.fail_eq, ht.failAddr_eq, o1.otherF 0 (by decide), o1.other 0 (by decide)]
      exact o0.writtenEnd_eq
    · have hend1 := o1.writtenEnd_eq
      rw [o0.cfg] at hend1
      rw [ht.fail_eq, ht.failAddr_eq]
      exact hend1
  refine ⟨t, ht.exec, fun i x hlo hhi => ?_, fun x hout => ?_⟩ <;>
    obtain ⟨hin, hkept⟩ := diag_storedByte o0 o1 hok hwf x <;> rw [ht.mem]
  · exact hin i ⟨hlo, hhi.trans_eq (hend i)⟩
  · exact hkept fun i ⟨hlo, hhi⟩ => hout i ⟨hlo, hhi.trans_eq (hend i).symm⟩

end Sys2Proof.Machine

/-! SUPPORT. The serial encoding of spec/30_encoding.md: the decoder and the encoder undo each other, line by
line and command by command (rules R51 to R53, R56, R57). -/

namespace Sys2Proof

/-! ### One operand line -/

/-- A byte that is a terminator is that terminator's code (rule R53). -/
theorem code_of_ofByte {b : Byte} {t : Terminator} (h : Terminator.ofByte? b = some t) :
    t.code = b := by
  unfold Terminator.ofByte? at h
  split at h
  · rename_i hb; cases h; exact hb.symm
  · split at h
    · rename_i hb; cases h; exact hb.symm
    · cases h

/-- With room for `n` characters the Line Reader delivers a line that fits, and consumes its bytes only. -/
theorem fits_of_takeLine {n : Nat} {bs : List Byte} {l : Line} {rest : List Byte}
    (h : takeLine n bs = some (l, rest)) :
    l.charsStorable = true ∧
      (if l.ended.isSome then l.chars.length < n else l.chars.length = n) ∧
      encodeLine l ++ rest = bs := by
  induction n, bs using takeLine.induct generalizing l with
  | case1 bs =>
    simp only [takeLine, Option.some.injEq, Prod.mk.injEq] at h
    obtain ⟨rfl, rfl⟩ := h
    exact ⟨rfl, rfl, rfl⟩
  | case2 n => cases h
  | case3 n b bs t hb =>
    simp only [takeLine, hb, Option.some.injEq, Prod.mk.injEq] at h
    obtain ⟨rfl, rfl⟩ := h
    exact ⟨rfl, Nat.succ_pos n, by simp [encodeLine, code_of_ofByte hb]⟩
  | case4 n b bs hb ih =>
    simp only [takeLine, hb, Option.map_eq_some_iff, Prod.mk.injEq] at h
    obtain ⟨⟨l', rest'⟩, h', rfl, rfl⟩ := h
    obtain ⟨hstore, hfits, hbytes⟩ := ih h'
    refine ⟨by simpa [Line.charsStorable, hb] using hstore, ?_, by simp [← hbytes, encodeLine]⟩
    simpa using hfits

/-- The Line Reader reads exactly the encodings of the lines it can deliver (rule R53). -/
theorem readLine_eq_some_iff {bs : List Byte} {l : Line} {rest : List Byte} :
    readLine bs = some (l, rest) ↔ l.wf = true ∧ encodeLine l ++ rest = bs := by
  refine ⟨fun h => ?_, fun ⟨hw, hbytes⟩ => hbytes ▸ readLine_encodeLine l rest hw⟩
  obtain ⟨hstore, hfits, hbytes⟩ := fits_of_takeLine h
  refine ⟨?_, hbytes⟩
  rw [Line.wf, hstore, Line.lengthFits]
  cases he : l.ended <;> simpa [he] using hfits

/-! ### The decoder, format by format -/

/-- A `SEL_L` command is one line after its selector (rule R51). -/
theorem decodeOneLine_eq_ok_iff {mk : Line → Instr} {bs : List Byte} {i : Instr} {rest : List Byte} :
    decodeOneLine mk bs = .ok (i, rest) ↔
      ∃ l, l.wf = true ∧ encodeLine l ++ rest = bs ∧ mk l = i := by
  constructor
  · intro h
    unfold decodeOneLine at h
    split at h
    · rename_i l rest' hl
      cases h
      obtain ⟨hw, hbytes⟩ := readLine_eq_some_iff.1 hl
      exact ⟨l, hw, hbytes, rfl⟩
    · cases h
  · rintro ⟨l, hw, rfl, rfl⟩
    rw [decodeOneLine, readLine_encodeLine l rest hw]

/-- A `SEL_LL` command is two lines after its selector (rule R51). -/
theorem decodeTwoLines_eq_ok_iff {mk : Line → Line → Instr} {bs : List Byte} {i : Instr}
    {rest : List Byte} :
    decodeTwoLines mk bs = .ok (i, rest) ↔
      ∃ la ld, la.wf = true ∧ ld.wf = true ∧ encodeLine la ++ (encodeLine ld ++ rest) = bs ∧
        mk la ld = i := by
  constructor
  · intro h
    unfold decodeTwoLines at h
    split at h
    · rename_i la mid ha
      obtain ⟨hwa, rfl⟩ := readLine_eq_some_iff.1 ha
      obtain ⟨ld, hwd, rfl, rfl⟩ := decodeOneLine_eq_ok_iff.1 h
      exact ⟨la, ld, hwa, hwd, rfl, rfl⟩
    · cases h
  · rintro ⟨la, ld, hwa, hwd, rfl, rfl⟩
    rw [decodeTwoLines, readLine_encodeLine la _ hwa]
    exact decodeOneLine_eq_ok_iff.2 ⟨ld, hwd, rfl, rfl⟩

/-- The decoder reads exactly the encodings of the well-formed commands (rules R51 to R53). -/
theorem decode_eq_ok_iff {bs : List Byte} {i : Instr} {rest : List Byte} :
    decode bs = .ok (i, rest) ↔ i.wf = true ∧ encode i ++ rest = bs := by
  constructor
  · intro h
    cases bs with
    | nil => cases h
    | cons b bs =>
      rw [decode] at h
      split_ifs at h with hb hb hb hb hb <;> subst hb
      · cases h; exact ⟨rfl, rfl⟩
      · obtain ⟨a, hw, rfl, rfl⟩ := decodeOneLine_eq_ok_iff.1 h
        exact ⟨hw, rfl⟩
      · obtain ⟨a, d, hwa, hwd, rfl, rfl⟩ := decodeTwoLines_eq_ok_iff.1 h
        simp [Instr.wf, hwa, hwd, encode]
      · obtain ⟨a, hw, rfl, rfl⟩ := decodeOneLine_eq_ok_iff.1 h
        exact ⟨hw, rfl⟩
      · cases h; exact ⟨rfl, rfl⟩
  · rintro ⟨hw, rfl⟩
    cases i with
    | diag | exit => rfl
    | peek a | angle a => exact decodeOneLine_eq_ok_iff.2 ⟨a, hw, rfl, rfl⟩
    | poke a d =>
      obtain ⟨hwa, hwd⟩ : a.wf = true ∧ d.wf = true := by simpa [Instr.wf] using hw
      exact decodeTwoLines_eq_ok_iff.2 ⟨a, d, hwa, hwd, (List.append_assoc _ _ _).symm, rfl⟩

/-- Settles O1: the encodings of the well-formed commands are what the decoder reads. -/
theorem decodeEncodeRoundTrip : Obligations.DecodeEncodeRoundTrip :=
  fun _ _ hw => decode_eq_ok_iff.2 ⟨hw, rfl⟩

/-- Settles O2: the decoder reads nothing else. -/
theorem decodedBytesAreTheEncoding : Obligations.DecodedBytesAreTheEncoding :=
  fun _ _ _ h => decode_eq_ok_iff.1 h

/-- Settles O3: the bytes consumed are the encoding, whose length each format bounds. -/
theorem commandLengthsByFormat : Obligations.CommandLengthsByFormat := by
  intro bs i rest h
  obtain ⟨hw, rfl⟩ := decode_eq_ok_iff.1 h
  rw [List.length_append, Nat.add_comm]
  cases i with
  | diag | exit => rfl
  | peek a =>
    obtain ⟨hmin, hmax⟩ := Laws.Length.peek a hw
    exact ⟨Nat.add_le_add_left hmin _, Nat.add_le_add_left hmax _⟩
  | poke a d =>
    obtain ⟨hmin, hmax⟩ := Laws.Length.poke a d hw
    exact ⟨Nat.add_le_add_left hmin _, Nat.add_le_add_left hmax _⟩
  | angle a =>
    obtain ⟨hmin, hmax⟩ := Laws.Length.angle a hw
    exact ⟨Nat.add_le_add_left hmin _, Nat.add_le_add_left hmax _⟩

/-- Settles O5: each byte sequence is the encoding of its command. -/
theorem typedCommandsDecode : Obligations.TypedCommandsDecode := by
  refine ⟨?_, ?_, ?_, ?_, ?_, ?_⟩ <;> exact decode_eq_ok_iff.2 ⟨rfl, rfl⟩

/-! ### Selectors -/

/-- The selectors are the bytes 0x31 to 0x35 (rule R52). -/
theorem isSelector_iff (b : Byte) : isSelector b = true ↔ 0x31 ≤ b.toNat ∧ b.toNat ≤ 0x35 := by
  simp only [isSelector, selDiag, selPeek, selPoke, selAngle, selExit, Bool.or_eq_true,
    decide_eq_true_eq, ← BitVec.toNat_inj, BitVec.toNat_ofNat]
  omega

/-- The bytes outside 0x31 to 0x35 are those that select nothing. -/
theorem not_isSelector_iff (b : Byte) :
    isSelector b = false ↔ b.toNat < 0x31 ∨ 0x35 < b.toNat := by
  rw [← Bool.not_eq_true, isSelector_iff]
  omega

/-- After a known selector the decoder never blames the selector. -/
theorem decodeOneLine_ne_invalid (mk : Line → Instr) (bs : List Byte) (b : Byte) :
    decodeOneLine mk bs ≠ .error (.invalidSelector b) := by
  unfold decodeOneLine; split <;> simp

theorem decodeTwoLines_ne_invalid (mk : Line → Line → Instr) (bs : List Byte) (b : Byte) :
    decodeTwoLines mk bs ≠ .error (.invalidSelector b) := by
  unfold decodeTwoLines; split
  · exact decodeOneLine_ne_invalid _ _ b
  · simp

/-- The decoder rejects a first byte exactly when it selects nothing, whatever follows (rule R57). -/
theorem decode_eq_invalid_iff (b : Byte) (rest : List Byte) :
    decode (b :: rest) = .error (.invalidSelector b) ↔ isSelector b = false := by
  rw [decode, isSelector]
  split_ifs with h1 h2 h3 h4 h5
  · simp [h1]
  · simp [h2, decodeOneLine_ne_invalid]
  · simp [h3, decodeTwoLines_ne_invalid]
  · simp [h4, decodeOneLine_ne_invalid]
  · simp [h5]
  · simp [*]

/-- Settles O4: the decoder rejects what `isSelector` does not name, and five of 256 bytes are named. -/
theorem otherSelectorsRejectedByName : Obligations.OtherSelectorsRejectedByName :=
  ⟨fun b rest => (not_isSelector_iff b).symm.trans (decode_eq_invalid_iff b rest).symm, by decide +kernel⟩

end Sys2Proof

/-! SUPPORT. Digits, the fold and the hex codec (spec/30_encoding.md rules R54, R55, R62, R63). -/

namespace Sys2Proof.Machine

/-! ### Digits and the fold -/

/-- A digit's value, on natural numbers (rule R54). -/
theorem digitToValue_toNat (c : Byte) : (digitToValue c).toNat =
    if 0x30 ≤ c.toNat ∧ c.toNat ≤ 0x39 then c.toNat - 0x30
    else if 0x41 ≤ c.toNat ∧ c.toNat ≤ 0x46 then c.toNat - 0x41 + 10
    else if 0x61 ≤ c.toNat ∧ c.toNat ≤ 0x66 then c.toNat - 0x61 + 10
    else 0 := by
  simp only [digitToValue, BitVec.le_def, BitVec.toNat_ofNat, Nat.reducePow, Nat.reduceMod]
  split_ifs
  · simp only [BitVec.toNat_setWidth, BitVec.toNat_sub, BitVec.toNat_ofNat]; omega
  · simp only [BitVec.toNat_setWidth, BitVec.toNat_sub, BitVec.toNat_ofNat]; omega
  · simp only [BitVec.toNat_setWidth, BitVec.toNat_sub, BitVec.toNat_ofNat]; omega
  · rfl

/-- Settles O6: the value of a digit, code by code. -/
theorem digitValuesByCode : Obligations.DigitValuesByCode := digitToValue_toNat

/-- A fold step that discards no bit appends a base-16 digit (rule R55). -/
theorem foldDigit_toNat {f : Word} (hf : f.toNat < 4096) (c : Byte) :
    (foldDigit f c).toNat = f.toNat * 16 + (digitToValue c).toNat := by
  have hd : (digitToValue c).toNat < 2 ^ 4 := (digitToValue c).isLt
  have hshift : f.toNat <<< 4 % 2 ^ 16 = f.toNat <<< 4 := by
    rw [Nat.shiftLeft_eq]; omega
  have hwide : ((digitToValue c).setWidth 16).toNat = (digitToValue c).toNat := by
    rw [BitVec.toNat_setWidth]; omega
  rw [foldDigit, BitVec.toNat_or, BitVec.toNat_shiftLeft, hshift, hwide,
    ← Nat.shiftLeft_add_eq_or_of_lt hd, Nat.shiftLeft_eq]

/-- From an accumulator with room for every digit the fold is positional. -/
theorem foldl_foldDigit_toNat (cs : List Byte) (f : Word)
    (hroom : (f.toNat + 1) * 16 ^ cs.length ≤ 65536) :
    (cs.foldl foldDigit f).toNat = f.toNat * 16 ^ cs.length +
      ∑ i ∈ Finset.range cs.length,
        (digitToValue (cs.getD i 0#8)).toNat * 16 ^ (cs.length - 1 - i) := by
  induction cs generalizing f with
  | nil => simp
  | cons c cs ih =>
    have hd := (digitToValue c).isLt
    have hpow : 1 ≤ 16 ^ cs.length := Nat.one_le_pow _ _ (by decide)
    rw [List.length_cons, Nat.pow_succ] at hroom
    have hf : f.toNat < 4096 := by nlinarith
    have hstep := foldDigit_toNat hf c
    rw [List.foldl_cons, ih (foldDigit f c) (by rw [hstep]; nlinarith), hstep, List.length_cons,
      Finset.sum_range_succ']
    simp only [List.getD_cons_succ, List.getD_cons_zero, Nat.add_sub_cancel, Nat.sub_zero,
      Nat.pow_succ, Nat.sub_sub, Nat.add_comm 1]
    ring

/-- Settles O7: at most four digits fit the accumulator, which starts at 0. -/
theorem foldIsPositional : Obligations.FoldIsPositional := by
  intro l hl
  have hroom : (0#16 : Word).toNat + 1 = 1 := rfl
  rw [foldLine, foldl_foldDigit_toNat l.chars 0#16]
  · simp
  · rw [hroom, Nat.one_mul]
    exact Nat.pow_le_pow_right (by decide) hl

/-! ### The hex codec -/

/-- The character of a nibble (rule R62). -/
theorem hexDigit_eq : ∀ n : BitVec 4, hexDigit n =
    if n.toNat ≤ 9 then BitVec.ofNat 8 (0x30 + n.toNat)
    else BitVec.ofNat 8 (0x41 + (n.toNat - 10)) := by decide

/-- A rendered nibble is an upper-case hex digit. -/
theorem hexDigit_upperCase : ∀ n : BitVec 4,
    (0x30 ≤ (hexDigit n).toNat ∧ (hexDigit n).toNat ≤ 0x39) ∨
      (0x41 ≤ (hexDigit n).toNat ∧ (hexDigit n).toNat ≤ 0x46) := by decide

/-- A rendered nibble reads back as itself (rules R54, R62). -/
theorem digitToValue_hexDigit : ∀ n : BitVec 4, digitToValue (hexDigit n) = n := by decide

/-- No rendered nibble ends a line. -/
theorem ofByte_hexDigit : ∀ n : BitVec 4, (Terminator.ofByte? (hexDigit n)).isNone = true := by
  decide

/-- A nibble of a value, on natural numbers. -/
theorem extract_nibble_toNat (v : Word) (k : Nat) :
    (v.extractLsb' k 4).toNat = v.toNat / 2 ^ k % 16 := by
  rw [BitVec.extractLsb'_toNat, Nat.shiftRight_eq_div_pow]

/-- Every character of a rendered value is a rendered nibble. -/
theorem exists_hexDigit_of_mem {v : Word} {c : Byte} (h : c ∈ valueToHexDigits v) :
    ∃ n, c = hexDigit n := by
  simp only [valueToHexDigits, List.mem_cons, List.not_mem_nil, or_false] at h
  rcases h with h | h | h | h <;> exact ⟨_, h⟩

/-- The four characters of a value are one full operand line (rule R53). -/
theorem hexLine_wf (v : Word) : (⟨valueToHexDigits v, none⟩ : Line).wf = true := by
  have hstore : (⟨valueToHexDigits v, none⟩ : Line).charsStorable = true := by
    rw [Line.charsStorable, List.all_eq_true]
    intro c hc
    obtain ⟨n, rfl⟩ := exists_hexDigit_of_mem hc
    exact ofByte_hexDigit n
  rw [Line.wf, hstore]
  rfl

/-- The fold of a value's four characters is the value (rule R63). -/
theorem foldLine_hexDigits (v : Word) : foldLine ⟨valueToHexDigits v, none⟩ = v := by
  apply BitVec.eq_of_toNat_eq
  have hv := v.isLt
  rw [foldIsPositional ⟨valueToHexDigits v, none⟩ (Nat.le_refl 4)]
  simp only [valueToHexDigits, List.length_cons, List.length_nil, Finset.sum_range_succ,
    Finset.sum_range_zero, List.getD_cons_succ, List.getD_cons_zero, digitToValue_hexDigit,
    extract_nibble_toNat]
  omega

/-- Settles O8: the rendered nibbles are a full line of upper-case digits that folds to the value. -/
theorem hexRoundTrip : Obligations.HexRoundTrip := by
  refine fun v => ⟨rfl, fun c hc => ?_, fun rest => ?_, foldLine_hexDigits v⟩
  · obtain ⟨n, rfl⟩ := exists_hexDigit_of_mem hc
    exact hexDigit_upperCase n
  · have hread := readLine_encodeLine _ rest (hexLine_wf v)
    rwa [show encodeLine ⟨valueToHexDigits v, none⟩ = valueToHexDigits v from rfl] at hread

/-- Settles O9: each nibble is rendered by `hexDigit`, and only RANGE_OK has a literal. -/
theorem reportsRenderAsTheRuleSays : Obligations.ReportsRenderAsTheRuleSays := by
  refine ⟨fun v => ?_, rfl, fun r hr => ?_⟩
  · simp only [valueToHexDigits, hexDigit_eq, extract_nibble_toNat, List.map_cons, List.map_nil]
  · cases r with
    | rangeOk => exact absurd rfl hr
    | _ => rfl

end Sys2Proof.Machine

/-! SUPPORT. The single thread of a session (spec/43_environment.md rule R138): what a running block keeps of
it, and where a step leaves it (spec/30_encoding.md rule R58); and DIAG as the pseudocode of rule R72. -/

namespace Sys2Proof.Machine

/-- Settles O23: `exec_diag_runs`, part by part. -/
theorem diagPerformsThePseudocode : Obligations.DiagPerformsThePseudocode := by
  intro s hs hr hn hok
  obtain ⟨t, ht⟩ := exec_diag_runs hs hr hn hok
  exact ⟨t, ht.exec, ht.mem, ht.trace, ht.blk, ht.cfg, ht.period, ht.compare, ht.mode, ht.interp,
    ht.stage, ht.room, ht.rest⟩

section
variable {s t : State}

/-- The environment waits for the block (rule R141). -/
abbrev State.waitsForBlock (s : State) : Prop := s.env.interp = .dispatch ∧ s.env.stage = .block

/-- The block has exactly one command: DIAG or ANGLE offered, or one that runs (rule R58). -/
def State.hasOneCommand (s : State) : Prop :=
  s.blk.done = false ∧
    ((s.blk.phase = .idle ∧ s.blk.cmdValid = true ∧
        (s.blk.cmdSel = selDiag ∨ s.blk.cmdSel = selAngle)) ∨
      (s.blk.phase ≠ .idle ∧ s.blk.cmdValid = false))

theorem sessionInv_of_waits (hw : s.waitsForBlock) : SessionInv s ↔ s.hasOneCommand := by
  rw [SessionInv, if_pos hw]; rfl

theorem sessionInv_of_not_waits (hw : ¬ s.waitsForBlock) : SessionInv s ↔ s.atRest := by
  rw [SessionInv, if_neg hw]

/-- Outside `Dispatch` the block is at rest. -/
theorem sessionInv_of_interp (hi : s.env.interp ≠ .dispatch) (hs : s.atRest) : SessionInv s :=
  (sessionInv_of_not_waits fun hw => hi hw.1).2 hs

/-- While operands are read or a handler's answer waits the block is at rest. -/
theorem sessionInv_of_stage (hstage : s.env.stage ≠ .block) (hs : s.atRest) : SessionInv s :=
  (sessionInv_of_not_waits fun hw => hstage hw.2).2 hs

/-! ### The block while the environment waits for it -/

/-- A move of a busy block goes on without `done`, or returns to `IDLE` with it (rule R58). -/
theorem PhaseMove.busy_cases (h : PhaseMove s t) (hb : s.blk.phase ≠ .idle) :
    (t.blk.phase ≠ .idle ∧ t.blk.done = s.blk.done) ∨ (t.blk.phase = .idle ∧ t.blk.done = true) := by
  cases h with
  | takesDiag hp | takesAngle hp | turnsAway hp | reportsInvalid hp => exact absurd hp hb
  | endsWalk | echoes => exact .inr ⟨rfl, rfl⟩
  | stands | waits => exact .inl ⟨hb, rfl⟩
  | check => exact .inl ⟨by simp only [State.enter_blk]; split <;> simp, rfl⟩
  | marks => exact .inl (by simpa [setFail_eq] using hb)
  | fails => exact .inl (by simp [setFailAddr_eq])
  | nextRange => exact .inl (by simp [setFail_eq])
  | converts => exact .inl ⟨by simp [converted_phase], converted_done s⟩
  | _ => exact .inl ⟨nofun, rfl⟩

/-- A move of a block with one command leaves it with that command, or done. -/
theorem PhaseMove.oneCommand (h : PhaseMove s t) (hs : s.hasOneCommand) :
    t.hasOneCommand ∨ Finished t := by
  obtain ⟨hdone, ⟨hp, hv, hsel⟩ | ⟨hb, hv⟩⟩ := hs
  · cases h with
    | stands => exact .inl ⟨hdone, .inl ⟨hp, hv, hsel⟩⟩
    | takesDiag | takesAngle => exact .inl ⟨rfl, .inr ⟨nofun, rfl⟩⟩
    | turnsAway _ _ hd ha | reportsInvalid _ _ hd ha => exact (hsel.elim hd ha).elim
    | marks hp' | waits hp' => rw [hp] at hp'; cases hp'
    | _ => simp_all
  · have hv' := (h.offer_eq hb).1.trans hv
    rcases h.busy_cases hb with ⟨hb', hdone'⟩ | ⟨hp', hdone'⟩
    · exact .inl ⟨hdone'.trans hdone, .inr ⟨hb', hv'⟩⟩
    · exact .inr ⟨hp', hv', hdone'⟩

/-- A block that is done stands. -/
theorem PhaseMove.eq_of_finished (h : PhaseMove s t) (hs : Finished s) : t = s := by
  obtain ⟨hp, hv, -⟩ := hs
  cases h with
  | stands => rfl
  | _ => simp_all

/-- While the block runs for the environment: one command, or done and not collected yet. -/
def BlockRun (s : State) : Prop := s.waitsForBlock ∧ (s.hasOneCommand ∨ Finished s)

theorem BlockRun.worldTurn (h : BlockRun s) : BlockRun (worldTurn s) := by
  simpa [BlockRun, State.waitsForBlock, State.hasOneCommand, Finished] using h

theorem BlockRun.move (h : BlockRun s) (hm : PhaseMove s t) : BlockRun t := by
  obtain ⟨hw, hs | hs⟩ := h
  · exact ⟨by simpa only [State.waitsForBlock, hm.env_eq] using hw, hm.oneCommand hs⟩
  · rw [hm.eq_of_finished hs]; exact ⟨hw, .inr hs⟩

/-- Where the environment takes `done` back, the thread is back at the menu and the block at rest. -/
theorem BlockRun.collectDone (h : BlockRun s) : SessionInv (collectDone s) := by
  obtain ⟨hw, hs | ⟨hp, hv, hdone⟩⟩ := h
  · obtain ⟨hdone, -⟩ := id hs
    rw [Machine.collectDone, if_neg (by simp [hdone])]
    exact (sessionInv_of_waits hw).2 hs
  · rw [Machine.collectDone, if_pos hdone]
    exact sessionInv_of_interp nofun ⟨hp, hv, rfl⟩

/-- A run of the block keeps the single thread, wherever it stops. -/
theorem sessionInv_runBlock (h : runBlock s = .next t) (hw : s.waitsForBlock)
    (hs : s.hasOneCommand) : SessionInv t := by
  obtain ⟨-, rfl⟩ := runBlock_next h
  have hstep := seqStep_keeps (fun _ hu => BlockRun.worldTurn hu) fun u hu => hu.move (phaseStep_moves u)
  exact BlockRun.collectDone (seqRun_keeps hstep _ _ ⟨hw, .inl hs⟩)

/-! ### The environment while the block is at rest -/

/-- `deliver` leaves the thread at the menu or at the answer, and the block alone. -/
theorem sessionInv_deliver {r : Report} (hs : s.atRest) (hr : s.env.stage = .answer r) :
    SessionInv (deliver s) := by
  unfold deliver
  rw [hr]
  dsimp only
  split
  · rename_i s1 h1
    obtain ⟨room, rfl, -⟩ := send_eq_some h1
    exact sessionInv_of_interp nofun hs
  · exact sessionInv_of_stage (by simp [hr]) hs

theorem sessionInv_answer (r : Report) (hs : s.atRest) : SessionInv (answer r s) :=
  sessionInv_deliver (s := s.setEnv { s.env with interp := .dispatch, stage := .answer r }) hs rfl

/-- A command from rest keeps the single thread. -/
theorem sessionInv_exec {i : Instr} (h : exec i s = .next t) (hs : s.atRest) : SessionInv t := by
  rcases exec_next h with ⟨sel, arg, hsel, h⟩ | ⟨e, r, a, rfl⟩ | ⟨e, r, a, d, rfl⟩ | ⟨e, rfl⟩ |
    ⟨-, rfl⟩
  · obtain ⟨hp, -, hdone⟩ := hs
    exact sessionInv_runBlock h ⟨rfl, rfl⟩ ⟨hdone, .inl ⟨hp, rfl, hsel⟩⟩
  · exact sessionInv_answer r hs
  · exact sessionInv_answer r hs
  · exact sessionInv_answer _ hs
  · exact sessionInv_of_interp nofun hs

/-- Reading operands from rest keeps the single thread, whatever it finds. -/
theorem sessionInv_dispatch (h : dispatch s = .next t) (hs : s.atRest)
    (hstage : s.env.stage = .operands) : SessionInv t := by
  obtain ⟨s1, hreads, hcases⟩ := dispatch_next h
  have hs1 : s1.atRest := by simpa only [State.atRest, hreads.blk] using hs
  rcases hcases with ⟨i, -, h⟩ | rfl | rfl
  · exact sessionInv_exec h hs1
  · exact sessionInv_answer _ hs1
  · exact sessionInv_of_stage (by simp [hreads.stage, hstage]) hs1

/-- The banner leaves the block alone. -/
theorem sessionInv_showMenu (hs : s.atRest) (hi : s.env.interp = .showMenu) :
    SessionInv (showMenu s) := by
  unfold showMenu
  split
  · rename_i s1 h1
    obtain ⟨room, rfl, -⟩ := send_eq_some h1
    exact sessionInv_of_interp nofun hs
  · exact sessionInv_of_interp (by simp [hi]) hs

/-- A turn of the world leaves a block at rest that no one waits for. -/
theorem SessionInv.atRest_turn (h : SessionInv s)
    (hw : s.env.interp ≠ .dispatch ∨ s.env.stage ≠ .block) : (worldTurn s).atRest := by
  have hs := (sessionInv_of_not_waits fun ⟨hi, hstage⟩ => hw.elim (· hi) (· hstage)).1 h
  simpa [State.atRest] using hs

/-- Settles O56: each case of a step is a run of the block, or leaves the block at rest. -/
theorem stepKeepsTheSingleThread : Obligations.StepKeepsTheSingleThread := by
  intro s t h hs
  rcases step_next h with ⟨-, rfl⟩ | ⟨hi, rfl⟩ | ⟨hi, -, rfl⟩ | ⟨b, rest, hi, -, h⟩ | ⟨-, hstage, h⟩ |
    ⟨hi, hstage, h⟩ | ⟨r, -, hstage, rfl⟩
  · exact sessionInv_of_interp nofun ⟨rfl, rfl, rfl⟩
  · exact sessionInv_showMenu (hs.atRest_turn (.inl (by simp [hi]))) (by simp [hi])
  · exact sessionInv_of_interp (by simp [hi]) (hs.atRest_turn (.inl (by simp [hi])))
  · exact sessionInv_dispatch h (hs.atRest_turn (.inl (by simp [hi]))) rfl
  · exact sessionInv_dispatch h (hs.atRest_turn (.inr (by simp [hstage]))) (by simp [hstage])
  · exact sessionInv_runBlock h ⟨hi, hstage⟩ ((sessionInv_of_waits ⟨hi, hstage⟩).1 hs)
  · exact sessionInv_deliver (r := r) (hs.atRest_turn (.inr (by simp [hstage]))) (by simp [hstage])

end

end Sys2Proof.Machine

/-! SUPPORT. What is turned away on the block's command port (spec/30_encoding.md rule R59). -/

namespace Sys2Proof.Machine

section
variable {s : State}

/-- A byte that selects nothing is reported, and the command is done. -/
theorem acceptCommand_invalid (h : s.blk.cmdSel.toNat < 0x31 ∨ 0x35 < s.blk.cmdSel.toNat) :
    acceptCommand s = reportThen (.invalidSelector (s.blk.cmdSel.setWidth 16))
      (fun s1 => s1.takeOffer.finish) s := by
  have hn := (not_isSelector_iff s.blk.cmdSel).2 h
  have hd : s.blk.cmdSel ≠ selDiag := fun e => by rw [e] at hn; cases hn
  have ha : s.blk.cmdSel ≠ selAngle := fun e => by rw [e] at hn; cases hn
  simp [acceptCommand, hd, ha, hn]

/-- A selector that the environment executes itself only raises `done`. -/
theorem acceptCommand_environment
    (h : s.blk.cmdSel = 0x32#8 ∨ s.blk.cmdSel = 0x33#8 ∨ s.blk.cmdSel = 0x35#8) :
    acceptCommand s = .go s.takeOffer.finish := by
  have hn : isSelector s.blk.cmdSel = true ∧ s.blk.cmdSel ≠ selDiag ∧ s.blk.cmdSel ≠ selAngle := by
    rcases h with h | h | h <;> rw [h] <;> decide
  simp [acceptCommand, hn]

/-- In `IDLE` taking an offer and finishing it at once changes nothing but the port (log 34). -/
theorem takeOffer_finish_eq (hp : s.blk.phase = .idle) :
    s.takeOffer.finish = { s with
      blk := { s.blk with cmdValid := false, done := true }
      trace := s.trace ++ [.done] } := by
  simp [State.finish, State.takeOffer, record, State.setBlk, State.setTrace, hp.symm]

end

/-- Settles O31: both ways the offer is taken and the block, idle before, is done. -/
theorem portTurnsOtherSelectorsAway : Obligations.PortTurnsOtherSelectorsAway := by
  refine fun s hp hr => ⟨fun h => ?_, fun h => ?_⟩
  · rw [acceptCommand_environment h, takeOffer_finish_eq hp]
  · rw [acceptCommand_invalid h, reportThen_of_accepts hr, takeOffer_finish_eq (s := record _ s) hp]
    simp [record, State.setTrace]

end Sys2Proof.Machine

/-! SUPPORT. A step that reads a command, whole or in pieces (spec/43_environment.md rules R138 to R145, R150;
spec/60_exceptions.md rule R168). -/

namespace Sys2Proof.Machine

section
variable {s w : State}

/-! ### From the step to the Line Reader -/

/-- A step that finds a selector dispatches it (rules R138, R140). -/
theorem step_of_selector {b : Byte} {rest : List Byte} (hi : s.env.interp = .awaitSelector)
    (hr : resetNext s = false) (hrx : (worldTurn s).env.rx = b :: rest) :
    step s = dispatch (takeSelector b rest (worldTurn s)) := by
  simp [step, hr, sessionStep, hi, awaitSelector, hrx]

/-- A step that stands in `Dispatch` goes on reading operands (rule R141). -/
theorem step_of_operands (hi : s.env.interp = .dispatch) (hs : s.env.stage = .operands)
    (hr : resetNext s = false) : step s = dispatch (worldTurn s) := by
  simp [step, hr, sessionStep, hi, hs]

theorem dispatch_of_ready {i : Instr} {t : State} (h : fetchFrom s.env.rx s = .ready i t) :
    dispatch s = exec i t := by
  rw [dispatch, fetchCommand, h]

theorem dispatch_of_waits {t : State} (h : fetchFrom s.env.rx s = .waits t) :
    dispatch s = .next t := by
  rw [dispatch, fetchCommand, h]

/-- With no byte left and no prompt due, reading an unfinished command waits (rule R168 (c)). -/
theorem fetchFrom_nil_waits (hd : decode (s.env.sel :: s.env.received) = .error .lineUnfinished)
    (hp : promptsFor s.env.sel = true → s.env.prompted = true) : fetchFrom [] s = .waits s := by
  have hsent : sendPrompt s = some s := by
    unfold sendPrompt
    rw [if_neg]
    simpa using hp
  rw [fetchFrom, hd, hsent]
  rfl

/-! ### A whole command -/

/-- What reading one operand line sends (rules R143, R145, R150; log 19). -/
def lineEvents (sel : Byte) (l : Line) : List PortEvent :=
  (if promptsFor sel then [.out .prompt] else []) ++
    (if echoesFor sel then l.chars.map fun c => .out (.localEcho c) else [])

/-- The machine after one more operand line has been read. -/
def afterLine (l : Line) (rest : List Byte) (s : State) : State :=
  { s with
    env := { s.env with rx := rest, received := s.env.received ++ encodeLine l, prompted := false }
    trace := s.trace ++ lineEvents s.env.sel l }

/-- One operand line of a well-formed command that has not ended before it. -/
theorem fetchFrom_line {i : Instr} {l : Line} (more rest : List Byte) (hw : i.wf = true)
    (hl : l.wf = true) (he : encode i = s.env.sel :: (s.env.received ++ encodeLine l ++ more))
    (hr : s.room = none) (hb : lineBuffer s.env.received = []) (hp : s.env.prompted = false) :
    fetchFrom (encodeLine l ++ rest) s = fetchFrom rest (afterLine l rest s) := by
  rw [fetch_line l hl rest s hr hb hp, afterLine, lineEvents, List.append_assoc]
  intro p q hq hpq
  exact decode_prefix (q := q ++ more) hw (by rw [he, hpq]; simp only [List.append_assoc]) (by simp [hq])

/-- Reading stops where the selector and the bytes received are the command's encoding. -/
theorem fetchFrom_ready_of_encode {i : Instr} (bs : List Byte) (hw : i.wf = true)
    (he : encode i = s.env.sel :: s.env.received) : fetchFrom bs s = .ready i s :=
  fetch_done bs i s [] (decode_eq_ok_iff.2 ⟨hw, by rw [he, List.append_nil]⟩)

/-- Where a whole command is on the transport, reading it gives the command and leaves the rest. -/
theorem fetchFrom_command {i : Instr} {sel : Byte} {ops : List Byte} (rest : List Byte)
    (hw : i.wf = true) (he : encode i = sel :: ops) (hr : w.room = none) :
    fetchFrom (ops ++ rest) (takeSelector sel (ops ++ rest) w) = .ready i (afterReading i rest w) := by
  cases i with
  | diag | exit =>
    cases he
    rw [fetchFrom_ready_of_encode _ hw rfl]
    simp [takeSelector, afterReading, transcript, State.setEnv, encode, operandBytes]
  | peek l | angle l =>
    cases he
    rw [fetchFrom_line (s := takeSelector _ _ w) [] rest hw hw (by simp [takeSelector, encode]) hr rfl
      rfl, fetchFrom_ready_of_encode _ hw rfl]
    rfl
  | poke a d =>
    cases he
    obtain ⟨ha, hd⟩ : a.wf = true ∧ d.wf = true := by simpa [Instr.wf] using hw
    let s0 := takeSelector selPoke (encodeLine a ++ encodeLine d ++ rest) w
    have haddress : fetchFrom (encodeLine a ++ encodeLine d ++ rest) s0 =
        fetchFrom (encodeLine d ++ rest) (afterLine a (encodeLine d ++ rest) s0) := by
      rw [List.append_assoc]
      exact fetchFrom_line (encodeLine d) _ hw ha rfl hr rfl rfl
    have hdata : fetchFrom (encodeLine d ++ rest) (afterLine a (encodeLine d ++ rest) s0) =
        fetchFrom rest (afterLine d rest (afterLine a (encodeLine d ++ rest) s0)) :=
      fetchFrom_line [] rest hw hd (by simp [afterLine, s0, takeSelector, encode]) hr
        (lineBuffer_operandBytes (i := .peek a) ha) rfl
    rw [haddress, hdata, fetchFrom_ready_of_encode _ hw rfl]
    simp [s0, afterLine, takeSelector, afterReading, transcript, State.setEnv, encode, operandBytes,
      lineEvents, echoedLine, promptsFor, echoesFor]

/-! ### A command that arrives in pieces -/

/-- Only PEEK, POKE and ANGLE have operand bytes (rule R51). -/
theorem selector_of_operands {i : Instr} {sel : Byte} {ops : List Byte} (he : encode i = sel :: ops)
    (hops : ops ≠ []) : sel = 0x32#8 ∨ sel = 0x33#8 ∨ sel = 0x34#8 := by
  cases i <;> cases he
  case diag | exit => exact absurd rfl hops
  case peek => exact .inl rfl
  case poke => exact .inr (.inl rfl)
  case angle => exact .inr (.inr rfl)

/-- Where only more of the operand bytes has come, reading stores it and waits (rules R131, R168 (c)). -/
theorem fetchFrom_beginning {i : Instr} {p r : List Byte} (hw : i.wf = true)
    (he : encode i = s.env.sel :: (s.env.received ++ (p ++ r))) (hne : r ≠ []) (hr : s.room = none)
    (hrx : s.env.rx = p) :
    ∃ pr, PromptSent s pr ∧ fetchFrom p s = .waits (s.afterBytes p [] pr) := by
  have unfinished : ∀ p1 p2, p = p1 ++ p2 →
      decode (s.env.sel :: (s.env.received ++ p1)) = .error .lineUnfinished := by
    rintro p1 p2 rfl
    exact decode_prefix (q := p2 ++ r) hw (by simpa only [List.append_assoc] using he) (by simp [hne])
  obtain ⟨pr, hsent, hfetch⟩ := fetch_piece p [] s hr (by rw [hrx, List.append_nil]) unfinished
  rw [List.append_nil] at hfetch
  refine ⟨pr, hsent, hfetch.trans (fetchFrom_nil_waits (unfinished p [] (List.append_nil p).symm) ?_)⟩
  rw [promptsFor_eq, decide_eq_true_eq]
  exact hsent.1

end

/-- A step from `AwaitSelector` that finds a whole command is `exec` of it (rules R138, R140, R141). -/
theorem step_of_wholeCommand {s : State} {i : Instr} {rest : List Byte}
    (hi : s.env.interp = .awaitSelector) (hn : resetNext s = false) (hr : (worldTurn s).room = none)
    (hw : i.wf = true) (hrx : (worldTurn s).env.rx = encode i ++ rest) :
    step s = exec i (afterReading i rest (worldTurn s)) := by
  obtain ⟨sel, ops, he⟩ : ∃ sel ops, encode i = sel :: ops := by cases i <;> exact ⟨_, _, rfl⟩
  rw [he, List.cons_append] at hrx
  rw [step_of_selector hi hn hrx]
  exact dispatch_of_ready (fetchFrom_command rest hw he hr)

/-- A step from `AwaitSelector` that finds the beginning of a command stores it and waits. -/
theorem step_of_beginning {s : State} {i : Instr} {sel : Byte} {p q : List Byte}
    (hi : s.env.interp = .awaitSelector) (hn : resetNext s = false) (hr : (worldTurn s).room = none)
    (hw : i.wf = true) (he : encode i = sel :: (p ++ q)) (hq : q ≠ [])
    (hrx : (worldTurn s).env.rx = sel :: p) :
    step s = .next { worldTurn s with
      env := { s.env with
        interp := .dispatch, stage := .operands, sel := sel, received := p
        prompted := decide (sel = 0x32#8 ∨ sel = 0x33#8), rx := [] }
      trace := s.trace ++ (if sel = 0x32#8 ∨ sel = 0x33#8 then [.out .prompt] else []) ++
        (if sel = 0x33#8 then pokeEvents [] p else []) } := by
  obtain ⟨pr, ⟨hprompt, hangle⟩, hfetch⟩ :=
    fetchFrom_beginning (s := takeSelector sel p (worldTurn s)) hw he hq hr rfl
  have hpr : pr = decide (sel = 0x32#8 ∨ sel = 0x33#8) := by
    rcases selector_of_operands he (by simp [hq]) with rfl | rfl | rfl
    · exact hprompt (.inl rfl)
    · exact hprompt (.inr rfl)
    · exact hangle rfl rfl
  rw [step_of_selector hi hn hrx, dispatch_of_waits hfetch, hpr]
  simp [State.afterBytes, State.promptDue, takeSelector, State.setEnv]

/-- Settles O45: `Dispatch` reads on from what it has received, to the end of the command or to the end of
what has come. -/
theorem stepRunsTheDecodedCommand : Obligations.StepRunsTheDecodedCommand := by
  refine ⟨fun s i rest hi hn hr hw hrx => step_of_wholeCommand hi hn hr hw hrx,
    fun s i sel p q hi hn hr hw he hq hrx => step_of_beginning hi hn hr hw he hq hrx,
    fun s i q hi hs hn hr hw he hq => ⟨fun rest hrx => ?_, ?_⟩⟩
  · rw [step_of_operands hi hs hn]
    refine dispatch_of_ready ?_
    rw [hrx]
    exact fetch_rest q rest _ hr hrx hw (by simpa using he) hq
      (decode_eq_ok_iff.2 ⟨hw, List.append_nil _⟩)
  · rintro p r rfl hne hrx
    obtain ⟨pr, ⟨hprompt, hangle⟩, hfetch⟩ :=
      fetchFrom_beginning (s := worldTurn s) hw (by simpa using he) hne hr hrx
    refine ⟨pr, by simpa using hprompt, by simpa using hangle, ?_⟩
    rw [step_of_operands hi hs hn]
    exact dispatch_of_waits (by rw [hrx]; exact hfetch)

end Sys2Proof.Machine

/-! SUPPORT. Every report waits for the host (spec/60_exceptions.md rule R168 (b)): the places that report
stand while it accepts nothing, and go on once it accepts. -/

namespace Sys2Proof.Machine

section
variable {s : State}

/-- PEEK and POKE prompt for a line that has had no prompt (rules R143, R145). -/
theorem sendPrompt_of_due (hsel : s.env.sel = 0x32#8 ∨ s.env.sel = 0x33#8)
    (hp : s.env.prompted = false) :
    sendPrompt s = (send .prompt s).map fun s1 => s1.setEnv { s1.env with prompted := true } := by
  rw [sendPrompt, if_pos]
  simp [promptsFor_eq, hsel, hp]

theorem sendPrompt_of_prompted (hp : s.env.prompted = true) : sendPrompt s = some s := by
  rw [sendPrompt, if_neg]
  simp [hp]

/-- A stored character of POKE is echoed (rule R150). -/
theorem sendEcho_of_poke (hsel : s.env.sel = 0x33#8) {b : Byte} (hlf : b ≠ 0x0A#8)
    (hcr : b ≠ 0x0D#8) : sendEcho b s = send (.localEcho b) s := by
  rw [sendEcho, if_pos]
  simp [echoesFor_eq, ofByte_isNone, hsel, hlf, hcr]

theorem verifyFails_of_ne (h : s.blk.rd ≠ s.cfg.sentinel) :
    verifyFails s.blk.rd s.cfg.sentinel = true := decide_eq_true h

/-! ### While the host accepts nothing -/

theorem reportThen_of_full (h : s.room = some 0) (r : Report) (f : State → State) :
    reportThen r f s = .stop s := by
  rw [reportThen, send_of_full h]

/-- D_VERDICT marks its range before it reports (rule R78). -/
theorem dVerdict_of_full (h : s.room = some 0) :
    dVerdict s = .stop (s.setBlk (s.blk.setFail s.blk.ri s.blk.failed)) :=
  reportThen_of_full (s := s.setBlk (s.blk.setFail s.blk.ri s.blk.failed)) h _ _

/-- Reading an unfinished command waits while its due prompt is not accepted. -/
theorem fetchFrom_of_promptWaits (hd : decode (s.env.sel :: s.env.received) = .error .lineUnfinished)
    (hwait : sendPrompt s = none) (bs : List Byte) : fetchFrom bs s = .waits s := by
  cases bs with
  | nil => rw [fetchFrom, hd, hwait]; rfl
  | cons b rest => rw [fetchFrom, hd, hwait]

/-- A character whose echo is not accepted is not received (log 28). -/
theorem fetchFrom_of_echoWaits (hd : decode (s.env.sel :: s.env.received) = .error .lineUnfinished)
    (hp : s.env.prompted = true) {b : Byte} (hwait : sendEcho b s = none) (rest : List Byte) :
    fetchFrom (b :: rest) s = .waits s := by
  have hnone : receiveByte b rest s = none := by rw [receiveByte, hwait]; rfl
  rw [fetchFrom, hd, sendPrompt_of_prompted hp]
  simp only [hnone]

theorem showMenu_of_full (h : s.room = some 0) : showMenu s = s := by
  rw [showMenu, send_of_full h]

theorem deliver_of_full (h : s.room = some 0) (r : Report) (hr : s.env.stage = .answer r) :
    deliver s = s := by
  simp [deliver, hr, send_of_full h]

theorem dCmp_of_full (h : s.room = some 0) (hrd : s.blk.rd ≠ s.cfg.sentinel) :
    dCmp s = .stop s := by
  rw [dCmp, if_pos (verifyFails_of_ne hrd), reportThen_of_full h]

theorem acceptCommand_of_full (h : s.room = some 0)
    (hsel : s.blk.cmdSel.toNat < 0x31 ∨ 0x35 < s.blk.cmdSel.toNat) : acceptCommand s = .stop s := by
  rw [acceptCommand_invalid hsel, reportThen_of_full h]

theorem sendPrompt_of_full (h : s.room = some 0) (hsel : s.env.sel = 0x32#8 ∨ s.env.sel = 0x33#8)
    (hp : s.env.prompted = false) : sendPrompt s = none := by
  rw [sendPrompt_of_due hsel hp, send_of_full h]; rfl

theorem sendEcho_of_full (h : s.room = some 0) (hsel : s.env.sel = 0x33#8) {b : Byte}
    (hlf : b ≠ 0x0A#8) (hcr : b ≠ 0x0D#8) : sendEcho b s = none := by
  rw [sendEcho_of_poke hsel hlf hcr, send_of_full h]

/-! ### Once the host accepts -/

/-- The banner is sent and the selector is awaited (rules R138, R139). -/
theorem step_showMenu_of_room (hn : resetNext s = false) (hr : (worldTurn s).room ≠ some 0)
    (hi : s.env.interp = .showMenu) : step s = .next { worldTurn s with
      env := { (worldTurn s).env with interp := .awaitSelector }
      trace := s.trace ++ [.out .menu]
      room := (worldTurn s).room.map (· - 1) } := by
  simp [step, hn, sessionStep, hi, showMenu, send_of_room hr, record, State.setTrace, State.setRoom,
    State.setEnv]

/-- The handler's report is sent and the menu is next (rule R141). -/
theorem step_answer_of_room {r : Report} (hn : resetNext s = false)
    (hr : (worldTurn s).room ≠ some 0) (hi : s.env.interp = .dispatch)
    (hs : s.env.stage = .answer r) : step s = .next { worldTurn s with
      env := { (worldTurn s).env with interp := .showMenu, stage := .operands }
      trace := s.trace ++ [.out r]
      room := (worldTurn s).room.map (· - 1) } := by
  simp [step, hn, sessionStep, hi, hs, deliver, send_of_room hr, record, State.setTrace,
    State.setRoom, State.setEnv]

/-- The bounds are reported before the walk of the range begins (rule R73). -/
theorem dBounds_of_room (h : s.room ≠ some 0) :
    ∃ t : State, dBounds s = .go t ∧ t.blk.phase = .dCheck ∧ t.room = s.room.map (· - 1) ∧
      t.trace = s.trace ++ [.out (.bounds s.walkRange.start s.walkRange.stop)] :=
  ⟨_, reportThen_of_room h, rfl, rfl, rfl⟩

/-- A failed verification is reported before the walk ends (rule R77). -/
theorem dCmp_of_room (h : s.room ≠ some 0) (hrd : s.blk.rd ≠ s.cfg.sentinel) :
    ∃ t : State, dCmp s = .go t ∧ t.blk.phase = .dVerdict ∧ t.room = s.room.map (· - 1) ∧
      t.trace = s.trace ++ [.out (.failAddr s.blk.addr)] :=
  ⟨_, by rw [dCmp, if_pos (verifyFails_of_ne hrd), reportThen_of_room h], rfl, rfl, rfl⟩

/-- D_VERDICT marks, reports and goes on (rule R78). -/
theorem dVerdict_of_room (h : s.room ≠ some 0) :
    ∃ t : State, dVerdict s = .go t ∧ t.room = s.room.map (· - 1) ∧
      t.blk.fail s.blk.ri = s.blk.failed ∧
      t.blk.phase = (if s.blk.ri = 0 then .dBounds else .idle) ∧
      t.trace = s.trace ++ [.out s.verdict] ++ (if s.blk.ri = 0 then [] else [.done]) := by
  have h' : (s.setBlk (s.blk.setFail s.blk.ri s.blk.failed)).room ≠ some 0 := h
  refine ⟨_, reportThen_of_room h', ?_⟩
  by_cases hi : s.blk.ri = 0
  · simp [hi, setFail_eq, Block.fail, State.verdict, State.walkRange]
  · simp [hi, setFail_eq, Block.fail, State.verdict, State.walkRange]

/-- The echo is reported before ANGLE is done (rule R98). -/
theorem aEcho_of_room (h : s.room ≠ some 0) :
    ∃ t : State, aEcho s = .go t ∧ t.blk.phase = .idle ∧ t.room = s.room.map (· - 1) ∧
      t.trace = s.trace ++ [.out (.angleEcho s.blk.p), .done] :=
  ⟨_, reportThen_of_room h, rfl, rfl, by simp⟩

/-- An invalid selector on the port is reported before it is done (rule R59). -/
theorem acceptCommand_of_room (h : s.room ≠ some 0)
    (hsel : s.blk.cmdSel.toNat < 0x31 ∨ 0x35 < s.blk.cmdSel.toNat) :
    ∃ t : State, acceptCommand s = .go t ∧ t.blk.phase = .idle ∧ t.room = s.room.map (· - 1) ∧
      t.trace = s.trace ++ [.out (.invalidSelector (s.blk.cmdSel.setWidth 16)), .done] :=
  ⟨_, by rw [acceptCommand_invalid hsel, reportThen_of_room h], rfl, rfl, by simp⟩

/-- A due prompt is sent (rules R143, R145). -/
theorem sendPrompt_of_room (h : s.room ≠ some 0) (hsel : s.env.sel = 0x32#8 ∨ s.env.sel = 0x33#8)
    (hp : s.env.prompted = false) :
    ∃ t : State, sendPrompt s = some t ∧ t.env.prompted = true ∧ t.room = s.room.map (· - 1) ∧
      t.trace = s.trace ++ [.out .prompt] :=
  ⟨_, by rw [sendPrompt_of_due hsel hp, send_of_room h]; rfl, rfl, rfl, rfl⟩

/-- A POKE character is echoed and received (rule R150). -/
theorem receiveByte_of_room (h : s.room ≠ some 0) (hsel : s.env.sel = 0x33#8) (b : Byte)
    (rest : List Byte) (hlf : b ≠ 0x0A#8) (hcr : b ≠ 0x0D#8) :
    ∃ t : State, receiveByte b rest s = some t ∧ t.env.received = s.env.received ++ [b] ∧
      t.env.rx = rest ∧ t.room = s.room.map (· - 1) ∧ t.trace = s.trace ++ [.out (.localEcho b)] :=
  ⟨_, by rw [receiveByte, sendEcho_of_poke hsel hlf hcr, send_of_room h]; rfl, rfl, rfl, rfl, rfl⟩

/-! ### A block command that waits runs to its end -/

/-- The environment waits while the block has something to do. -/
theorem SessionInv.waits_of_not_atRest (hi : SessionInv s) (hb : ¬ s.atRest) :
    s.waitsForBlock ∧ s.hasOneCommand := by
  by_cases hw : s.waitsForBlock
  · exact ⟨hw, (sessionInv_of_waits hw).1 hi⟩
  · exact absurd ((sessionInv_of_not_waits hw).1 hi) hb

/-- A step while the environment waits for the block is a run of the block (rule R141). -/
theorem step_of_waits (hw : s.waitsForBlock) (hn : resetNext s = false) : step s = runBlock s := by
  obtain ⟨hi, hs⟩ := hw
  simp [step, hn, sessionStep, hi, hs]

/-- A block that is done returns the thread to the menu, at rest. -/
theorem collectDone_of_finished (h : Finished s) :
    (collectDone s).atRest ∧ (collectDone s).env.interp = .showMenu ∧
      (collectDone s).env.stage = .operands := by
  obtain ⟨hp, hv, hdone⟩ := h
  rw [collectDone, if_pos hdone]
  exact ⟨⟨hp, hv, rfl⟩, rfl, rfl⟩

/-- An ANGLE at its echo completes in the step in which the host accepts (rule R98). -/
theorem step_aEcho_of_room (hi : SessionInv s) (hp : s.blk.phase = .aEcho)
    (hn : resetNext s = false) (hr : (worldTurn s).room ≠ some 0) :
    ∃ t : State, step s = .next t ∧
      t.trace = s.trace ++ [.out (.angleEcho s.blk.p), .done] ∧ t.atRest ∧
      t.env.interp = .showMenu ∧ t.env.stage = .operands ∧ t.mem = s.mem ∧
      t.blk.prevDuty = s.blk.prevDuty ∧ t.pwm.compare = s.pwm.compare := by
  obtain ⟨hw, -, hcmd⟩ := hi.waits_of_not_atRest fun ⟨h, _⟩ => by simp [hp] at h
  have hv : s.blk.cmdValid = false := (hcmd.resolve_left fun h => by simp [hp] at h).2
  let u := ((record (.out (.angleEcho s.blk.p)) (worldTurn s)).setRoom
    ((worldTurn s).room.map (· - 1))).finish
  have hstep : seqStep s = .go u := by
    rw [seqStep_of_busy (quiet_of_phase (by simp [hp])) hn, phaseStep_aEcho (by simp [hp]), aEcho,
      reportThen_of_room hr, worldTurn_blk]
  have hdone : Finished u := ⟨rfl, by simpa [u] using hv, rfl⟩
  have hrun : seqRun seqFuel s = u := by
    rw [show seqFuel = 299999 + 1 from rfl, seqRun_go hstep,
      seqRun_of_quiet (by simp [State.quiet, hdone.1, hdone.2.1])]
  have hwalk : s.walkDue = false := walkDue_eq_false_iff.2 ⟨by rw [hp]; rfl, by simp [hv]⟩
  obtain ⟨hrest, hmenu, hstage⟩ := collectDone_of_finished hdone
  refine ⟨collectDone u, ?_, ?_, hrest, hmenu, hstage, ?_, ?_, ?_⟩
  · rw [step_of_waits hw hn, runBlock_of_noWalk hwalk, hrun]
  · exact (collectDone_part State.trace u rfl).trans (by simp [u])
  · exact (collectDone_part State.mem u rfl).trans (by simp [u])
  · exact (collectDone_part (·.blk.prevDuty) u rfl).trans (by simp [u])
  · exact (collectDone_part (·.pwm.compare) u rfl).trans (by simp [u])

/-- A walk goes on to its end once a turn of the world leaves an acceptance for every report. -/
theorem seqRun_finishes_of_turn (h : WalkGoesOn (worldTurn s)) (hn : s.noReset) :
    Finished (seqRun seqFuel s) := by
  have hq : s.quiet = false := by
    rcases h.due with ⟨hwalk, -⟩ | ⟨-, hv, -⟩
    · refine quiet_of_phase fun hp => ?_
      rw [worldTurn_blk, hp] at hwalk
      cases hwalk
    · exact quiet_of_valid (by simpa using hv)
  have hfuel := stepsLeft_lt (worldTurn s)
  obtain ⟨u, hphase, ⟨hu, hlt⟩ | hdone⟩ := h.phase <;>
    rw [show seqFuel = 299999 + 1 from rfl, run_go hq hn hphase]
  · exact hu.ends (by rw [show seqFuel = 299999 + 1 from rfl] at hfuel; omega)
  · rwa [seqRun_of_quiet (by simp [State.quiet, hdone.1, hdone.2.1])]

/-- A DIAG that waits anywhere in its walk completes in a step whose turn leaves an acceptance for every
report (rule R81). -/
theorem step_walk_of_room (hi : SessionInv s) (hdue : s.walkDue = true) (hinv : WalkInv s)
    (hok : s.cfg.rangesOk = true) (hn : s.noReset)
    (hr : ∀ n, (worldTurn s).room = some n → 6 ≤ n) :
    ∃ t : State, step s = .next t ∧ t.atRest ∧ t.env.interp = .showMenu ∧
      t.env.stage = .operands := by
  obtain ⟨hw, -, hcmd⟩ := hi.waits_of_not_atRest fun ⟨hp, hv, _⟩ => by
    simp [State.walkDue, hp, hv, Phase.walking] at hdue
  have hwalk : WalkGoesOn (worldTurn s) := {
    ok := by simpa using hok
    inv := by simpa [WalkInv, State.walkRange] using hinv
    due := by
      rw [worldTurn_blk]
      rcases hcmd with ⟨hp, hv, -⟩ | ⟨-, hv⟩
      · exact .inr ⟨hp, hv, by simpa [State.walkDue, hp, hv, Phase.walking] using hdue⟩
      · exact .inl ⟨by simpa [State.walkDue, hv] using hdue, hv⟩
    room := fun n hroom => (reportsLeft_le _).trans (hr n hroom)
    noReset := worldTurn_noReset hn }
  have hends := collectDone_of_finished (seqRun_finishes_of_turn hwalk hn)
  refine ⟨collectDone (seqRun seqFuel s), ?_, hends⟩
  rw [step_of_waits hw (resetNext_of_noReset hn), runBlock, if_neg (by simp [hok])]

end

/-- Settles O49: each place that reports stands without an acceptance and goes on with one, and a block
command runs on from where it waits. -/
theorem reportsWaitForTheHost : Obligations.ReportsWaitForTheHost := by
  refine ⟨fun s h => ?stand, fun s hn hr => ?step, fun s h room' hr => ?go, fun s hi => ?complete⟩
  case stand =>
    refine ⟨showMenu_of_full h, deliver_of_full h, reportThen_of_full h _ _, reportThen_of_full h _ _,
      fun hri => ?_, fun hri => ?_, dCmp_of_full h, acceptCommand_of_full h,
      fun hd hsel hp => ?_, fun hd hsel hp b rest hlf hcr => ?_⟩
    · rw [dVerdict_of_full h, hri]; rfl
    · rw [dVerdict_of_full h, hri]; rfl
    · have hwait := sendPrompt_of_full h hsel hp
      exact ⟨hwait, fetchFrom_of_promptWaits hd hwait⟩
    · have hwait := sendEcho_of_full h hsel hlf hcr
      exact ⟨hwait, fetchFrom_of_echoWaits hd hp hwait rest⟩
  case step => exact ⟨step_showMenu_of_room hn hr, fun _ => step_answer_of_room hn hr⟩
  case go =>
    subst hr
    exact ⟨dBounds_of_room h, dCmp_of_room h, dVerdict_of_room h, aEcho_of_room h,
      fun hsel _ => acceptCommand_of_room h hsel, sendPrompt_of_room h, receiveByte_of_room h⟩
  case complete => exact ⟨step_aEcho_of_room hi, step_walk_of_room hi⟩

end Sys2Proof.Machine

/-! SUPPORT. The reports of a whole DIAG (spec/40_memory_walker.md rules R81, R82): what each range's mark
says is what it reports, and one stuck cell marks the range that touches it. -/

namespace Sys2Proof.Machine

/-! ### The marks of DIAG are its reports -/

/-- The failing address a range's mark holds, if the range is marked as failed (rule R79). -/
def Block.failMark (b : Block) (i : Fin 2) : Option Word :=
  if b.fail i then some (b.failAddr i) else none

theorem Block.failMark_eq_none_iff {b : Block} {i : Fin 2} :
    b.failMark i = none ↔ b.fail i = false := by
  cases h : b.fail i <;> simp [Block.failMark, h]

theorem Block.failMark_eq_some_iff {b : Block} {i : Fin 2} {a : Word} :
    b.failMark i = some a ↔ b.fail i = true ∧ b.failAddr i = a := by
  cases h : b.fail i <;> simp [Block.failMark, h]

/-- The walk of a range reports the sequence its mark names (rule R81). -/
theorem RangeOut.reports_eq {i : Fin 2} {v w : State} {vs : List Word} (o : RangeOut i v w vs) :
    w.reports = v.reports ++ rangeReports (v.cfg.range i) (w.blk.failMark i) := by
  cases hf : w.blk.fail i with
  | false =>
    obtain ⟨-, hreports⟩ := o.pass hf
    rw [hreports, Block.failMark_eq_none_iff.2 hf]
  | true =>
    obtain ⟨-, hreports⟩ := o.fail hf
    rw [hreports, Block.failMark_eq_some_iff.2 ⟨hf, rfl⟩]

/-- A failing address is the address of a unit of its range (rule R81). -/
theorem RangeOut.failAddr_is_unit {i : Fin 2} {v w : State} {vs : List Word}
    (o : RangeOut i v w vs) (hle : (v.cfg.range i).start.toNat ≤ (v.cfg.range i).stop.toNat)
    (hf : w.blk.fail i = true) :
    (v.cfg.range i).start.toNat ≤ (w.blk.failAddr i).toNat ∧
      (w.blk.failAddr i).toNat ≤ (v.cfg.range i).stop.toNat ∧
      ((w.blk.failAddr i).toNat - (v.cfg.range i).start.toNat) % 2 = 0 := by
  obtain ⟨haddr, -⟩ := o.fail hf
  have hpos := o.pos
  have hlen := o.len
  rw [Range.units] at hlen
  omega

section
variable {s t : State} {v0 v1 : List Word}

/-- The walk of range 1 leaves the mark of range 0. -/
theorem RunsPseudoDiag.failMark_zero (ht : RunsPseudoDiag s t)
    (o1 : RangeOut 1 (pseudoRange 0 s) (pseudoDiag s) v1) :
    t.blk.failMark 0 = (pseudoRange 0 s).blk.failMark 0 := by
  simp only [Block.failMark, ht.fail_eq, ht.failAddr_eq, o1.otherF 0 (by decide),
    o1.other 0 (by decide)]

theorem RunsPseudoDiag.failMark_one (ht : RunsPseudoDiag s t) :
    t.blk.failMark 1 = (pseudoDiag s).blk.failMark 1 := by
  simp only [Block.failMark, ht.fail_eq, ht.failAddr_eq]

/-- The reports of DIAG are those of range 0 and then of range 1, as the marks say. -/
theorem RunsPseudoDiag.reports_of_marks (ht : RunsPseudoDiag s t)
    (o0 : RangeOut 0 s (pseudoRange 0 s) v0) (o1 : RangeOut 1 (pseudoRange 0 s) (pseudoDiag s) v1) :
    t.reports = s.reports ++ rangeReports s.cfg.range0 (t.blk.failMark 0) ++
      rangeReports s.cfg.range1 (t.blk.failMark 1) := by
  rw [ht.reports_eq, o1.reports_eq, o0.reports_eq, o0.cfg, ht.failMark_zero o1, ht.failMark_one]
  rfl

/-- After DIAG each failing address is the address of a unit of its range. -/
theorem RunsPseudoDiag.failAddr_is_unit (ht : RunsPseudoDiag s t)
    (o0 : RangeOut 0 s (pseudoRange 0 s) v0) (o1 : RangeOut 1 (pseudoRange 0 s) (pseudoDiag s) v1)
    (hok : s.cfg.rangesOk = true) : ∀ i : Fin 2, t.blk.fail i = true →
      (s.cfg.range i).start.toNat ≤ (t.blk.failAddr i).toNat ∧
      (t.blk.failAddr i).toNat ≤ (s.cfg.range i).stop.toNat ∧
      ((t.blk.failAddr i).toNat - (s.cfg.range i).start.toNat) % 2 = 0 := by
  have hle i := (range_ok hok i).1
  simp only [ht.fail_eq, ht.failAddr_eq]
  refine Fin.forall_fin_two.2 ⟨fun hf => ?_, fun hf => ?_⟩
  · rw [o1.otherF 0 (by decide)] at hf
    rw [o1.other 0 (by decide)]
    exact o0.failAddr_is_unit (hle 0) hf
  · have hunit := o1.failAddr_is_unit (by rw [o0.cfg]; exact hle 1) hf
    rwa [o0.cfg] at hunit

end

/-- Settles O24: the two sequences are told apart by the marks that DIAG leaves. -/
theorem diagReportsHaveOneShape : Obligations.DiagReportsHaveOneShape := by
  intro s hs hr hn hok
  obtain ⟨t, ht⟩ := exec_diag_runs hs hr hn hok
  obtain ⟨v0, v1, o0, o1⟩ := diag_out s hok
  refine ⟨t, t.blk.failMark, ht.exec, ht.reports_of_marks o0 o1,
    fun i => ⟨Block.failMark_eq_none_iff.1, fun a ha => ?_⟩⟩
  obtain ⟨hf, rfl⟩ := Block.failMark_eq_some_iff.1 ha
  exact ⟨hf, rfl, ht.failAddr_is_unit o0 o1 hok i hf⟩

/-! ### One stuck cell -/

/-- The address of the unit that holds location `x` in a walk that starts at `start` (rule R82). -/
def unitAddr (start x : Nat) : Nat := start + 2 * ((x - start) / 2)

/-- A unit that holds the sentinel passes exactly if no fault changes either of its bytes. -/
theorem unitRead_eq_sentinel_iff (c : Config) (S : List StuckAt) (a : Nat) :
    unitRead c S a = c.sentinel ↔
      applyStuck S a (lowerByte c.byteOrder c.sentinel) = lowerByte c.byteOrder c.sentinel ∧
      applyStuck S (a + 1) (upperByte c.byteOrder c.sentinel) =
        upperByte c.byteOrder c.sentinel := by
  refine ⟨fun h => joinUnit_inj _ _ _ _ _ (h.trans (joinUnit_bytes _ _).symm), ?_⟩
  rintro ⟨hlower, hupper⟩
  rw [unitRead, hlower, hupper, joinUnit_bytes]

theorem applyStuck_at (f : StuckAt) (b : Byte) : applyStuck [f] f.loc.toNat b = f.apply b :=
  if_pos rfl

/-- A stuck cell that changes the sentinel's byte makes its unit read back wrong, whichever of the unit's
two bytes it is. -/
theorem unitRead_ne_of_exposed {c : Config} {f : StuckAt} {start : Nat} (hlo : start ≤ f.loc.toNat)
    (hexp : f.apply (sentinelByte c start f.loc.toNat) ≠ sentinelByte c start f.loc.toNat) :
    unitRead c [f] (unitAddr start f.loc.toNat) ≠ c.sentinel := by
  rw [Ne, unitRead_eq_sentinel_iff]
  rintro ⟨hlower, hupper⟩
  by_cases heven : (f.loc.toNat - start) % 2 = 0
  · rw [show unitAddr start f.loc.toNat = f.loc.toNat by rw [unitAddr]; omega,
      applyStuck_at] at hlower
    rw [sentinelByte, if_pos heven] at hexp
    exact hexp hlower
  · rw [show unitAddr start f.loc.toNat + 1 = f.loc.toNat by rw [unitAddr]; omega,
      applyStuck_at] at hupper
    rw [sentinelByte, if_neg heven] at hexp
    exact hexp hupper

section
variable {i : Fin 2} {v : State} {f : StuckAt}

/-- A range whose walk does not touch the stuck cell passes. -/
theorem failMark_of_untouched (hok : (v.cfg.range i).ok = true) (hwf : v.mem.wf = true)
    (hanswers : ∀ x ∈ v.mem.answers, x = none) (hstuck : v.mem.stuck = [f])
    (hout : ¬ (v.cfg.range i).touches f.loc.toNat = true) :
    (pseudoRange i v).blk.failMark i = none := by
  rw [touches_iff, Range.last] at hout
  refine Block.failMark_eq_none_iff.2 (range_good i v hok hwf hanswers fun k hk => ?_)
  rw [Range.units] at hk
  rw [hstuck]
  exact unitRead_off _ _ _ (by omega) (by omega)

/-- A range whose walk touches a stuck cell that the sentinel exposes fails at the cell's unit: the units
before it pass. -/
theorem failMark_of_exposed (hok : (v.cfg.range i).ok = true) (hwf : v.mem.wf = true)
    (hanswers : ∀ x ∈ v.mem.answers, x = none) (hstuck : v.mem.stuck = [f])
    (hin : (v.cfg.range i).touches f.loc.toNat = true)
    (hexp : f.apply (sentinelByte v.cfg (v.cfg.range i).start.toNat f.loc.toNat) ≠
      sentinelByte v.cfg (v.cfg.range i).start.toNat f.loc.toNat) :
    (pseudoRange i v).blk.failMark i =
      some (BitVec.ofNat 16 (unitAddr (v.cfg.range i).start.toNat f.loc.toNat)) := by
  rw [touches_iff, Range.last] at hin
  obtain ⟨hf, haddr⟩ := range_bad i v ((f.loc.toNat - (v.cfg.range i).start.toNat) / 2)
    (by rw [Range.units]; omega) hok hwf hanswers
    (fun k hk => by rw [hstuck]; exact unitRead_off _ _ _ (by omega) (by omega))
    (by rw [hstuck]; exact unitRead_ne_of_exposed hin.1 hexp)
  refine Block.failMark_eq_some_iff.2 ⟨hf, ?_⟩
  rw [unitAddr, ← haddr, BitVec.ofNat_toNat, BitVec.setWidth_eq]

end

/-- Settles O27: the walk that touches the stuck cell fails at its unit, and the walk of the other range,
which touches other locations (rule R36 (c)), passes. -/
theorem diagFindsTheStuckCell : Obligations.DiagFindsTheStuckCell := by
  intro s i f hs hr hn hok hwf hstuck hanswers hin hexp
  obtain ⟨t, ht⟩ := exec_diag_runs hs hr hn hok
  obtain ⟨v0, v1, o0, o1⟩ := diag_out s hok
  obtain ⟨-, -, hdisjoint⟩ := (rangesOk_iff s.cfg).1 hok
  have hok0 := rangesOk_range hok 0
  have hok1 : ((pseudoRange 0 s).cfg.range 1).ok = true := by rw [o0.cfg]; exact rangesOk_range hok 1
  have hstuck1 := o0.stuck.trans hstuck
  refine ⟨t, ht.exec, ?_⟩
  rw [ht.reports_of_marks o0 o1, ht.failMark_zero o1, ht.failMark_one]
  rcases (by decide : ∀ i : Fin 2, i = 0 ∨ i = 1) i with rfl | rfl
  · have hout : ¬ (s.cfg.range 1).touches f.loc.toNat = true := fun h => hdisjoint _ ⟨hin, h⟩
    rw [failMark_of_exposed hok0 hwf hanswers hstuck hin hexp, pseudoDiag,
      failMark_of_untouched hok1 (o0.wf hwf) (o0.answers hanswers) hstuck1 (by rwa [o0.cfg])]
    rfl
  · have hout : ¬ (s.cfg.range 0).touches f.loc.toNat = true := fun h => hdisjoint _ ⟨h, hin⟩
    rw [failMark_of_untouched hok0 hwf hanswers hstuck hout, pseudoDiag,
      failMark_of_exposed hok1 (o0.wf hwf) (o0.answers hanswers) hstuck1 (by rwa [o0.cfg])
        (by rwa [o0.cfg]), o0.cfg]
    rfl

/-! ### Each phase by its rule -/

section
variable {s : State}

theorem dCmp_of_mismatch (hr : s.room = none) (hrd : s.blk.rd ≠ s.cfg.sentinel) :
    dCmp s = .go ((record (.out (.failAddr s.blk.addr)) s).setBlk
      { s.blk.setFailAddr s.blk.ri s.blk.addr with failed := true, phase := .dVerdict }) := by
  rw [dCmp, if_pos (verifyFails_of_ne hrd), reportThen_of_accepts hr]
  rfl

theorem dCmp_of_match (hrd : s.blk.rd = s.cfg.sentinel) :
    dCmp s = .go (s.setBlk { s.blk with addr := s.blk.addr + 2#16, phase := .dCheck }) := by
  rw [dCmp, if_neg (by simp [verifyFails, hrd])]

theorem dVerdict_of_accepts (hr : s.room = none) :
    dVerdict s = .go (afterVerdict s.blk.ri (marked s)) := by
  have hr' : (s.setBlk (s.blk.setFail s.blk.ri s.blk.failed)).room = none := hr
  rw [dVerdict, reportThen_of_accepts hr']
  simp [afterVerdict, marked, State.verdict, setFail_eq, State.walkRange]

end

/-- Settles O22: each phase is its rule's pseudocode, written out register by register. -/
theorem walkerPhasesFollowTheRules : Obligations.WalkerPhasesFollowTheRules := by
  intro s hr
  refine ⟨reportThen_of_accepts hr, rfl, rfl, rfl, fun hrd => ?_, fun hrd => dCmp_of_match hrd,
    fun hri => ?_, fun hri => ?_⟩
  · rw [dCmp_of_mismatch hr hrd, setFailAddr_eq]
    rfl
  · rw [dVerdict_of_accepts hr, marked, setFail_eq, State.verdict, State.walkRange, hri]
    rfl
  · rw [dVerdict_of_accepts hr, marked, setFail_eq, State.verdict, State.walkRange,
      List.append_cons s.trace]
    simp only [hri]
    rfl

end Sys2Proof.Machine

/-! SUPPORT. The converter register by register (spec/41_angle_to_duty.md rules R90 to R95), and the two
ends of an ANGLE from rest: the echo, or the wait in `A_WAIT` (rule R99). -/

namespace Sys2Proof.Machine

/-! ### What `A_CONVERT` leaves in every register -/

section
variable (s : State)

theorem adopts_iff (clamped prev : Nat) : adopts clamped prev = true ↔ 3 < absDiff clamped prev :=
  decide_eq_true_iff

theorem scaleProduct_le {d : Nat} (h : d ≤ 1665) : scaleProduct d ≤ 11561760 := by
  simp only [scaleProduct, Config.scaleNum]; omega

theorem converted_deg_toNat : (converted s).blk.deg.toNat = bcd2dec s.blk.p := by
  have hfit := bcd2dec_le s.blk.p
  have e : (converted s).blk.deg = BitVec.ofNat 11 (bcd2dec s.blk.p) := by
    unfold converted; split <;> rfl
  rw [e, BitVec.toNat_ofNat]
  omega

theorem converted_prod_toNat : (converted s).blk.prod.toNat = scaleProduct (bcd2dec s.blk.p) := by
  have hfit := scaleProduct_le (bcd2dec_le s.blk.p)
  have e : (converted s).blk.prod = BitVec.ofNat 24 (scaleProduct (bcd2dec s.blk.p)) := by
    unfold converted; split <;> rfl
  rw [e, BitVec.toNat_ofNat]
  omega

theorem converted_raw_toNat : (converted s).blk.raw.toNat = scale (bcd2dec s.blk.p) := by
  have hfit := scale_le (bcd2dec_le s.blk.p)
  have e : (converted s).blk.raw = BitVec.ofNat 11 (scale (bcd2dec s.blk.p)) := by
    unfold converted; split <;> rfl
  rw [e, BitVec.toNat_ofNat]
  omega

theorem converted_clamped_toNat : (converted s).blk.clamped.toNat = clampedOf s.blk.p := by
  have hfit := clampedOf_le s.blk.p
  have e : (converted s).blk.clamped = BitVec.ofNat 9 (clampedOf s.blk.p) := by
    unfold converted; split <;> rfl
  rw [e, BitVec.toNat_ofNat]
  omega

theorem converted_prevDuty_toNat : (converted s).blk.prevDuty.toNat =
    if 3 < absDiff (clampedOf s.blk.p) s.blk.prevDuty.toNat then clampedOf s.blk.p
    else s.blk.prevDuty.toNat := by
  simp only [converted_prevDuty, adopts_iff]
  split
  · exact ofNat_clampedOf_toNat _
  · rfl

theorem converted_pulse : (converted s).trace = s.trace ++
    if 3 < absDiff (clampedOf s.blk.p) s.blk.prevDuty.toNat then [.pwm .counterReset] else [] := by
  simp only [converted_trace, adopts_iff]

theorem converted_period : (converted s).pwm.period = s.pwm.period := by
  unfold converted; split <;> rfl

theorem converted_compare : (converted s).pwm.compare = s.pwm.compare := by
  unfold converted; split <;> rfl

theorem converted_mode : (converted s).pwm.mode = s.pwm.mode := by
  unfold converted; split <;> rfl

end

/-- Settles O11: the conversion goes on to `converted`; the lemmas above state each register without a
width that truncates, and the rules' formulas are the definitions of BCD2DEC, SCALE and CLAMP. -/
theorem convertFollowsTheRules : Obligations.ConvertFollowsTheRules :=
  ⟨clamp_eq, fun s => ⟨converted s, aConvert_eq s,
    ⟨converted_deg_toNat s, converted_prod_toNat s, converted_raw_toNat s, converted_clamped_toNat s,
      converted_adopt s, converted_prevDuty_toNat s, converted_duty_eq s, converted_phase s,
      converted_pulse s⟩,
    converted_mem s, converted_env s, converted_cfg s, converted_p s, converted_period s,
    converted_compare s, converted_mode s⟩⟩

/-! ### The clamped duty by degrees -/

/-- CLAMP of SCALE, row by row (spec/41_angle_to_duty.md rule R94). -/
theorem clamp_scale_low {d : Nat} (h : d ≤ 1) : scale d = 125 ∧ clamp (scale d) = 90 := by
  have e : scale d = 125 := by rw [scale_eq]; omega
  exact ⟨e, by rw [e]; rfl⟩

@[inherit_doc clamp_scale_low]
theorem clamp_scale_middle {d : Nat} (hlo : 2 ≤ d) (hhi : d ≤ 178) :
    126 ≤ scale d ∧ scale d ≤ 248 ∧ clamp (scale d) = scale d := by
  have e : 126 ≤ scale d ∧ scale d ≤ 248 := by rw [scale_eq]; omega
  exact ⟨e.1, e.2, by rw [clamp_eq, if_neg (by omega), if_neg (by omega)]⟩

@[inherit_doc clamp_scale_low]
theorem clamp_scale_high {d : Nat} (hlo : 179 ≤ d) (hhi : d ≤ 1665) :
    249 ≤ scale d ∧ scale d ≤ 1281 ∧ clamp (scale d) = 320 := by
  have e : 249 ≤ scale d := by rw [scale_eq]; omega
  exact ⟨e, scale_le hhi, by rw [clamp_eq, if_pos e]⟩

/-- The operand with the digits `h`, `t` and `u` in nibbles 2, 1 and 0. -/
def packDigits (h t u : Nat) : Word := BitVec.ofNat 16 (h * 256 + t * 16 + u)

theorem bcd2dec_packDigits {h t u : Nat} (hh : h < 16) (ht : t < 16) (hu : u < 16) :
    bcd2dec (packDigits h t u) = h * 100 + t * 10 + u := by
  have e : (packDigits h t u).toNat = h * 256 + t * 16 + u := by
    rw [packDigits, BitVec.toNat_ofNat]; omega
  simp only [bcd2dec, e]
  omega

/-- Every number of three decimal digits is an operand's (rule R90). -/
theorem exists_bcd2dec_eq {d : Nat} (h : d ≤ 999) : ∃ p : Word, bcd2dec p = d := by
  refine ⟨packDigits (d / 100) (d / 10 % 10) (d % 10), ?_⟩
  rw [bcd2dec_packDigits (by omega) (by omega) (by omega)]
  omega

/-- Every attainable duty is the clamped one at some degree below 180 (rule R94). -/
theorem exists_clamp_scale_eq {d : Nat} (h : Attainable d) :
    ∃ deg, deg ≤ 179 ∧ clamp (scale deg) = d := by
  obtain rfl | ⟨hlo, hhi⟩ | rfl := h
  · exact ⟨0, by omega, (clamp_scale_low (by omega)).2⟩
  · obtain ⟨deg, h2, h178, e⟩ : ∃ deg, 2 ≤ deg ∧ deg ≤ 178 ∧ scale deg = d := by
      refine ⟨((d - 125) * 10000 + 6943) / 6944, ?_⟩
      rw [scale_eq]
      omega
    obtain ⟨-, -, hclamp⟩ := clamp_scale_middle h2 h178
    exact ⟨deg, by omega, hclamp.trans e⟩
  · obtain ⟨-, -, hclamp⟩ := clamp_scale_high (d := 179) (by omega) (by omega)
    exact ⟨179, by omega, hclamp⟩

theorem attainable_iff_exists_clampedOf (d : Nat) : Attainable d ↔ ∃ p : Word, clampedOf p = d := by
  constructor
  · intro h
    obtain ⟨deg, hdeg, e⟩ := exists_clamp_scale_eq h
    obtain ⟨p, hp⟩ := exists_bcd2dec_eq (d := deg) (by omega)
    exact ⟨p, by rw [clampedOf, hp, e]⟩
  · rintro ⟨p, rfl⟩
    exact attainable_clampedOf p

/-- Settles O12: one lemma per row of the map, and an operand for every attainable duty. -/
theorem clampedDutyByDegrees : Obligations.ClampedDutyByDegrees :=
  ⟨fun p => ⟨clamp_scale_low, clamp_scale_middle, fun h => clamp_scale_high h (bcd2dec_le p),
    bcd2dec_le p⟩, attainable_iff_exists_clampedOf⟩

/-! ### An ANGLE from rest -/

section
variable {l : Line} {s : State}

/-- Where the indicator is found set at the first poll, ANGLE ends with the run of `wait_to_end`. -/
theorem exec_angle_of_set (hs : s.atRest) (hroom : s.hostAccepts) (hr : s.noReset)
    (hf : s.indicatorAtPoll (adopts (clampedOf (foldLine l)) s.blk.prevDuty.toNat) = true) :
    ∃ u, exec (.angle l) s = .next (collectDone u) ∧
      u.blk = { (angleConverted (foldLine l) s).blk with phase := .idle, done := true } ∧
      u.trace = (angleAtWait (foldLine l) s).trace ++
        [.pwm (.poll true), .pwm .clearFlag, .out (.angleEcho (foldLine l)), .done] ∧
      u.pwm.period = 2500#16 ∧
      u.pwm.compare = (angleConverted (foldLine l) s).blk.duty + 1#16 ∧
      u.pwm.mode = .edgeAligned ∧ u.mem = s.mem ∧ u.cfg = s.cfg ∧ u.room = none := by
  obtain ⟨hp, -, -, -, hvalid, -⟩ := angleConverted_blk (foldLine l) s
  rw [← indicator_at_poll (foldLine l) s hr] at hf
  obtain ⟨u, hrun, hblk, htrace, hperiod, hcompare, hmode, hmem, hcfg, hroom'⟩ :=
    wait_to_end (angleAtWait (foldLine l) s) 299991 (by rw [angleAtWait_blk])
      (by rw [angleAtWait_blk]; exact hvalid) (angleAtWait_room hroom) (angleAtWait_noReset hr) hf
  refine ⟨u, ?_, ?_, ?_, hperiod.trans (angleAtWait_period _ _),
    hcompare.trans (angleAtWait_compare _ _), hmode.trans (angleAtWait_mode _ _),
    hmem.trans (angleAtWait_mem _ _), hcfg.trans (angleAtWait_cfg _ _), hroom'⟩
  · rw [exec_angle_eq l s hs, show seqFuel = 299991 + 4 + 5 from rfl, angle_reaches_wait _ _ hs hr,
      hrun]
  · rw [hblk, angleAtWait_blk]
  · rw [htrace, angleAtWait_blk, hp]

/-- Where it is found clear, ANGLE stands in `A_WAIT` after one poll (rule R116). -/
theorem exec_angle_of_clear (hs : s.atRest) (hr : s.noReset)
    (hf : s.indicatorAtPoll (adopts (clampedOf (foldLine l)) s.blk.prevDuty.toNat) = false) :
    exec (.angle l) s = .next (pwmPoll (worldTurn (angleAtWait (foldLine l) s))) := by
  obtain ⟨-, -, -, -, -, hdone⟩ := angleConverted_blk (foldLine l) s
  rw [← indicator_at_poll (foldLine l) s hr] at hf
  rw [exec_angle_eq l s hs, show seqFuel = 299994 + 1 + 5 from rfl, angle_reaches_wait _ _ hs hr,
    wait_stands _ _ (by rw [angleAtWait_blk]) (angleAtWait_noReset hr) hf]
  simp [collectDone, angleAtWait_blk, hdone]

end

/-- Settles O16: the run ends as `exec_angle_of_set` says, and the environment takes `done` back. -/
theorem angleCompletes : Obligations.AngleCompletes := by
  intro l s hs hroom hr hf
  obtain ⟨u, hexec, hblk, htrace, hperiod, hcompare, hmode, hmem, hcfg, hroom'⟩ :=
    exec_angle_of_set hs hroom hr hf
  obtain ⟨hp, hprev, hduty, hadopt, hvalid, -⟩ := angleConverted_blk (foldLine l) s
  refine ⟨_, hexec, ?_⟩
  rw [angleAtWait_trace, angleConverted_trace] at htrace
  simp [collectDone, State.atRest, State.hostAccepts, hblk, htrace, hperiod, hcompare, hmode, hmem,
    hcfg, hroom', hp, hprev, hduty, hadopt, hvalid]

/-- Settles O17: the state in `A_WAIT` after one turn and one poll, register by register. -/
theorem angleStandsWhileNoCycleCompletes : Obligations.AngleStandsWhileNoCycleCompletes := by
  refine ⟨fun l s hs hr hf => ⟨_, exec_angle_of_clear hs hr hf, ?_⟩,
    fun s adopt => indicatorAtPoll_of_noCycle adopt⟩
  obtain ⟨hp, hprev, hduty, -, -, -⟩ := angleConverted_blk (foldLine l) s
  rw [← indicator_at_poll (foldLine l) s hr] at hf
  simp [angleAtWait_blk, angleAtWait_trace, angleAtWait_period, angleAtWait_compare, angleAtWait_mode,
    angleAtWait_mem, angleAtWait_interp, angleAtWait_stage, angleConverted_trace, hp, hprev, hduty, hf]

end Sys2Proof.Machine

/-! SUPPORT. The cycle-complete indicator over every step (spec/42_pwm_sync.md rules R112, R118). -/

namespace Sys2Proof.Machine

/-- From `s` to `t` the history has grown, and a set indicator is still set unless a clear or a counter
reset has joined the history. -/
def FlagSticks (s t : State) : Prop :=
  ∃ new, t.trace = s.trace ++ new ∧ (s.pwm.cycleFlag = true →
    t.pwm.cycleFlag = true ∨ .pwm .clearFlag ∈ new ∨ .pwm .counterReset ∈ new)

theorem FlagSticks.refl (s : State) : FlagSticks s s := ⟨[], by simp, .inl⟩

theorem FlagSticks.trans {s t u : State} (h : FlagSticks s t) (g : FlagSticks t u) :
    FlagSticks s u := by
  obtain ⟨new, ht, hf⟩ := h
  obtain ⟨more, hu, gf⟩ := g
  refine ⟨new ++ more, by rw [hu, ht, List.append_assoc], fun hs => ?_⟩
  simp only [List.mem_append]
  rcases hf hs with hset | hclear | hpulse
  · exact (gf hset).imp_right (Or.imp .inr .inr)
  · exact .inr (.inl (.inl hclear))
  · exact .inr (.inr (.inl hpulse))

/-- What leaves the indicator alone, or sets it, lets it stick. -/
theorem FlagSticks.of_flag {s t : State} (ht : ∃ new, t.trace = s.trace ++ new)
    (hf : s.pwm.cycleFlag = true → t.pwm.cycleFlag = true) : FlagSticks s t := by
  obtain ⟨new, ht⟩ := ht
  exact ⟨new, ht, fun hs => .inl (hf hs)⟩

/-- The counter reset of an adopting conversion joins the history (rule R96). -/
theorem flagSticks_converted (s : State) : FlagSticks s (converted s) := by
  refine ⟨_, converted_trace s, fun hs => ?_⟩
  rw [converted_flag, hs]
  by_cases ha : adopts (clampedOf s.blk.p) s.blk.prevDuty.toNat = true
  · exact .inr (.inr (by simp [ha]))
  · exact .inl (by simp [ha])

/-- No move but the conversion and `A_CLEAR` touches the indicator. -/
theorem PhaseMove.flag_eq {s t : State} (h : PhaseMove s t) (hconv : s.blk.phase ≠ .aConvert)
    (hclear : s.blk.phase ≠ .aClear) : t.pwm.cycleFlag = s.pwm.cycleFlag := by
  cases h with
  | converts hp => exact absurd hp hconv
  | clears hp => exact absurd hp hclear
  | _ => rfl

/-- Where the indicator is to be cleared, a move clears it or nothing happens. -/
theorem PhaseMove.eq_cleared {s t : State} (h : PhaseMove s t) (hp : s.blk.phase = .aClear) :
    t = (pwmClearFlag s).enter .aEcho ∨ t = s := by
  cases h with
  | stands => exact .inr rfl
  | clears => exact .inl rfl
  | _ => simp_all

theorem PhaseMove.flagSticks {s t : State} (h : PhaseMove s t) : FlagSticks s t := by
  by_cases hconv : s.blk.phase = .aConvert
  · rcases h.eq_converted hconv with rfl | rfl
    · exact flagSticks_converted s
    · exact .refl _
  by_cases hclear : s.blk.phase = .aClear
  · rcases h.eq_cleared hclear with rfl | rfl
    · exact ⟨[.pwm .clearFlag], rfl, fun _ => .inr (.inl (by simp))⟩
    · exact .refl _
  · obtain ⟨new, htrace, -⟩ := h.trace_grows
    exact .of_flag ⟨new, htrace⟩ (h.flag_eq hconv hclear).trans

theorem partsKeep_flagSticks (s0 : State) : PartsKeep (FlagSticks s0) where
  world s h := h.trans (.of_flag ⟨[], by simp⟩ worldTurn_flag)
  env _ _ h := h.trans (.of_flag ⟨[], by simp⟩ id)
  output _ _ _ h := h.trans (.of_flag ⟨[_], rfl⟩ id)
  offer _ _ _ h := h.trans (.of_flag ⟨[], by simp⟩ id)
  collect _ h := h.trans (.of_flag ⟨[], by simp⟩ id)
  phase s h := h.trans (phaseStep_moves s).flagSticks
  read _ _ h := h.trans (.of_flag ⟨[_], rfl⟩ id)
  write _ _ _ h := h.trans (.of_flag ⟨[_], rfl⟩ id)

theorem PhaseMove.world_eq {s t : State} (h : PhaseMove s t) : t.world = s.world := by
  cases h with
  | converts => exact converted_world s
  | _ => rfl

/-- The block never sets the indicator (rule R118 (a)). -/
theorem PhaseMove.flag_clear {s t : State} (h : PhaseMove s t) (hf : s.pwm.cycleFlag = false) :
    t.pwm.cycleFlag = false := by
  cases h with
  | converts => rw [converted_flag, hf, Bool.false_and]
  | clears => rfl
  | _ => exact hf

/-- No cycle is to come, and the indicator is clear. -/
def FlagClear (s : State) : Prop := s.noCycle ∧ s.pwm.cycleFlag = false

theorem partsKeep_flagClear : PartsKeep FlagClear where
  world _ h := ⟨worldTurn_noCycle h.1, worldTurn_flag_of_noCycle h.1 h.2⟩
  env _ _ h := h
  output _ _ _ h := h
  offer _ _ _ h := h
  collect _ h := h
  phase s h := by
    have hm := phaseStep_moves s
    exact ⟨by simpa only [State.noCycle, hm.world_eq] using h.1, hm.flag_clear h.2⟩
  read _ _ h := h
  write _ _ _ h := h

/-- Settles O54: a reset leaves the PWM port alone (rule R182), and every part of any other step lets a
set indicator stick; and no part of a step sets a clear one while no cycle completes. -/
theorem indicatorIsSticky : Obligations.IndicatorIsSticky := by
  refine ⟨fun s t h hs => ?_, fun s t h hn hf => ?_⟩
  · cases hr : resetNext s
    · obtain ⟨new, htrace, hf⟩ := (partsKeep_flagSticks s).step h (by simp [hr]) (.refl s)
      exact (hf hs).imp_right fun hmem => ⟨new, htrace, hmem⟩
    · have e : t = warmReset s := by simpa [step, hr] using h.symm
      exact .inl (e ▸ hs)
  · have hreset : FlagClear (warmReset s) := ⟨fun t ht => hn t (List.mem_of_mem_tail ht), hf⟩
    obtain ⟨-, hclear⟩ := partsKeep_flagClear.step h (fun _ => hreset) ⟨hn, hf⟩
    exact hclear

end Sys2Proof.Machine

/-! SUPPORT. What an ANGLE leaves on the PWM port (spec/42_pwm_sync.md rule R119), wherever it stops:
what has been written stands, COMPARE is written once, and only an adopting command changes `prev_duty`. -/

namespace Sys2Proof.Machine

section
variable {s t : State}

/-! ### What has been written stands -/

/-- The port as PWM_SYNC programs it (rules R113 to R115). -/
def State.programmed (s : State) : Prop :=
  s.pwm.period = 2500#16 ∧ s.pwm.compare = s.blk.prevDuty + 1#16 ∧ s.pwm.mode = .edgeAligned

/-- Outside PWM_SYNC nothing has been written. -/
theorem written_eq_zero {p : Phase} (h : p.syncing = false) : p.written = 0 := by
  cases p with
  | aPeriod | aCompare | aMode | aWait | aClear | aEcho => cases h
  | _ => rfl

theorem portInv_of_not_syncing (h : s.blk.phase.syncing = false) : PortInv s := by
  simp [PortInv, h, written_eq_zero h]

/-- From `A_WAIT` on the port is programmed. -/
theorem PortInv.programmed (h : PortInv s) (hw : s.blk.phase.written = 3) : s.programmed := by
  obtain ⟨-, hperiod, hcompare, hmode⟩ := h
  exact ⟨hperiod (by omega), hcompare (by omega), hmode (by omega)⟩

/-- A conversion makes `duty` and `prev_duty` one, each phase of PWM_SYNC writes its register, and no
other move touches what is written. -/
theorem PhaseMove.portInv (h : PhaseMove s t) (hs : PortInv s) : PortInv t := by
  obtain ⟨hduty, hperiod, hcompare, hmode⟩ := id hs
  cases h with
  | stands | waits => exact hs
  | converts => simp [PortInv, converted_phase, converted_duty_eq, Phase.written]
  | period hp =>
    have hd := hduty (by simp [hp, Phase.syncing])
    simp [PortInv, Phase.written, hd, Config.pwmPeriod]
  | compare hp =>
    have hd := hduty (by simp [hp, Phase.syncing])
    have h1 := hperiod (by simp [hp, Phase.written])
    simp [PortInv, Phase.written, hd, h1, compareValue, Config.compareAdj]
  | mode hp =>
    have hd := hduty (by simp [hp, Phase.syncing])
    have h1 := hperiod (by simp [hp, Phase.written])
    have h2 := hcompare (by simp [hp, Phase.written])
    simp [PortInv, hd, h1, h2]
  | polls hp | clears hp =>
    have hd := hduty (by simp [hp, Phase.syncing])
    obtain ⟨h1, h2, h3⟩ := hs.programmed (by simp [hp, Phase.written])
    simp [PortInv, hd, h1, h2, h3]
  | check =>
    refine portInv_of_not_syncing ?_
    simp only [State.enter_blk]; split <;> rfl
  | marks hp => exact portInv_of_not_syncing (by simp [setFail_eq, hp, Phase.syncing])
  | _ => exact portInv_of_not_syncing rfl

theorem partsKeep_portInv : PartsKeep PortInv where
  world s h := by simpa [PortInv] using h
  env _ _ h := h
  output _ _ _ h := h
  offer _ _ _ h := h
  collect _ h := h
  phase s h := (phaseStep_moves s).portInv h
  read _ _ h := h
  write _ _ _ h := h

/-! ### COMPARE is written once -/

/-- How often COMPARE has been written. -/
def State.compareWrites (s : State) : Nat := (s.trace.filter PortEvent.writesCompare).length

/-- How often the command that stands in a phase will still write COMPARE (rule R111). -/
def Phase.compareOwed : Phase → Nat
  | .aConvert | .aPeriod | .aCompare => 1
  | _ => 0

/-- ANGLE is on offer. -/
def State.angleOffered (s : State) : Bool := s.blk.cmdValid && decide (s.blk.cmdSel = selAngle)

/-- How often the command that runs and the command on offer will still write COMPARE. -/
def State.compareOwed (s : State) : Nat := s.blk.phase.compareOwed + s.angleOffered.toNat

theorem compareWrites_append {new : List PortEvent} (h : t.trace = s.trace ++ new) :
    t.compareWrites = s.compareWrites + (new.filter PortEvent.writesCompare).length := by
  simp [State.compareWrites, h]

/-- A conversion writes the converter's registers, not COMPARE. -/
theorem converted_compareWrites (s : State) : (converted s).compareWrites = s.compareWrites := by
  rw [compareWrites_append (converted_trace s)]
  split <;> rfl

theorem converted_angleOffered (s : State) : (converted s).angleOffered = s.angleOffered := by
  simp [State.angleOffered, converted_cmdValid, converted_cmdSel]

theorem PhaseMove.angleOffered_eq (h : PhaseMove s t) (hb : s.blk.phase ≠ .idle) :
    t.angleOffered = s.angleOffered := by
  obtain ⟨hvalid, hsel, -⟩ := h.offer_eq hb
  simp [State.angleOffered, hvalid, hsel]

/-- A move of a busy block pays off what it writes. -/
theorem PhaseMove.compares_eq_of_busy (h : PhaseMove s t) (hb : s.blk.phase ≠ .idle) :
    t.compareWrites + t.blk.phase.compareOwed = s.compareWrites + s.blk.phase.compareOwed := by
  cases h with
  | stands => rfl
  | takesDiag hp | takesAngle hp | turnsAway hp | reportsInvalid hp => exact absurd hp hb
  | converts hp => rw [converted_compareWrites, converted_phase, hp]; rfl
  | compare hp => rw [compareWrites_append (s := s) rfl, hp]; rfl
  | check hp =>
    rw [hp, State.enter_blk]
    split <;> rfl
  | _ => simp_all [State.compareWrites, Phase.compareOwed, PortEvent.writesCompare, setFail_eq,
    setFailAddr_eq]

/-- Every move pays off what it writes; an acceptance owes what was on offer. -/
theorem PhaseMove.compares_eq (h : PhaseMove s t) :
    t.compareWrites + t.compareOwed = s.compareWrites + s.compareOwed := by
  by_cases hb : s.blk.phase = .idle
  · cases h with
    | stands => rfl
    | takesDiag hp _ hs =>
      have e : selDiag ≠ selAngle := by decide
      simp [State.compareWrites, State.compareOwed, State.angleOffered, Phase.compareOwed, hp, hs, e]
    | takesAngle | turnsAway | reportsInvalid =>
      simp_all [State.compareWrites, State.compareOwed, State.angleOffered, Phase.compareOwed,
        PortEvent.writesCompare]
    | marks hp | waits hp => rw [hp] at hb; cases hb
    | _ => simp_all
  · have hbusy := h.compares_eq_of_busy hb
    rw [State.compareOwed, State.compareOwed, h.angleOffered_eq hb]
    omega

theorem runBlock_compares_eq (h : runBlock s = .next t) :
    t.compareWrites + t.compareOwed = s.compareWrites + s.compareOwed := by
  refine runBlock_keeps
    (Q := fun u => u.compareWrites + u.compareOwed = s.compareWrites + s.compareOwed)
    (fun u hu => ?_) (fun u v hm hu => hm.compares_eq.trans hu) (fun u hu => ?_) h rfl
  · simpa [State.compareWrites, State.compareOwed, State.angleOffered] using hu
  · exact (collectDone_part (fun u => u.compareWrites + u.compareOwed) u rfl).trans hu

/-- A run of the block that owes nothing at its end has paid what was owed at its start. -/
theorem runBlock_newCompares (h : runBlock s = .next t) (ho : t.compareOwed = 0) :
    ∃ new, t.trace = s.trace ++ new ∧
      (new.filter PortEvent.writesCompare).length = s.compareOwed := by
  obtain ⟨new, htrace, -⟩ := (partsKeep_pulseTells s).runBlock h (.refl s)
  have hpaid := runBlock_compares_eq h
  rw [compareWrites_append htrace, ho] at hpaid
  exact ⟨new, htrace, by omega⟩

/-! ### What stands once it is converted, and once it is written -/

/-- Nothing is on offer, and what runs has converted already or has ended. -/
def State.pastConvert (s : State) : Prop :=
  s.blk.cmdValid = false ∧ (s.blk.phase.syncing = true ∨ s.blk.phase = .idle)

/-- Nothing is on offer, and what runs has written the three registers already or has ended. -/
def State.pastMode (s : State) : Prop :=
  s.blk.cmdValid = false ∧ (s.blk.phase.written = 3 ∨ s.blk.phase = .idle)

/-- After the conversion no move touches `prev_duty` or `adopt`. -/
theorem PhaseMove.past_convert (h : PhaseMove s t) (hs : s.pastConvert) :
    t.pastConvert ∧ t.blk.prevDuty = s.blk.prevDuty ∧ t.blk.adopt = s.blk.adopt := by
  obtain ⟨hv, hph⟩ := id hs
  cases h with
  | stands | waits => exact ⟨hs, rfl, rfl⟩
  | period | compare | mode | polls | clears => exact ⟨⟨hv, .inl rfl⟩, rfl, rfl⟩
  | echoes => exact ⟨⟨hv, .inr rfl⟩, rfl, rfl⟩
  | _ => simp_all [Phase.syncing]

/-- What ANGLE leaves: the port's registers, `prev_duty` and `adopt`. -/
def State.portPart (s : State) :=
  (s.pwm.period, s.pwm.compare, s.pwm.mode, s.blk.prevDuty, s.blk.adopt)

/-- After `A_MODE` no move touches the port's registers either. -/
theorem PhaseMove.past_mode (h : PhaseMove s t) (hs : s.pastMode) :
    t.pastMode ∧ t.portPart = s.portPart := by
  obtain ⟨hv, hph⟩ := id hs
  cases h with
  | stands | waits => exact ⟨hs, rfl⟩
  | polls | clears => exact ⟨⟨hv, .inl rfl⟩, rfl⟩
  | echoes => exact ⟨⟨hv, .inr rfl⟩, rfl⟩
  | _ => simp_all [Phase.written]

theorem runBlock_past_mode (h : runBlock s = .next t) (hs : s.pastMode) :
    t.pastMode ∧ t.portPart = s.portPart := by
  refine runBlock_keeps (Q := fun u => u.pastMode ∧ u.portPart = s.portPart) (fun u hu => ?_)
    (fun u v hm hu => ?_) (fun u hu => ?_) h ⟨hs, rfl⟩
  · simpa [State.pastMode, State.portPart] using hu
  · obtain ⟨hpast, hpart⟩ := hm.past_mode hu.1
    exact ⟨hpast, hpart.trans hu.2⟩
  · exact ⟨(collectDone_part State.pastMode u rfl).mpr hu.1,
      (collectDone_part State.portPart u rfl).trans hu.2⟩

/-- After `A_MODE` nothing is owed. -/
theorem State.pastMode.compareOwed_eq (h : s.pastMode) : s.compareOwed = 0 := by
  obtain ⟨hv, hw | hp⟩ := h
  · have hphase : s.blk.phase.compareOwed = 0 := by
      cases hp : s.blk.phase with
      | aConvert | aPeriod | aCompare => rw [hp] at hw; cases hw
      | _ => rfl
    simp [State.compareOwed, State.angleOffered, hv, hphase]
  · simp [State.compareOwed, State.angleOffered, hv, hp, Phase.compareOwed]

/-- A command that runs has nothing on offer. -/
theorem State.hasOneCommand.pastMode (h : s.hasOneCommand) (hw : s.blk.phase.written = 3) :
    s.pastMode := by
  obtain ⟨-, ⟨hp, -⟩ | ⟨-, hv⟩⟩ := h
  · rw [hp] at hw; cases hw
  · exact ⟨hv, .inl hw⟩

/-! ### A run of ANGLE, wherever it stands -/

/-- Where a block with an ANGLE becomes done, it was at the echo. -/
theorem PhaseMove.done_at_echo (h : PhaseMove s t) (hs : s.hasOneCommand) (hw : s.walkDue = false)
    (ht : t.blk.done = true) :
    s.blk.phase = .aEcho ∧ t.pwm = s.pwm ∧ t.blk.prevDuty = s.blk.prevDuty := by
  obtain ⟨hdone, hcmd⟩ := hs
  obtain ⟨hwalk, -⟩ := walkDue_eq_false_iff.1 hw
  cases h with
  | echoes hp => exact ⟨hp, rfl, rfl⟩
  | endsWalk hp => rw [hp] at hwalk; cases hwalk
  | turnsAway hp _ hd ha | reportsInvalid hp _ hd ha => simp_all
  | converts => rw [converted_done, hdone] at ht; cases ht
  | _ => simp_all [setFail_eq, setFailAddr_eq]

/-- `prev_duty` is as in `s`, or a conversion has adopted and none is to come. -/
def AdoptTells (s u : State) : Prop :=
  u.blk.prevDuty = s.blk.prevDuty ∨ (u.blk.adopt = true ∧ u.pastConvert)

theorem AdoptTells.move {u v : State} (h : AdoptTells s u) (hm : PhaseMove u v)
    (hv : u.blk.phase = .aConvert → u.blk.cmdValid = false) : AdoptTells s v := by
  rcases h with h | ⟨hadopt, hpast⟩
  · by_cases hp : u.blk.phase = .aConvert
    · rcases hm.eq_converted hp with rfl | rfl
      · unfold AdoptTells
        rw [converted_prevDuty, converted_adopt]
        split
        · rename_i ha
          exact .inr ⟨ha, (converted_cmdValid u).trans (hv hp), .inl (by rw [converted_phase]; rfl)⟩
        · exact .inl h
      · exact .inl h
    · obtain ⟨hprev, -, -⟩ := hm.duties hp
      exact .inl (hprev.trans h)
  · obtain ⟨hpast', -, hadopt'⟩ := hm.past_convert hpast
    exact .inr ⟨hadopt'.trans hadopt, hpast'⟩

/-- From `s` to `u` an ANGLE has run for the environment. -/
structure AngleRun (s u : State) : Prop where
  run : BlockRun u
  noWalk : u.walkDue = false
  port : PortInv u
  programmed : u.blk.done = true → u.programmed
  adopts : AdoptTells s u

theorem AngleRun.worldTurn {u : State} (h : AngleRun s u) : AngleRun s (worldTurn u) where
  run := h.run.worldTurn
  noWalk := by simpa [State.walkDue] using h.noWalk
  port := partsKeep_portInv.world u h.port
  programmed := by simpa [State.programmed] using h.programmed
  adopts := by simpa [AdoptTells, State.pastConvert] using h.adopts

theorem AngleRun.move {u v : State} (h : AngleRun s u) (hm : PhaseMove u v) : AngleRun s v := by
  obtain ⟨hw, hstage⟩ := id h.run
  rcases hstage with hone | hfin
  · refine ⟨h.run.move hm, (hm.walker_frame h.noWalk).2, hm.portInv h.port, fun hdone => ?_, ?_⟩
    · obtain ⟨hp, hpwm, hprev⟩ := hm.done_at_echo hone h.noWalk hdone
      rw [State.programmed, hpwm, hprev]
      exact h.port.programmed (by rw [hp]; rfl)
    · refine h.adopts.move hm fun hp => ?_
      obtain ⟨-, ⟨hidle, -⟩ | ⟨-, hv⟩⟩ := hone
      · rw [hp] at hidle; cases hidle
      · exact hv
  · rwa [hm.eq_of_finished hfin]

/-- A run of the block with an ANGLE due, at the moment before the environment takes `done` back. -/
theorem angleRun_of_runBlock (h : runBlock s = .next t) (hw : s.waitsForBlock) (hs : s.hasOneCommand)
    (hn : s.walkDue = false) (hport : PortInv s) : ∃ u, AngleRun s u ∧ t = collectDone u := by
  obtain ⟨-, rfl⟩ := runBlock_next h
  have hstep := seqStep_keeps (fun _ hu => AngleRun.worldTurn (s := s) hu)
    fun u hu => hu.move (phaseStep_moves u)
  refine ⟨_, seqRun_keeps hstep _ _ ⟨⟨hw, .inl hs⟩, hn, hport, fun hd => ?_, .inl rfl⟩, rfl⟩
  rw [hs.1] at hd; cases hd

/-- Where the environment is back at the menu, or ANGLE stands in `A_WAIT` or after it, the port is
programmed and not to be written again. -/
theorem AngleRun.ends {u : State} (h : AngleRun s u)
    (ht : (collectDone u).env.interp = .showMenu ∨ (collectDone u).blk.phase.written = 3) :
    (collectDone u).programmed ∧ (collectDone u).pastMode := by
  obtain ⟨⟨hi, -⟩, hone | ⟨hp, hv, hdone⟩⟩ := h.run
  · rw [collectDone, if_neg (by simp [hone.1])] at ht ⊢
    have hw : u.blk.phase.written = 3 := by simpa [hi] using ht
    exact ⟨h.port.programmed hw, hone.pastMode hw⟩
  · exact ⟨(collectDone_part State.programmed u rfl).mpr (h.programmed hdone),
      (collectDone_part State.pastMode u rfl).mpr ⟨hv, .inr hp⟩⟩

theorem AngleRun.adopts_collectDone {u : State} (h : AngleRun s u) : AdoptTells s (collectDone u) :=
  (collectDone_part (AdoptTells s) u rfl).mpr h.adopts

/-- A step in which an ANGLE that waited goes on, or starts, is a run of the block with that ANGLE. -/
theorem angle_of_angleDue (hr : resetNext s = false) (hi : SessionInv s) (hd : s.angleDue = true)
    (h : step s = .next t) :
    runBlock s = .next t ∧ s.waitsForBlock ∧ s.hasOneCommand ∧ s.walkDue = false := by
  obtain ⟨hrun, -, hinterp, hstage, hcmd⟩ := step_of_angleDue hr hi hd h
  refine ⟨hrun, ⟨hinterp, hstage⟩, (sessionInv_of_waits ⟨hinterp, hstage⟩).1 hi, ?_⟩
  rw [walkDue_eq_false_iff]
  rcases hcmd with ⟨hconv, hv⟩ | ⟨hp, -, hs⟩
  · refine ⟨Bool.eq_false_iff.2 fun hw => ?_, by simp [hv]⟩
    rw [converting_eq_false_of_walking hw] at hconv; cases hconv
  · exact ⟨by rw [hp]; rfl, fun _ => by rw [hs]; decide⟩

/-- ANGLE from rest is a run of the block with that ANGLE. -/
theorem angle_of_atRest (hs : s.atRest) (arg : Word) :
    (present selAngle arg s).hasOneCommand ∧ (present selAngle arg s).walkDue = false ∧
      PortInv (present selAngle arg s) ∧ (present selAngle arg s).compareOwed = 1 := by
  obtain ⟨hp, -, hdone⟩ := id hs
  exact ⟨⟨hdone, .inl ⟨hp, rfl, .inr rfl⟩⟩, walkDue_present_angle hs arg,
    portInv_of_not_syncing (by rw [show (present selAngle arg s).blk.phase = .idle from hp]; rfl),
    by simp [State.compareOwed, State.angleOffered, Phase.compareOwed, present, hp]⟩

end

/-- Settles O20: a run of an ANGLE keeps `AngleRun`, which says how it ends; what it owes of COMPARE is
paid then; and from `A_WAIT` on no move touches the port. -/
theorem angleLeavesThePortProgrammed : Obligations.AngleLeavesThePortProgrammed := by
  refine ⟨fun l s t hs h => ⟨?_, fun ht => ?_⟩, fun s t hr hi hport hd h => ?_,
    fun s t h => partsKeep_portInv.step h fun _ => portInv_of_not_syncing rfl⟩
  · exact partsKeep_portInv.exec h (portInv_of_not_syncing (by rw [hs.1]; rfl))
  · obtain ⟨hone, hn, hport, howed⟩ := angle_of_atRest hs (foldLine l)
    have hrun : runBlock (present selAngle (foldLine l) s) = .next t := h
    obtain ⟨u, hu, rfl⟩ := angleRun_of_runBlock hrun ⟨rfl, rfl⟩ hone hn hport
    obtain ⟨⟨hperiod, hcompare, hmode⟩, hpast⟩ := hu.ends ht
    refine ⟨hperiod, hcompare, hmode, ?_, fun hagree hne => ?_⟩
    · obtain ⟨new, htrace, hnew⟩ := runBlock_newCompares hrun hpast.compareOwed_eq
      exact ⟨new, htrace, hnew.trans howed⟩
    · rcases hu.adopts_collectDone with hprev | ⟨hadopt, -⟩
      · exact absurd (by rw [hcompare, hagree, hprev]; rfl) hne
      · exact hadopt
  · obtain ⟨hrun, hwaits, hone, hn⟩ := angle_of_angleDue hr hi hd h
    refine ⟨fun ht => ?_, fun hw => ?_⟩
    · obtain ⟨u, hu, rfl⟩ := angleRun_of_runBlock hrun hwaits hone hn hport
      exact (hu.ends (.inl ht)).1
    · obtain ⟨hpast, hpart⟩ := runBlock_past_mode hrun (hone.pastMode hw)
      obtain ⟨new, htrace, hnew⟩ := runBlock_newCompares hrun hpast.compareOwed_eq
      rw [(hone.pastMode hw).compareOwed_eq] at hnew
      simp only [State.portPart, Prod.mk.injEq] at hpart
      obtain ⟨hperiod, hcompare, hmode, hprev, hadopt⟩ := hpart
      exact ⟨hperiod, hcompare, hmode, hprev, hadopt, new, htrace, List.length_eq_zero_iff.1 hnew⟩

end Sys2Proof.Machine

/-! SUPPORT. An ANGLE that stands in `A_WAIT` (spec/42_pwm_sync.md rules R116 to R118): it polls once a
step while no cycle completes, and runs to its end in the step whose turn completes one. -/

namespace Sys2Proof.Machine

/-! ### The phases that touch the PWM port -/

/-- Settles O14: each phase is its one port action and the move to the next phase. -/
theorem pwmPhasesWriteTheirRegister : Obligations.PwmPhasesWriteTheirRegister :=
  fun _ => ⟨rfl, rfl, rfl, rfl⟩

theorem aWait_of_set {s : State} (hf : s.pwm.cycleFlag = true) :
    aWait s = .go ((record (.pwm (.poll true)) s).enter .aClear) := by
  rw [aWait, cycleComplete, if_pos hf, pwmPoll, hf]

theorem aWait_of_clear {s : State} (hf : s.pwm.cycleFlag = false) :
    aWait s = .stop (record (.pwm (.poll false)) s) := by
  rw [aWait, cycleComplete, if_neg (by simp [hf]), pwmPoll, hf]

/-- Settles O15: the two outcomes of one poll. -/
theorem waitIsOnTheIndicator : Obligations.WaitIsOnTheIndicator :=
  fun _ => ⟨aWait_of_set, aWait_of_clear⟩

/-! ### Runs of the machine -/

theorem coreRun_of_step {s t : State} (h : step s = .next t) (n : Nat) :
    Host.Core.run core (n + 1) s = Host.Core.run core n t := by
  simp only [Host.Core.run, show core.step s = .next t from h]

/-- A run of `n` steps that answers `t` is followed by what `t` does next. -/
theorem coreRun_add {n : Nat} {s t : State} (h : Host.Core.run core n s = .next t) (m : Nat) :
    Host.Core.run core (n + m) s = Host.Core.run core m t := by
  induction n generalizing s with
  | zero =>
    obtain rfl : s = t := Host.Outcome.next.inj h
    rw [Nat.zero_add]
  | succ n ih =>
    cases hstep : step s with
    | next u =>
      rw [coreRun_of_step hstep] at h
      rw [Nat.succ_add, coreRun_of_step hstep, ih h]
    | fault r => simp [Host.Core.run, show core.step s = .fault r from hstep] at h
    | refused r => simp [Host.Core.run, show core.step s = .refused r from hstep] at h

section
variable {s t u : State} {n k : Nat}

/-! ### Polls that find the indicator clear -/

/-- An ANGLE stands in `A_WAIT`, and no reset is to come. -/
structure AngleWaits (s : State) : Prop where
  phase : s.blk.phase = .aWait
  inv : SessionInv s
  noReset : s.noReset

/-- From `s` to `t` the block has polled `n` times and found the indicator clear; otherwise only the outside
world has acted, `n` turns of it. -/
structure Polled (n : Nat) (s t : State) : Prop where
  trace : t.trace = s.trace ++ List.replicate n (.pwm (.poll false))
  blk : t.blk = s.blk
  mem : t.mem = s.mem
  compare : t.pwm.compare = s.pwm.compare
  room : s.room = none → t.room = none
  world : t.world = s.world.drop n
  flag : t.pwm.cycleFlag = false

/-- No poll yet. -/
theorem Polled.zero (hf : s.pwm.cycleFlag = false) : Polled 0 s s where
  trace := by simp
  blk := rfl
  mem := rfl
  compare := rfl
  room := id
  world := rfl
  flag := hf

theorem Polled.trans (h : Polled k s t) (g : Polled n t u) : Polled (k + n) s u where
  trace := by rw [g.trace, h.trace, List.append_assoc, List.replicate_append_replicate]
  blk := g.blk.trans h.blk
  mem := g.mem.trans h.mem
  compare := g.compare.trans h.compare
  room := g.room ∘ h.room
  world := by rw [g.world, h.world, List.drop_drop]
  flag := g.flag

/-- A turn that leaves the indicator clear is followed by one poll, and the wait goes on (rule R116). -/
theorem AngleWaits.poll (h : AngleWaits s) (hf : (worldTurn s).pwm.cycleFlag = false) :
    ∃ t, step s = .next t ∧ AngleWaits t ∧ Polled 1 s t := by
  have hstep := step_stays_in_aWait h.phase h.inv h.noReset hf
  refine ⟨_, hstep, ⟨?_, stepKeepsTheSingleThread _ _ hstep h.inv, worldTurn_noReset h.noReset⟩, ?_⟩
  · simpa using h.phase
  · exact {
      trace := by simp [hf]
      blk := by simp
      mem := by simp
      compare := by simp
      room := worldTurn_room
      world := worldTurn_world h.noReset
      flag := hf }

/-- While the world's next `n` turns complete no cycle, `n` steps are `n` polls (rule R168 (a)). -/
theorem AngleWaits.run_quiet (h : AngleWaits s) (hf : s.pwm.cycleFlag = false)
    (hquiet : ∀ t ∈ s.world.take n, t.cycles = false) :
    ∃ t, Host.Core.run core n s = .next t ∧ AngleWaits t ∧ Polled n s t := by
  induction n with
  | zero => exact ⟨s, rfl, h, .zero hf⟩
  | succ n ih =>
    rw [List.take_add, List.forall_mem_append] at hquiet
    obtain ⟨hbefore, hnext⟩ := hquiet
    obtain ⟨t, hrun, ht, hpolled⟩ := ih hbefore
    have hturn : (worldTurn t).pwm.cycleFlag = false := by
      rw [worldTurn_flag_eq ht.noReset, hpolled.flag, hpolled.world, Bool.or_false,
        List.any_eq_false]
      simpa using hnext
    obtain ⟨u, hstep, hu, hpoll⟩ := ht.poll hturn
    exact ⟨u, by rw [coreRun_add hrun, coreRun_of_step hstep]; rfl, hu, hpolled.trans hpoll⟩

/-! ### The poll that finds it set -/

/-- From `s` to `t` the block has polled `k` times in vain and once with success, cleared the indicator and
echoed the operand (rules R116, R117, R98), and the menu is next. -/
structure AngleEnds (k : Nat) (s t : State) : Prop where
  trace : t.trace = s.trace ++ List.replicate k (.pwm (.poll false)) ++
    [.pwm (.poll true), .pwm .clearFlag, .out (.angleEcho s.blk.p), .done]
  phase : t.blk.phase = .idle
  done : t.blk.done = false
  interp : t.env.interp = .showMenu
  prevDuty : t.blk.prevDuty = s.blk.prevDuty
  mem : t.mem = s.mem
  compare : t.pwm.compare = s.pwm.compare

theorem AngleEnds.of_polled (h : AngleEnds 0 t u) (g : Polled k s t) : AngleEnds k s u where
  trace := by rw [h.trace, g.trace, g.blk]; simp
  phase := h.phase
  done := h.done
  interp := h.interp
  prevDuty := by rw [h.prevDuty, g.blk]
  mem := h.mem.trans g.mem
  compare := h.compare.trans g.compare

/-- A turn after which the indicator is set is followed by the end of the command (rule R117). -/
theorem AngleWaits.ends (h : AngleWaits s) (hroom : s.hostAccepts)
    (hf : (worldTurn s).pwm.cycleFlag = true) : ∃ t, step s = .next t ∧ AngleEnds 0 s t := by
  obtain ⟨-, -, -, hvalid⟩ := sessionInv_aWait h.phase h.inv
  obtain ⟨u, hrun, hblk, htrace, -, hcompare, -, hmem, -, -⟩ :=
    wait_to_end s 299996 h.phase hvalid hroom h.noReset hf
  have hdone : Finished u := by simp [Finished, hblk, hvalid]
  obtain ⟨⟨hphase, -, htaken⟩, hmenu, -⟩ := collectDone_of_finished hdone
  have hstep : step s = .next (collectDone u) := by
    rw [step_aWait h.phase h.inv h.noReset, show seqFuel = 299996 + 4 from rfl, hrun]
  exact ⟨_, hstep, {
    trace := (collectDone_part State.trace u rfl).trans (by simpa using htrace)
    phase := hphase
    done := htaken
    interp := hmenu
    prevDuty := (collectDone_part (·.blk.prevDuty) u rfl).trans (by rw [hblk])
    mem := (collectDone_part State.mem u rfl).trans hmem
    compare := (collectDone_part (·.pwm.compare) u rfl).trans hcompare }⟩

/-- With `k` turns that complete no cycle and one that does, the command ends in step `k + 1`. -/
theorem AngleWaits.run_ends (h : AngleWaits s) (hroom : s.hostAccepts) (hf : s.pwm.cycleFlag = false)
    {quiet rest : List Turn} {a : Turn} (hw : s.world = quiet ++ a :: rest)
    (hquiet : ∀ t ∈ quiet, t.cycles = false) (ha : a.cycles = true) :
    ∃ t, Host.Core.run core (quiet.length + 1) s = .next t ∧ AngleEnds quiet.length s t := by
  obtain ⟨t, hrun, ht, hpolled⟩ := h.run_quiet (n := quiet.length) hf (by simpa [hw] using hquiet)
  have hturn : (worldTurn t).pwm.cycleFlag = true := by
    simp [worldTurn_flag_eq ht.noReset, hpolled.world, hw, ha]
  obtain ⟨u, hstep, hends⟩ := ht.ends (hpolled.room hroom) hturn
  exact ⟨u, by rw [coreRun_add hrun, coreRun_of_step hstep]; rfl, hends.of_polled hpolled⟩

end

/-- Settles O18: `AngleWaits.run_ends`, with the quiet turns as they are given. -/
theorem waitEndsWithTheCycle : Obligations.WaitEndsWithTheCycle := by
  intro s quiet a rest hp hi hroom hf hquiet ha hrest hw
  have hwaits : AngleWaits s := ⟨hp, hi, by simp [State.noReset, hw, hrest]⟩
  obtain ⟨t, hrun, hends⟩ := hwaits.run_ends hroom hf hw (by simpa [Turn.cycles] using hquiet) ha
  rw [List.length_map] at hrun hends
  exact ⟨t, hrun, hends.trace, hends.phase, hends.done, hends.interp, hends.prevDuty, hends.mem,
    hends.compare⟩

/-- Under `PwmLive` the command ends, in the first step that finds the indicator set. -/
theorem AngleWaits.ends_of_pwmLive {s : State} (h : AngleWaits s) (hlive : s.PwmLive)
    (hroom : s.hostAccepts) : ∃ (k : Nat) (t : State), k ≤ s.world.length ∧
      Host.Core.run core (k + 1) s = .next t ∧ AngleEnds k s t := by
  cases hf : s.pwm.cycleFlag with
  | true =>
    obtain ⟨t, hstep, hends⟩ := h.ends hroom (worldTurn_flag hf)
    exact ⟨0, t, Nat.zero_le _, by rw [coreRun_of_step hstep]; rfl, hends⟩
  | false =>
    obtain ⟨x, hx, hcycle⟩ := hlive.resolve_left (by simp [hf])
    obtain ⟨a, ha⟩ := Option.isSome_iff_exists.1 (List.find?_isSome.2 ⟨x, hx, hcycle⟩)
    obtain ⟨hset, quiet, rest, hw, hquiet⟩ := List.find?_eq_some_iff_append.1 ha
    obtain ⟨t, hrun, hends⟩ :=
      h.run_ends hroom hf hw (fun y hy => by simpa using hquiet y hy) hset
    exact ⟨quiet.length, t, by simp [hw], hrun, hends⟩

/-- Settles O19: the first turn that completes a cycle ends the wait, and without one every turn of the
script is quiet. -/
theorem pwmLiveDecidesTheWait : Obligations.PwmLiveDecidesTheWait := by
  intro s hp hi hr
  have hwaits : AngleWaits s := ⟨hp, hi, hr⟩
  refine ⟨fun hlive hroom => ?_, fun hdead n => ?_⟩
  · obtain ⟨k, t, hk, hrun, hends⟩ := hwaits.ends_of_pwmLive hlive hroom
    exact ⟨k, t, hk, hrun, hends.trace, hends.phase, hends.done, hends.interp, hends.prevDuty,
      hends.mem, hends.compare⟩
  · obtain ⟨hf, hquiet⟩ := not_or.1 hdead
    obtain ⟨t, hrun, ht, hpolled⟩ := hwaits.run_quiet (n := n) (by simpa using hf) fun x hx =>
      by simpa using fun hc => hquiet ⟨x, List.mem_of_mem_take hx, hc⟩
    obtain ⟨hinterp, hstage, -, -⟩ := sessionInv_aWait ht.phase ht.inv
    exact ⟨t, hrun, hpolled.trace, hpolled.blk, hpolled.mem, hinterp, hstage⟩

end Sys2Proof.Machine

/-! SUPPORT. The environment while it waits for a byte (spec/43_environment.md rule R131): what reading an
unfinished operand line does with nothing on the transport. -/

namespace Sys2Proof.Machine

section
variable {s : State}

/-- Without a byte the selector goes on being awaited (rules R131, R140). -/
theorem step_of_noSelector (hi : s.env.interp = .awaitSelector) (hr : resetNext s = false)
    (hrx : (worldTurn s).env.rx = []) : step s = .next (worldTurn s) := by
  simp [step, hr, sessionStep, hi, awaitSelector, hrx]

/-- With no byte left an unfinished command waits once its due prompt is sent. -/
theorem fetchFrom_nil_of_prompt {t : State}
    (hd : decode (s.env.sel :: s.env.received) = .error .lineUnfinished)
    (hsent : sendPrompt s = some t) : fetchFrom [] s = .waits t := by
  rw [fetchFrom, hd, hsent]; rfl

/-- A prompt is due for a line of PEEK or POKE that has had none (log 19). -/
theorem prompted_of_notDue
    (h : ¬ ((s.env.sel = 0x32#8 ∨ s.env.sel = 0x33#8) ∧ s.env.prompted = false)) :
    promptsFor s.env.sel = true → s.env.prompted = true := by
  rw [promptsFor_eq, decide_eq_true_iff]
  simpa using h

/-- The step of an operand line that gets no byte, as the Line Reader leaves it. -/
theorem step_of_noOperand {t : State} (hi : s.env.interp = .dispatch) (hs : s.env.stage = .operands)
    (hr : resetNext s = false) (hrx : (worldTurn s).env.rx = [])
    (h : fetchFrom [] (worldTurn s) = .waits t) : step s = .next t := by
  rw [step_of_operands hi hs hr, dispatch_of_waits (hrx ▸ h)]

end

/-- Settles O48: the selector and the operand line without a byte; the prompt is not due, not accepted, or
sent. -/
theorem waitingForAByteChangesNothing : Obligations.WaitingForAByteChangesNothing := by
  intro s hr hrx
  refine ⟨by simpa using worldTurn_flag, fun hi => step_of_noSelector hi hr hrx,
    fun hi hs hd => ⟨fun h => ?_, fun ⟨hsel, hp⟩ hroom => ?_⟩⟩ <;>
    rw [← worldTurn_sel, ← worldTurn_received] at hd <;>
    refine step_of_noOperand hi hs hr hrx ?_
  · by_cases hdue : (s.env.sel = 0x32#8 ∨ s.env.sel = 0x33#8) ∧ s.env.prompted = false
    · have hwait := sendPrompt_of_full (h.resolve_left (not_not.2 hdue)) (by simpa using hdue.1)
        (by simpa using hdue.2)
      exact fetchFrom_of_promptWaits hd hwait []
    · exact fetchFrom_nil_waits hd (prompted_of_notDue (by simpa using hdue))
  · refine fetchFrom_nil_of_prompt hd ?_
    rw [sendPrompt_of_due (by simpa using hsel) (by simpa using hp), send_of_room hroom]
    simp [record, State.setTrace, State.setRoom, State.setEnv]

end Sys2Proof.Machine

/-! SUPPORT. POKE's address accumulator (spec/43_environment.md rule R147): the 8-bit fold is the 16-bit fold
without its high byte, and two digits fill it. -/

namespace Sys2Proof.Machine

/-- The 8-bit fold step is the 16-bit one cut to its low byte. -/
theorem foldDigit8_setWidth (f : Word) (c : Byte) :
    foldDigit8 (f.setWidth 8) c = (foldDigit f c).setWidth 8 := by
  apply BitVec.eq_of_getLsbD_eq
  intro i hi
  simp [foldDigit8, foldDigit, hi]

/-- The 8-bit fold is the low byte of the 16-bit one, zero-extended. -/
theorem foldPokeAddress_eight (l : Line) :
    foldPokeAddress .eight l = ((foldLine l).setWidth 8).setWidth 16 :=
  congrArg (BitVec.setWidth 16)
    (List.foldl_hom (BitVec.setWidth 8) (init := 0#16) foldDigit8_setWidth)

/-- Two digits fill the 8-bit accumulator: nothing of what it held before is left. -/
theorem foldDigit8_foldDigit8 (f : Byte) (a b : Byte) :
    foldDigit8 (foldDigit8 f a) b = foldDigit8 (foldDigit8 0#8 a) b := by
  apply BitVec.eq_of_getLsbD_eq
  intro i hi
  have hshifted : i - 4 < 4 := by omega
  simp [foldDigit8, hshifted]

/-- The 8-bit fold of a line is that of its last two characters. -/
theorem foldl_foldDigit8_lastTwo (cs : List Byte) :
    cs.foldl foldDigit8 0#8 = (cs.drop (cs.length - 2)).foldl foldDigit8 0#8 := by
  by_cases hlong : 2 ≤ cs.length
  · obtain ⟨a, b, hlast⟩ : ∃ a b, cs.drop (cs.length - 2) = [a, b] :=
      List.length_eq_two.1 (by rw [List.length_drop]; omega)
    conv_lhs => rw [← List.take_append_drop (cs.length - 2) cs, List.foldl_append]
    rw [hlast]
    exact foldDigit8_foldDigit8 _ a b
  · rw [Nat.sub_eq_zero_of_le (by omega), List.drop_zero]

/-- Settles O10: the 8-bit fold is a low byte, and two digits fill it. -/
theorem pokeAddressWidth : Obligations.PokeAddressWidth := by
  refine fun l => ⟨rfl, ?_, congrArg (BitVec.setWidth 16) (foldl_foldDigit8_lastTwo l.chars)⟩
  rw [foldPokeAddress_eight, BitVec.toNat_setWidth, BitVec.toNat_setWidth]
  omega

end Sys2Proof.Machine

/-! SUPPORT. The handlers of PEEK, POKE and EXIT (spec/43_environment.md rules R143 to R148): one equation for each
branch, what the handler's answer does, and the byte POKE may change. -/

namespace Sys2Proof.Machine

section
variable {s t : State} {l la ld : Line}

/-! ### The branches of the handlers -/

/-- PEEK of an address the platform does not map (rule R144). -/
theorem exec_peek_of_unmapped (h : s.cfg.isUnmapped (foldLine l) = true) :
    exec (.peek l) s = .fault (.busFault (foldLine l)) :=
  if_pos h

/-- PEEK of a device register whose read has a side effect (log 17). -/
theorem exec_peek_of_sideEffect (hm : s.cfg.isUnmapped (foldLine l) = false)
    (he : s.cfg.readHasSideEffect (foldLine l) = true) :
    exec (.peek l) s = .fault (.deviceReadEffect (foldLine l)) :=
  (if_neg (Bool.eq_false_iff.1 hm)).trans (if_pos he)

/-- PEEK of any other address (rule R143). -/
theorem exec_peek_of_plain (hm : s.cfg.isUnmapped (foldLine l) = false)
    (he : s.cfg.readHasSideEffect (foldLine l) = false) :
    exec (.peek l) s = .next (answer (.peekValue ((s.mem.answer1 (foldLine l)).setWidth 16))
      (memRead1 (foldLine l) (s.setEnv { s.env with opAddr := foldLine l }))) :=
  (if_neg (Bool.eq_false_iff.1 hm)).trans (if_neg (Bool.eq_false_iff.1 he))

/-- The operand registers after POKE has folded its lines (rule R145). -/
def pokeOperands (la ld : Line) (s : State) : State :=
  s.setEnv { s.env with
    opAddr := foldPokeAddress s.cfg.pokeAddrBits la, opData := foldPokeData ld }

@[simp] theorem pokeOperands_blk : (pokeOperands la ld s).blk = s.blk := rfl
@[simp] theorem pokeOperands_pwm : (pokeOperands la ld s).pwm = s.pwm := rfl
@[simp] theorem pokeOperands_cfg : (pokeOperands la ld s).cfg = s.cfg := rfl
@[simp] theorem pokeOperands_mem : (pokeOperands la ld s).mem = s.mem := rfl

/-- POKE of an address that passes the bounds check (rule R145). -/
theorem exec_poke_of_allowed
    (h : s.cfg.pokeAllowed (foldPokeAddress s.cfg.pokeAddrBits la) = true) :
    exec (.poke la ld) s = .next (answer
      (.pokeDone ((foldPokeData ld).setWidth 16) (foldPokeAddress s.cfg.pokeAddrBits la))
      (memWrite1 (foldPokeAddress s.cfg.pokeAddrBits la) (foldPokeData ld) (pokeOperands la ld s))) :=
  if_pos h

/-- POKE of an address that fails it (rule R146). -/
theorem exec_poke_of_rejected
    (h : s.cfg.pokeAllowed (foldPokeAddress s.cfg.pokeAddrBits la) = false) :
    exec (.poke la ld) s = .next (answer .outOfRange (pokeOperands la ld s)) :=
  if_neg (Bool.eq_false_iff.1 h)

/-- The bounds check, on natural numbers (rule R146). -/
theorem pokeAllowed_iff (c : Config) (a : Word) : c.pokeAllowed a = true ↔
    (c.pokeSafeLo.toNat ≤ a.toNat ∧ a.toNat ≤ c.pokeSafeHi.toNat) ∨ a = c.pokeWl0 ∨ a = c.pokeWl1 := by
  simp [Config.pokeAllowed, BitVec.le_def, or_assoc]

/-! ### The handler's answer -/

/-- While the host accepts, the handler's report is sent and the menu is next (rule R141). -/
theorem answer_of_accepts (h : s.hostAccepts) (r : Report) : answer r s = { s with
    env := { s.env with interp := .showMenu, stage := .operands }
    trace := s.trace ++ [.out r] } := by
  have h' : (s.setEnv { s.env with interp := .dispatch, stage := .answer r }).room = none := h
  simp only [answer, deliver, State.setEnv_env, send_of_accepts h']
  rfl

@[simp] theorem answer_blk (r : Report) (s : State) : (answer r s).blk = s.blk := by
  obtain ⟨hblk, -⟩ := answer_keeps r s; exact hblk
@[simp] theorem answer_pwm (r : Report) (s : State) : (answer r s).pwm = s.pwm := by
  obtain ⟨-, hpwm, -⟩ := answer_keeps r s; exact hpwm
@[simp] theorem answer_cfg (r : Report) (s : State) : (answer r s).cfg = s.cfg := by
  obtain ⟨-, -, hcfg, -⟩ := answer_keeps r s; exact hcfg
@[simp] theorem answer_mem (r : Report) (s : State) : (answer r s).mem = s.mem := by
  obtain ⟨-, -, -, hmem⟩ := answer_keeps r s; exact hmem

/-! ### What the locations answer afterwards -/

@[simp] theorem Memory.byteAnswered_afterRead (m : Memory) (x : Nat) :
    m.afterRead.byteAnswered x = m.byteAnswered x := rfl

/-- A stored byte changes what its own location answers and no other. -/
theorem Memory.byteAnswered_storeByte_of_ne {m : Memory} (hwf : m.wf = true) {x y : Nat} (h : y ≠ x)
    (v : Byte) : (m.storeByte x v).byteAnswered y = m.byteAnswered y := by
  rw [Memory.byteAnswered, Memory.byteAnswered, Memory.stuck_storeByte,
    Memory.storedByte_storeByte _ _ _ _ hwf, if_neg h]

/-- PEEK answers a next state only after the one read (rules R143, R144). -/
theorem exec_peek_next (h : exec (.peek l) s = .next t) :
    ∃ r e, t = answer r (memRead1 (foldLine l) (s.setEnv e)) := by
  cases hm : s.cfg.isUnmapped (foldLine l) with
  | true => rw [exec_peek_of_unmapped hm] at h; cases h
  | false =>
    cases he : s.cfg.readHasSideEffect (foldLine l) with
    | true => rw [exec_peek_of_sideEffect hm he] at h; cases h
    | false =>
      rw [exec_peek_of_plain hm he] at h
      cases h
      exact ⟨_, _, rfl⟩

end

/-! ### The statements -/

/-- Settles O34: the first branch of PEEK. -/
theorem peekOfUnmappedFaults : Obligations.PeekOfUnmappedFaults := fun _ _ => exec_peek_of_unmapped

/-- Settles O35: the second branch of PEEK. -/
theorem peekOfDeviceReadFaults : Obligations.PeekOfDeviceReadFaults := fun _ _ => exec_peek_of_sideEffect

/-- Settles O33: the branch of PEEK that reads, and a fault-free memory answers what it stores. -/
theorem peekReportsTheByte : Obligations.PeekReportsTheByte := by
  refine fun l s hm he hr => ⟨?_, fun ⟨hstuck, hanswers⟩ => ?_⟩
  · rw [exec_peek_of_plain hm he, answer_of_accepts (by exact hr)]
    simp [Memory.afterRead, memValue1]
  · rw [Memory.answer1_of_none _ _ hanswers, Memory.byteAnswered_of_noStuck hstuck]

/-- Settles O37: the branch of POKE that writes, and the one byte it stores. -/
theorem pokeWritesAnAllowedByte : Obligations.PokeWritesAnAllowedByte := by
  refine fun la ld s hr ha => ⟨?_, fun hwf x => Memory.storedByte_storeByte _ _ _ _ hwf⟩
  rw [exec_poke_of_allowed ((pokeAllowed_iff _ _).2 ha), answer_of_accepts (by exact hr)]
  simp [pokeOperands, foldPokeData]

/-- Settles O38: the branch of POKE that does not. -/
theorem pokeRejectsEveryOtherAddress : Obligations.PokeRejectsEveryOtherAddress := by
  intro la ld s hr a ha
  have hrejected : s.cfg.pokeAllowed a = false := Bool.eq_false_iff.2 (mt (pokeAllowed_iff _ _).1 ha)
  rw [exec_poke_of_rejected hrejected, answer_of_accepts (by exact hr)]
  rfl

/-- Settles O39: the meaning of EXIT moves the interpreter only (rule R148). -/
theorem exitEndsTheLoop : Obligations.ExitEndsTheLoop := fun _ => rfl

/-- Settles O40: PEEK reads, EXIT moves the interpreter, and POKE stores one byte or none. -/
theorem environmentCommandsFrame : Obligations.EnvironmentCommandsFrame := by
  refine fun la ld s t hwf => ⟨?_, fun h => ?_⟩
  · rintro (h | h)
    · obtain ⟨r, e, rfl⟩ := exec_peek_next h
      simp
    · cases h
      exact ⟨rfl, rfl, rfl, rfl, fun _ => rfl⟩
  · cases ha : s.cfg.pokeAllowed (foldPokeAddress s.cfg.pokeAddrBits la) with
    | true =>
      rw [exec_poke_of_allowed ha] at h
      cases h
      refine ⟨by simp, by simp, by simp, by simp, nofun, fun x hx => ?_⟩
      rw [answer_mem, memWrite1_mem]
      exact Memory.byteAnswered_storeByte_of_ne hwf hx _
    | false =>
      rw [exec_poke_of_rejected ha] at h
      cases h
      simp

end Sys2Proof.Machine

/-! SUPPORT. The interpreter's states (spec/43_environment.md rules R138, R139, R142, R148): the menu, an invalid
selector, and who reaches `Exit`. -/

namespace Sys2Proof.Machine

/-! ### The menu, an invalid selector, and after `Exit` -/

/-- Reading stops at once at a selector that names no command (rule R142). -/
theorem fetchFrom_of_invalidSelector {s : State} (h : isSelector s.env.sel = false) (bs : List Byte) :
    fetchFrom bs s = .invalid s := by
  cases bs <;> rw [fetchFrom, (decode_eq_invalid_iff _ _).2 h]

/-- An invalid selector is reported, and nothing else is done (rule R142). -/
theorem dispatch_of_invalidSelector {s : State} (h : isSelector s.env.sel = false) :
    dispatch s = .next (answer (.invalidSelector (s.env.sel.setWidth 16)) s) := by
  rw [dispatch, fetchCommand, fetchFrom_of_invalidSelector h]

/-- Settles O47: the step of `ShowMenu` with a host that accepts everything. -/
theorem menuThenSelector : Obligations.MenuThenSelector := by
  intro s hi hn hr
  rw [step_showMenu_of_room hn (by simp [hr]) hi]
  simp [hr]

/-- Settles O46: the selector is taken, reading stops at it, and it is reported. -/
theorem invalidSelectorOnlyReported : Obligations.InvalidSelectorOnlyReported := by
  intro s b rest hi hn hr hb hrx
  have hinvalid : isSelector (takeSelector b rest (worldTurn s)).env.sel = false :=
    (not_isSelector_iff b).2 hb
  rw [step_of_selector hi hn hrx, dispatch_of_invalidSelector hinvalid, answer_of_accepts (by exact hr)]
  simp [takeSelector, State.setEnv]

/-- Settles O51: the session's thread refuses in `Exit`, and only a reset comes before it. -/
theorem nothingAfterExit : Obligations.NothingAfterExit := by
  intro s hi hn
  simp [step, hn, sessionStep, hi]

/-! ### Who reaches `Exit` -/

section
variable {s t : State}

/-- The interpreter has not reached its terminal state. -/
abbrev State.goesOn (s : State) : Prop := s.env.interp ≠ .exit

/-- A run of the block never ends the session. -/
theorem runBlock_goesOn (h : runBlock s = .next t) (hs : s.goesOn) : t.goesOn := by
  refine runBlock_keeps (Q := State.goesOn) (fun u hu => ?_) (fun u v hm hu => ?_) (fun u hu => ?_) h hs
  · simpa [State.goesOn] using hu
  · rwa [State.goesOn, hm.env_eq]
  · unfold collectDone
    split
    · exact nofun
    · exact hu

theorem deliver_goesOn (hs : s.goesOn) : (deliver s).goesOn := by
  unfold deliver
  split
  · split
    · exact nofun
    · exact hs
  · exact hs

theorem answer_goesOn (r : Report) (s : State) : (answer r s).goesOn :=
  deliver_goesOn (s := s.setEnv { s.env with interp := .dispatch, stage := .answer r }) nofun

theorem showMenu_goesOn (hs : s.goesOn) : (showMenu s).goesOn := by
  unfold showMenu
  split
  · exact nofun
  · exact hs

/-- Only EXIT ends the session. -/
theorem exec_goesOn {i : Instr} (h : exec i s = .next t) (hi : i ≠ .exit) : t.goesOn := by
  rcases exec_next h with ⟨sel, arg, -, h⟩ | ⟨e, r, a, rfl⟩ | ⟨e, r, a, d, rfl⟩ | ⟨e, rfl⟩ | ⟨he, -⟩
  · exact runBlock_goesOn h nofun
  · exact answer_goesOn _ _
  · exact answer_goesOn _ _
  · exact answer_goesOn _ _
  · exact absurd he hi

/-- Only the quit character decodes to EXIT (rule R52). -/
theorem selector_of_decode_exit {sel : Byte} {bs rest : List Byte}
    (h : decode (sel :: bs) = .ok (.exit, rest)) : sel = selExit := by
  obtain ⟨-, he⟩ := decode_eq_ok_iff.1 h
  exact (List.cons.inj he).1.symm

/-- Reading a command ends the session only where the selector is the quit character. -/
theorem dispatch_exit (h : dispatch s = .next t) (hs : s.goesOn) (ht : t.env.interp = .exit) :
    t.env.sel = selExit := by
  obtain ⟨s1, hreads, hcases⟩ := dispatch_next h
  rcases hcases with ⟨i, ⟨rest, hd⟩, h⟩ | rfl | rfl
  · by_cases hi : i = .exit
    · subst hi
      cases h
      exact selector_of_decode_exit hd
    · exact absurd ht (exec_goesOn h hi)
  · exact absurd ht (answer_goesOn _ _)
  · exact absurd (hreads.interp.symm.trans ht) hs

end

/-- Settles O50: of the cases of a step, only a command that has been read can end the session. -/
theorem exitOnlyByTheQuitSelector : Obligations.ExitOnlyByTheQuitSelector := by
  intro s t h ht
  rcases step_next h with ⟨-, rfl⟩ | ⟨hi, rfl⟩ | ⟨hi, -, rfl⟩ | ⟨b, rest, -, -, h⟩ | ⟨hi, -, h⟩ |
    ⟨hi, -, h⟩ | ⟨r, hi, -, rfl⟩
  · cases ht
  · exact absurd ht (showMenu_goesOn (by simp [State.goesOn, hi]))
  · simp [hi] at ht
  · exact dispatch_exit h nofun ht
  · exact dispatch_exit h (by simp [State.goesOn, hi]) ht
  · exact absurd ht (runBlock_goesOn h (by simp [State.goesOn, hi]))
  · exact absurd ht (deliver_goesOn (by simp [State.goesOn, hi]))

end Sys2Proof.Machine
